-- ==== Sys2Proof/Word.lean ====
section
/-! DEFINITION. The widths of the crush CORE (spec/00_scope.md R8): a data word and a register are 32 bits, a bit count and a
node weight 64 bits, a symbol 8 bits. Every value is unsigned (R11). -/

namespace Sys2Proof

/-- One byte of DMEM, one symbol, PBUF (R8, R45). -/
abbrev Byte := BitVec 8

/-- A register of the register block and a command word (R8, R80). -/
abbrev Word := BitVec 32

/-- BITCNT, RDPOS, WPOS, RLIM and a node weight (R8, R41). -/
abbrev DWord := BitVec 64

end Sys2Proof
end

