-- ==== Sys2Proof/Config.lean ====
section
/-! DEFINITION. What one instance of the core fixes (spec/00_scope.md R7, R18; spec/10_state.md R23) and the free values
(spec/93_implementation_defined.md). The constants without a body are OPEN: nothing can be proved of their values. -/

namespace Sys2Proof

/-- The three parameters of R7, fixed for one core. The CFG registers read them (R24). -/
structure Params where
  /-- bytes of DMEM -/
  dmemSize : Nat
  /-- largest legal LZ_WINDOW -/
  windowMax : Nat
  /-- largest legal LZ_LOOKAHEAD -/
  lookaheadMax : Nat
  deriving DecidableEq, Repr

/-- The constraints R7 puts on the parameters. -/
abbrev Params.Legal (p : Params) : Prop :=
  16 ≤ p.dmemSize ∧ p.dmemSize ≤ 2 ^ 31 ∧
  2048 ≤ p.windowMax ∧ p.windowMax ≤ 2 ^ 32 - 1 ∧
  32 ≤ p.lookaheadMax ∧ p.lookaheadMax ≤ 2 ^ 32 - 1

namespace Config

/-- OPEN (D31): which legal DMEM_SIZE this core has. -/
opaque dmemChoice : Nat
/-- OPEN (D31): which legal WINDOW_MAX this core has. -/
opaque windowChoice : Nat
/-- OPEN (D31): which legal LOOKAHEAD_MAX this core has. -/
opaque lookaheadChoice : Nat

/-- DMEM_SIZE: any value of 16..2^31 (R7), every one of them for some choice. DESIGN CHOICE (log entry 1). -/
def dmemSize : Nat := dmemChoice % (2 ^ 31 - 15) + 16
/-- WINDOW_MAX: any value of 2048..2^32-1 (R7). DESIGN CHOICE (log entry 1). -/
def windowMax : Nat := windowChoice % (2 ^ 32 - 2048) + 2048
/-- LOOKAHEAD_MAX: any value of 32..2^32-1 (R7). DESIGN CHOICE (log entry 1). -/
def lookaheadMax : Nat := lookaheadChoice % (2 ^ 32 - 32) + 32

/-- The parameters of this core. -/
def params : Params := ⟨dmemSize, windowMax, lookaheadMax⟩

/-- ID reads this constant (R23). -/
def idWord : Word := 0x43525348

/-- FREE VALUE (log entry 2): what DMEM holds at an address after power-on, until the byte is written (R49, R210; U4). -/
opaque powerOnByte : Nat → Byte
/-- FREE VALUE (log entry 3): the byte of the n-th draw (R184, R210, R211; U1 to U5), also for a byte that does
not exist (log entry 8). -/
opaque freeByte : Nat → Byte
/-- FREE VALUE (log entry 3): the 32-bit value of the n-th draw (R184, R221; U1 to U3, U6; log entry 18). -/
opaque freeWord : Nat → Word
/-- FREE VALUE (log entry 3): the 64-bit value of the n-th draw (R184; U1, U2). -/
opaque freeDWord : Nat → DWord

end Config

end Sys2Proof
end

