-- ==== Sys2Proof/Syntax.lean ====
section
/-! DEFINITION. The twelve commands (spec/30_encoding.md R82), one constructor for each row of spec/opcode_table.json. -/

namespace Sys2Proof

/-- A command of `crush-core/1`. N of BP_PUT and BP_GET is the 8-bit field of R80, zero-extended (R81). -/
inductive Instr where
  /-- BP_WINIT (R100) -/
  | bpWinit
  /-- BP_PUT N (R102) -/
  | bpPut (n : Byte)
  /-- BP_FLUSH (R103) -/
  | bpFlush
  /-- BP_RINIT (R104) -/
  | bpRinit
  /-- BP_GET N (R105) -/
  | bpGet (n : Byte)
  /-- HT_COUNT (R120) -/
  | htCount
  /-- HT_BUILD (R121) -/
  | htBuild
  /-- HT_LOADMETA (R124) -/
  | htLoadmeta
  /-- HT_STOREMETA (R125) -/
  | htStoremeta
  /-- HE_ENCODE (R140) -/
  | heEncode
  /-- HD_DECODE (R150) -/
  | hdDecode
  /-- LZ_MATCH (R160) -/
  | lzMatch
  deriving DecidableEq, Repr

end Sys2Proof
end

