-- ==== Sys2Proof/WellFormed.lean ====
section
/-! DEFINITION. Which instruction terms a command word stands for (spec/30_encoding.md R80, R84). -/

namespace Sys2Proof

/-- A legal bit count: 1..32 (R80). -/
def countOk (n : Byte) : Bool := decide (1 ≤ n.toNat ∧ n.toNat ≤ 32)

/-- The only constraint on a command's fields is the one on N (R80, R84). -/
def Instr.wf : Instr → Bool
  | .bpPut n => countOk n
  | .bpGet n => countOk n
  | .bpWinit => true
  | .bpFlush => true
  | .bpRinit => true
  | .htCount => true
  | .htBuild => true
  | .htLoadmeta => true
  | .htStoremeta => true
  | .heEncode => true
  | .hdDecode => true
  | .lzMatch => true

end Sys2Proof
end

