-- ==== Sys2Proof/Decode.lean ====
section
/-! DEFINITION. Decoding of command words, total on all 32-bit words (spec/30_encoding.md R80 to R85), and the encoder.
A command is one 32-bit word written to CMD, never bytes of DMEM (spec/20_memory.md R76), so the decoder reads a word. -/

namespace Sys2Proof

/-- Why a word is ILLEGAL: the four cases of R84. -/
inductive IllegalReason where
  /-- RSV is not 0 -/
  | reservedBits
  /-- OP is none of the twelve -/
  | opcode
  /-- BP_PUT or BP_GET with N = 0 or N > 32 -/
  | bitCount
  /-- another command with N not 0 -/
  | countField
  deriving DecidableEq, Repr

/-- What a word decodes to (R83): a command, or ILLEGAL with the case of R84. -/
inductive Decoded where
  | command (i : Instr)
  | illegal (why : IllegalReason)
  deriving DecidableEq, Repr

/-- OP, bits 7:0 (R80). -/
def opField (w : Word) : Byte := w.extractLsb' 0 8
/-- N, bits 15:8 (R80). -/
def nField (w : Word) : Byte := w.extractLsb' 8 8
/-- RSV, bits 31:16 (R80). -/
def rsvField (w : Word) : BitVec 16 := w.extractLsb' 16 16

/-- A command that takes a bit count (R83). -/
def withCount (n : Byte) (i : Instr) : Decoded := if countOk n then .command i else .illegal .bitCount

/-- A command whose N must be 0 (R83). -/
def withoutCount (n : Byte) (i : Instr) : Decoded := if n = 0 then .command i else .illegal .countField

/-- The opcode map of R82, with N still to be checked. -/
def decodeOp (op n : Byte) : Decoded :=
  if op = 0x01 then withoutCount n .bpWinit
  else if op = 0x02 then withCount n (.bpPut n)
  else if op = 0x03 then withoutCount n .bpFlush
  else if op = 0x04 then withoutCount n .bpRinit
  else if op = 0x05 then withCount n (.bpGet n)
  else if op = 0x10 then withoutCount n .htCount
  else if op = 0x11 then withoutCount n .htBuild
  else if op = 0x12 then withoutCount n .htLoadmeta
  else if op = 0x13 then withoutCount n .htStoremeta
  else if op = 0x20 then withoutCount n .heEncode
  else if op = 0x30 then withoutCount n .hdDecode
  else if op = 0x40 then withoutCount n .lzMatch
  else .illegal .opcode

/-- Decode(w) of R83. -/
def decode (w : Word) : Decoded :=
  if rsvField w = 0 then decodeOp (opField w) (nField w) else .illegal .reservedBits

/-- The opcode of a command (R82). -/
def opcode : Instr → Byte
  | .bpWinit => 0x01
  | .bpPut _ => 0x02
  | .bpFlush => 0x03
  | .bpRinit => 0x04
  | .bpGet _ => 0x05
  | .htCount => 0x10
  | .htBuild => 0x11
  | .htLoadmeta => 0x12
  | .htStoremeta => 0x13
  | .heEncode => 0x20
  | .hdDecode => 0x30
  | .lzMatch => 0x40

/-- The N field of a command (R80). -/
def countField : Instr → Byte
  | .bpPut n => n
  | .bpGet n => n
  | .bpWinit => 0
  | .bpFlush => 0
  | .bpRinit => 0
  | .htCount => 0
  | .htBuild => 0
  | .htLoadmeta => 0
  | .htStoremeta => 0
  | .heEncode => 0
  | .hdDecode => 0
  | .lzMatch => 0

/-- The word of a command: RSV = 0, then N, then OP (R80, R82). -/
def encode (i : Instr) : Word := (0 : BitVec 16) ++ (countField i ++ opcode i : BitVec 16)

/-- What the decoder reads from an instruction of `nbits` bits `w`, bit 0 the least significant bit of the word, as
spec/opcode_table.json numbers them; bits above `nbits` are 0. -/
def decodeTableWord (nbits w : Nat) : Option Instr :=
  match decode (BitVec.ofNat 32 (w % 2 ^ nbits)) with
  | .command i => some i
  | .illegal _ => none

end Sys2Proof
end

