-- ==== Sys2Proof/Machine/State.lean ====
section
/-! DEFINITION. The state of the crush CORE and of its host, as plain data (spec/10_state.md R22 to R49), the reasons a step
can stop, and the state after reset (R49, spec/70_reset_and_hazards.md R210). -/

namespace Sys2Proof.Machine

/-- DMEM (spec/20_memory.md R60) as (address, byte) pairs; `Memory.wf` is its one canonical form. -/
abbrev Memory := List Host.Cell

/-- The error codes of spec/60_exceptions.md R185; 9..15 do not exist. Their numbers are `ErrCode.code`. -/
inductive ErrCode where
  | none | illegal | address | validation | state | format | capacity | nosym | empty
  deriving DecidableEq, Repr

/-- STATUS without BUSY (spec/10_state.md R27). BUSY is the presence of PENDING (R47): see `State.busy`. -/
structure Status where
  done : Bool
  err : Bool
  anyerr : Bool
  ovr : Bool
  errcode : ErrCode
  lastop : Byte
  deriving DecidableEq, Repr

/-- One node of the arena TREE (R41): a leaf has a symbol, an internal node two node indices. -/
inductive Node where
  | leaf (weight : DWord) (sym : Byte)
  | internal (weight : DWord) (left right : Nat)
  deriving DecidableEq, Repr

/-- What the world outside the core can do (spec/00_scope.md R18, spec/20_memory.md R67, spec/30_encoding.md R87). -/
inductive HostOp where
  /-- a register write of `bits` bits at a byte offset of the register block (R67(a); only 32 bits at a multiple of 4 is legal) -/
  | wr (bits : Nat) (offset : BitVec 12) (value : Word)
  /-- a register read (R67(a)) -/
  | rd (bits : Nat) (offset : BitVec 12)
  /-- a write of one DMEM byte (R67(b)) -/
  | memw (addr : Nat) (byte : Byte)
  /-- a read of one DMEM byte (R67(b)) -/
  | memr (addr : Nat)
  /-- WAIT: read STATUS until BUSY reads 0 (R87) -/
  | wait
  /-- the platform's power-on reset (spec/70_reset_and_hazards.md R210) -/
  | powerOn
  deriving DecidableEq, Repr

/-- What a host read returned. -/
inductive HostRead where
  | reg (offset : BitVec 12) (value : Word)
  | mem (addr : Nat) (byte : Byte)
  deriving DecidableEq, Repr

/-- Everything the spec gives the machine (spec/10_state.md), the instance's parameters (spec/00_scope.md R7), DMEM
(spec/20_memory.md R60), and the model's own fields for the host, the schedule and the free values. -/
structure State where
  /-- DMEM_SIZE, WINDOW_MAX, LOOKAHEAD_MAX; no step changes them (R7, R24) -/
  params : Params
  /-- CTRL.EMPTY_ERR (R25) -/
  emptyErr : Bool
  /-- STATUS but BUSY (R27) -/
  status : Status
  /-- PENDING (R47): the command issued and not yet completed; BUSY = 1 exactly when there is one -/
  pending : Option Word
  /-- SRC_ADDR (R28) -/
  srcAddr : Word
  /-- SRC_LEN (R28) -/
  srcLen : Word
  /-- DST_ADDR (R29) -/
  dstAddr : Word
  /-- DST_CAP (R29) -/
  dstCap : Word
  /-- OUT_LEN (R30) -/
  outLen : Word
  /-- BITCNT (R31) -/
  bitcnt : DWord
  /-- RDPOS (R32) -/
  rdpos : DWord
  /-- ARG (R34) -/
  arg : Word
  /-- RESULT (R34) -/
  result : Word
  /-- LZ_WINDOW (R33) -/
  lzWindow : Word
  /-- LZ_LOOKAHEAD (R33) -/
  lzLookahead : Word
  /-- TOKCNT (R35) -/
  tokcnt : Word
  /-- NSYM (R36) -/
  nsym : Word
  /-- FREQ[0..255] (R40) -/
  freq : Vector Word 256
  /-- TREE (R41) -/
  tree : List Node
  /-- ROOT (R41); NONE is `none` -/
  root : Option Nat
  /-- TREE_VALID (R42) -/
  treeValid : Bool
  /-- CODE[0..255] (R43), first bit nearest the root -/
  code : Vector (List Bool) 256
  /-- WBASE (R45) -/
  wbase : Word
  /-- WCAP (R45) -/
  wcap : Word
  /-- WPOS (R45) -/
  wpos : DWord
  /-- PBUF (R45) -/
  pbuf : Byte
  /-- RBASE (R46) -/
  rbase : Word
  /-- RLIM (R46) -/
  rlim : DWord
  /-- DMEM (spec/20_memory.md R60) -/
  dmem : Memory
  /-- the model's own: how many free values have been drawn (log entry 3) -/
  draws : Nat
  /-- the model's own: what the host has still to do, oldest first (log entry 4) -/
  hostOps : List HostOp
  /-- the model's own: how many host operations still go before the core performs PENDING (log entry 4) -/
  delay : Nat
  /-- the model's own: the delays of the commands still to be issued (log entry 4) -/
  schedule : List Nat
  /-- the model's own: what host reads returned, newest first (log entry 4) -/
  seen : List HostRead
  deriving DecidableEq, Repr

/-- Why a step stops with a fault. Every error the spec names is a completion code, not a fault (spec/60_exceptions.md R190). -/
inductive Fault where
  /-- A host access to the DMEM address `addr`, which is not below DMEM_SIZE and so does not exist (R60). Raised by a host DMEM
  access, by no command. Safe (log entry 8). -/
  | noDmemByte (addr : Nat)
  /-- HD_DECODE met an index that names no node of TREE that fits. Raised by HD_DECODE in states that no run from reset
  reaches (R42). Safe (log entry 9). -/
  | noSuchNode (index : Nat)
  deriving DecidableEq, Repr

/-- Why a step is refused. -/
inductive Refusal where
  /-- Raised by an arm of `exec` that has no meaning yet; no arm of this model. Safe. -/
  | notModelled (mnemonic : String)
  /-- Raised by a host DMEM access while BUSY = 1, for which the spec gives no transition (R220, U7). It is a duty of the
  host: unsafe for a host that breaks it (log entry 7). -/
  | hostDmemWhileBusy
  /-- Raised by a host register access that is not 32 bits wide or not at a multiple of 4 (R67(a), U8). Safe (log entry 12). -/
  | hostRegisterAccess
  deriving DecidableEq, Repr

/-- The machine right after power-on reset (R49, R210): every value is the spec's but those of the model's own fields (log
entries 3 and 4). What DMEM holds the spec leaves unspecified: nothing is listed, and each byte is a free value (log entry 2). The parameters are
the OPEN ones of `Config` (log entry 1). -/
def State.reset : State where
  params := Config.params
  emptyErr := false
  status := ⟨false, false, false, false, .none, 0⟩
  pending := none
  srcAddr := 0
  srcLen := 0
  dstAddr := 0
  dstCap := 0
  outLen := 0
  bitcnt := 0
  rdpos := 0
  arg := 0
  result := 0
  lzWindow := 2048
  lzLookahead := 32
  tokcnt := 0
  nsym := 0
  freq := Vector.replicate 256 0
  tree := []
  root := none
  treeValid := false
  code := Vector.replicate 256 []
  wbase := 0
  wcap := 0
  wpos := 0
  pbuf := 0
  rbase := 0
  rlim := 0
  dmem := []
  draws := 0
  hostOps := []
  delay := 0
  schedule := []
  seen := []

end Sys2Proof.Machine
end

