-- ==== Sys2Proof/Machine/Flags.lean ====
section
/-! DEFINITION. The flags and the words software reads whole: error numbers (spec/60_exceptions.md R185), STATUS (spec/10_state.md
R27), CTRL (R25), TREE_STATUS (R37), CODELEN (R44). The core has no condition codes (R48). -/

namespace Sys2Proof.Machine

/-- The number of an error code in STATUS.ERRCODE (R185). -/
def ErrCode.code : ErrCode → BitVec 4
  | .none => 0
  | .illegal => 1
  | .address => 2
  | .validation => 3
  | .state => 4
  | .format => 5
  | .capacity => 6
  | .nosym => 7
  | .empty => 8

/-- ERR is set exactly by a nonzero code (R182). -/
def ErrCode.isError (c : ErrCode) : Bool := decide (c ≠ .none)

/-- STATUS.BUSY: a command is issued and not yet completed (R27, R47). -/
def State.busy (s : State) : Bool := s.pending.isSome

/-- STATUS as the host reads it; its reserved bits read 0 (R27). -/
def statusWord (s : State) : Word :=
  BitVec.ofNat 32 (s.busy.toNat + 2 * s.status.done.toNat + 4 * s.status.err.toNat + 8 * s.status.anyerr.toNat
    + 16 * s.status.ovr.toNat + 2 ^ 8 * s.status.errcode.code.toNat + 2 ^ 16 * s.status.lastop.toNat)

/-- CTRL as the host reads it: SRST and the reserved bits read 0 (R25). -/
def ctrlWord (s : State) : Word := BitVec.ofNat 32 (2 * s.emptyErr.toNat)

/-- CODELEN[s], 8 bits (R44). -/
def codeLen (c : List Bool) : Byte := BitVec.ofNat 8 c.length

/-- TREE_STATUS.MAXLEN: the largest CODELEN, 0 when no symbol has a code (R37). -/
def maxLen (code : Vector (List Bool) 256) : Nat := code.toList.foldl (fun m c => max m (codeLen c).toNat) 0

/-- TREE_STATUS as the host reads it: VALID in bit 0, MAXLEN in bits 15:8, the rest 0 (R37). -/
def treeStatusWord (s : State) : Word := BitVec.ofNat 32 (s.treeValid.toNat + 2 ^ 8 * maxLen s.code)

end Sys2Proof.Machine
end

