-- ==== Sys2Proof/Machine/Ops.lean ====
section
/-! DEFINITION. The shared operations: the 256-entry tables, DMEM, bit streams, the command lifecycle with its one way to
complete with an error, free values, the writer and the reader. -/

namespace Sys2Proof.Machine

/-- What a command or a host operation answers. -/
abbrev Result := Host.Outcome State Fault Refusal

/-! ### Tables of 256 entries (spec/10_state.md R40, R43) -/

/-- The symbols in ascending order. -/
def allBytes : List Byte := (List.range 256).map (BitVec.ofNat 8)

/-- The table whose entry at every symbol is given by `f`. -/
def tabulate {α : Type} (f : Byte → α) : Vector α 256 := ⟨(allBytes.map f).toArray, by simp [allBytes]⟩

/-- The entry of a table at a symbol. -/
def entry {α : Type} (t : Vector α 256) (b : Byte) : α := t[b.toNat]'b.isLt

/-! ### DMEM (spec/20_memory.md R60, R61, R66) -/

/-- What an unlisted address reads as: the byte it has held since power-on, a FREE VALUE (R49, R210; log entry 2). -/
def unlisted (a : Nat) : Byte := Config.powerOnByte a

/-- The canonical form: addresses strictly rising. The listed addresses are those written since power-on. -/
abbrev Memory.wf (m : Memory) : Prop := m.Pairwise (fun c d => c.1 < d.1)

/-- Every listed address is below `size`. -/
abbrev Memory.below (m : Memory) (size : Nat) : Prop := ∀ c ∈ m, c.1 < size

/-- The byte listed at an address; `none` where nothing was written since power-on. -/
def Memory.find : Memory → Nat → Option Byte
  | [], _ => none
  | c :: m, a => if c.1 = a then some c.2 else Memory.find m a

/-- One byte of DMEM. -/
def Memory.read (m : Memory) (a : Nat) : Byte := (Memory.find m a).getD (unlisted a)

/-- MemWrite(a, 1, b) (spec/00_scope.md R13). -/
def Memory.write (m : Memory) (a : Nat) (b : Byte) : Memory :=
  match m with
  | [] => [(a, b)]
  | c :: m => if a < c.1 then (a, b) :: c :: m else if a = c.1 then (a, b) :: m else c :: Memory.write m a b

/-- MemWrite(a, 1, b) where the writer's stream may lie outside DMEM: a byte that does not exist (R60) is not written
(spec/60_exceptions.md R184; log entry 8). -/
def Memory.writeExisting (size : Nat) (m : Memory) (a : Nat) (b : Byte) : Memory :=
  if a < size then Memory.write m a b else m

/-- The bytes at a .. a+n-1. -/
def Memory.readBytes (m : Memory) (a : Nat) : Nat → List Byte
  | 0 => []
  | n + 1 => Memory.read m a :: Memory.readBytes m (a + 1) n

/-- Bytes written at a, a+1, ... -/
def Memory.writeBytes (m : Memory) (a : Nat) : List Byte → Memory
  | [] => m
  | b :: bs => Memory.writeBytes (Memory.write m a b) (a + 1) bs

/-- The bytes of a value in little-endian order (R61). -/
def leBytes : Nat → Nat → List Byte
  | 0, _ => []
  | n + 1, v => BitVec.ofNat 8 v :: leBytes n (v / 256)

/-- The value of bytes in little-endian order (R61). -/
def leValue : List Byte → Nat
  | [] => 0
  | b :: bs => b.toNat + 256 * leValue bs

/-- MemRead(a, n) (R61). -/
def memRead (m : Memory) (a n : Nat) : Nat := leValue (Memory.readBytes m a n)

/-! ### Bit streams (R62, spec/00_scope.md R10, R12) -/

/-- ceil8(b): the bytes that hold b bits (R10). -/
def ceil8 (b : Nat) : Nat := (b + 7) / 8

/-- Stream bit k of the stream at `base` (R62). -/
def streamBit (m : Memory) (base k : Nat) : Bool := (Memory.read m (base + k / 8)).getLsbD (7 - k % 8)

/-- The stream bits at positions k .. k+n-1, in time order: n uses of ReadBit (spec/40_bitpacker.md R106). -/
def streamBits (m : Memory) (base k : Nat) : Nat → List Bool
  | 0 => []
  | n + 1 => streamBit m base k :: streamBits m base (k + 1) n

/-- n uses of ReadBit where the reader's stream may lie outside DMEM: each bit of a byte that does not exist (R60) is a free
value (spec/60_exceptions.md R184; log entry 8). -/
def readBits (size : Nat) (m : Memory) (base k draws : Nat) : Nat → List Bool
  | 0 => []
  | n + 1 =>
    (if base + k / 8 < size then streamBit m base k else (Config.freeByte draws).getLsbD 0)
      :: readBits size m base (k + 1) (draws + 1) n

/-- The value of bits, the first most significant (R105). -/
def bitsValue (bs : List Bool) : Nat := bs.foldl (fun v b => 2 * v + b.toNat) 0

/-! ### Command lifecycle (spec/60_exceptions.md R180, R182) -/

/-- Issue of word w (R180): the status and PENDING. ANYERR and OVR keep their values and nothing else changes. -/
def latch (w : Word) (s : State) : State :=
  { s with
    status := { s.status with done := false, err := false, errcode := .none, lastop := w.extractLsb' 0 8 }
    pending := some w }

/-- Completion (R182), with `finish` (code NONE) and with every error alike: this is the one place an error is taken. There is
no saved program counter, no handler and no return (R190, R191): the next issue clears DONE, ERR and ERRCODE (`latch`). -/
def complete (c : ErrCode) (s : State) : State :=
  { s with
    status := { s.status with
      done := true, err := c.isError, anyerr := s.status.anyerr || c.isError, errcode := c }
    pending := none }

/-- `raise <Code>` (spec/00_scope.md R13). -/
def raise (c : ErrCode) (s : State) : Result := .next (complete c s)

/-- `finish` (R13). -/
def finish (s : State) : Result := .next (complete .none s)

/-! ### Free values (R184, R210, R211; log entry 3) -/

/-- `n` free bytes, the draws k .. k+n-1. -/
def freeBytes (k : Nat) : Nat → List Byte
  | 0 => []
  | n + 1 => Config.freeByte k :: freeBytes (k + 1) n

/-- DMEM at a .. a+n-1 becomes unspecified; every other byte keeps its value. -/
def havocDmem (a n : Nat) (s : State) : State :=
  { s with dmem := Memory.writeBytes s.dmem a (freeBytes s.draws n), draws := s.draws + n }

/-! ### The writer (spec/10_state.md R45, spec/40_bitpacker.md R100 to R103) -/

/-- A new stream at [base, base + cap). -/
def openWriter (base cap : Word) (s : State) : State := { s with wbase := base, wcap := cap, wpos := 0, pbuf := 0 }

/-- AppendBit(b) (R101). -/
def appendBit (s : State) (b : Bool) : State :=
  let p : Byte := BitVec.ofNat 8 (2 * s.pbuf.toNat + b.toNat)
  let w := s.wpos.toNat + 1
  if w % 8 = 0 then
    { s with
      dmem := Memory.writeExisting s.params.dmemSize s.dmem (s.wbase.toNat + w / 8 - 1) p
      wpos := BitVec.ofNat 64 w
      pbuf := 0 }
  else { s with wpos := BitVec.ofNat 64 w, pbuf := p }

/-- AppendBit for each bit of a sequence, the first bit first. -/
def appendBits (s : State) (bs : List Bool) : State := bs.foldl appendBit s

/-- The end of BP_FLUSH (R103) and of HE_ENCODE (spec/42_huffman_encoder.md R140): the pending bits high and pad bits 0 in the
last byte, if it is incomplete; then BITCNT and OUT_LEN. WPOS and PBUF stay. Only where a run error broke the writer's
invariant (R184) can that byte lie outside [WBASE, WBASE + WCAP), where R71 forbids the write (log entry 14), or can ceil8(WPOS)
not fit OUT_LEN, which is then a free value (DESIGN CHOICE, log entry 18: the spec states no value). -/
def flushWriter (s : State) : State :=
  let pos := s.wpos.toNat
  let len := ceil8 pos
  { s with
    dmem :=
      if pos % 8 = 0 ∨ s.wcap.toNat ≤ pos / 8 then s.dmem
      else Memory.writeExisting s.params.dmemSize s.dmem (s.wbase.toNat + pos / 8)
        (BitVec.ofNat 8 (s.pbuf.toNat * 2 ^ (8 - pos % 8)))
    bitcnt := s.wpos
    outLen := if len < 2 ^ 32 then BitVec.ofNat 32 len else Config.freeWord s.draws
    draws := if len < 2 ^ 32 then s.draws else s.draws + 1 }

/-! ### The reader (R46, R104 to R106) -/

/-- A stream of `lim` bits at `base`, nothing read yet. -/
def openReader (base : Word) (lim : DWord) (s : State) : State := { s with rbase := base, rlim := lim, rdpos := 0 }

/-! ### The tree builder's tables (R40 to R43) -/

/-- FREQ and NSYM written; the tree and the codes are gone (R120, R124). -/
def setFreq (freq : Vector Word 256) (nsym : Word) (s : State) : State :=
  { s with
    freq := freq
    nsym := nsym
    treeValid := false
    tree := []
    root := none
    code := Vector.replicate 256 [] }

/-- A new register value of OUT_LEN with bytes written at `a`. -/
def putOutput (a : Nat) (bs : List Byte) (outLen : Word) (s : State) : State :=
  { s with dmem := Memory.writeBytes s.dmem a bs, outLen := outLen }

end Sys2Proof.Machine
end

