-- ==== Sys2Proof/Machine/Operands.lean ====
section
/-! DEFINITION. The operand forms: the ranges SRC and DST (spec/00_scope.md R14, spec/10_state.md R28, R29), their checks
(spec/20_memory.md R70), the bytes of SRC, and the bits of ARG (spec/40_bitpacker.md R102). -/

namespace Sys2Proof.Machine

/-- RangeOK(a, l), computed without wrap-around (R14). -/
def rangeOK (size a l : Nat) : Bool := decide (a + l ≤ size)

/-- Overlap(a1, l1, a2, l2) (R14). -/
def overlap (a1 l1 a2 l2 : Nat) : Bool := decide (0 < l1 ∧ 0 < l2 ∧ a1 < a2 + l2 ∧ a2 < a1 + l1)

/-- RangeOK of SRC. -/
def srcOK (s : State) : Bool := rangeOK s.params.dmemSize s.srcAddr.toNat s.srcLen.toNat

/-- RangeOK of DST. -/
def dstOK (s : State) : Bool := rangeOK s.params.dmemSize s.dstAddr.toNat s.dstCap.toNat

/-- Overlap of SRC and DST. -/
def srcDstOverlap (s : State) : Bool := overlap s.srcAddr.toNat s.srcLen.toNat s.dstAddr.toNat s.dstCap.toNat

/-- byte(i) = MemRead(SRC_ADDR + i, 1). -/
def srcByte (s : State) (i : Nat) : Byte := Memory.read s.dmem (s.srcAddr.toNat + i)

/-- The bytes of SRC. -/
def srcBytes (s : State) : List Byte := Memory.readBytes s.dmem s.srcAddr.toNat s.srcLen.toNat

/-- EmptyInputError is selected and the input is empty (R25). -/
def emptyInput (s : State) : Bool := decide (s.srcLen = 0) && s.emptyErr

/-- ARG[N-1], ..., ARG[0]: the bits BP_PUT N appends, in order (R102). -/
def argBits (n : Nat) (arg : Word) : List Bool := (List.range n).map (fun j => arg.getLsbD (n - 1 - j))

end Sys2Proof.Machine
end

