-- ==== Sys2Proof/Machine/BitPacker.lean ====
section
/-! DEFINITION. The BitPacker's commands (spec/40_bitpacker.md): BP_WINIT, BP_PUT, BP_FLUSH, BP_RINIT, BP_GET. -/

namespace Sys2Proof.Machine

/-- Byte i of Pack(bits) (R107). -/
def packByte (bits : List Bool) (i : Nat) : Byte :=
  BitVec.ofNat 8 (((List.range 8).map (fun p => (bits.getD (8 * i + p) false).toNat * 2 ^ (7 - p))).sum)

/-- Pack(bits) (R107): the image of a bit sequence in bytes. No command calls it; the laws speak of it. -/
def pack (bits : List Bool) : List Byte := (List.range (ceil8 bits.length)).map (packByte bits)

/-- BP_WINIT (R100). -/
def execBpWinit (s : State) : Result :=
  if !dstOK s then raise .address s
  else finish { openWriter s.dstAddr s.dstCap s with bitcnt := 0 }

/-- BP_PUT N (R102). The capacity is checked before any bit is appended. -/
def execBpPut (n : Byte) (s : State) : Result :=
  if !countOk n then raise .illegal s
  else if 8 * s.wcap.toNat < s.wpos.toNat + n.toNat then raise .capacity s
  else
    let t := appendBits s (argBits n.toNat s.arg)
    finish { t with bitcnt := t.wpos }

/-- BP_FLUSH (R103). -/
def execBpFlush (s : State) : Result := finish (flushWriter s)

/-- BP_RINIT (R104). -/
def execBpRinit (s : State) : Result :=
  if !srcOK s then raise .address s
  else if s.srcLen.toNat < ceil8 s.bitcnt.toNat then raise .format s
  else finish (openReader s.srcAddr s.bitcnt s)

/-- BP_GET N (R105). Free values are drawn only where a run error left the reader's stream outside DMEM (log entry 8). -/
def execBpGet (n : Byte) (s : State) : Result :=
  let pos := s.rdpos.toNat
  if !countOk n then raise .illegal s
  else if s.rlim.toNat < pos + n.toNat then raise .format s
  else
    finish { s with
      result := BitVec.ofNat 32
        (bitsValue (readBits s.params.dmemSize s.dmem s.rbase.toNat pos s.draws n.toNat))
      rdpos := BitVec.ofNat 64 (pos + n.toNat)
      draws := if s.rbase.toNat + ceil8 (pos + n.toNat) ≤ s.params.dmemSize then s.draws else s.draws + n.toNat }

end Sys2Proof.Machine
end

