-- ==== Sys2Proof/Machine/HuffmanBuilder.lean ====
section
/-! DEFINITION. The Huffman tree builder (spec/41_huffman_tree_builder.md): frequency count, deterministic tree, code table,
metadata image; HT_COUNT, HT_BUILD, HT_LOADMETA, HT_STOREMETA. -/

namespace Sys2Proof.Machine

/-! ### BuildTree (R122) -/

/-- One entry of the min-priority queue: a node's weight and its index. -/
structure QEntry where
  weight : DWord
  index : Nat
  deriving DecidableEq, Repr

/-- The key order: (weight, index), compared lexicographically (R122). -/
def QEntry.before (a b : QEntry) : Bool :=
  decide (a.weight.toNat < b.weight.toNat ∨ (a.weight.toNat = b.weight.toNat ∧ a.index < b.index))

/-- ExtractMin of the queue q, qs: the least entry, and the rest (R122). -/
def extractMin (q : QEntry) : List QEntry → QEntry × List QEntry
  | [] => (q, [])
  | x :: xs =>
    if x.before q then ((extractMin x xs).1, q :: (extractMin x xs).2)
    else ((extractMin q xs).1, x :: (extractMin q xs).2)

/-- The weight of a node. -/
def Node.weight : Node → DWord
  | .leaf w _ => w
  | .internal w _ _ => w

/-- The merging loop of R122: while two nodes are left, the two least are merged into the next node, the first to the left.
Each round makes the queue one shorter, so `fuel` = the number of leaves is enough. -/
def mergeLoop : Nat → List QEntry → List Node → List Node
  | 0, _, nodes => nodes
  | fuel + 1, queue, nodes =>
    match queue with
    | [] => nodes
    | [_] => nodes
    | q :: x :: qs =>
      let first := extractMin q (x :: qs)
      match first.2 with
      | [] => nodes
      | y :: ys =>
        let second := extractMin y ys
        let w := first.1.weight + second.1.weight
        mergeLoop fuel (⟨w, nodes.length⟩ :: second.2) (nodes ++ [.internal w first.1.index second.1.index])

/-- The symbols that occur, ascending (R122). -/
def symbols (freq : Vector Word 256) : List Byte := allBytes.filter (fun b => entry freq b != 0)

/-- The leaves NODE[0..n-1] (R122). -/
def leaves (freq : Vector Word 256) : List Node :=
  (symbols freq).map (fun b => .leaf ((entry freq b).setWidth 64) b)

/-- The queue at the start: all the leaves. -/
def startQueue (nodes : List Node) : List QEntry := nodes.zipIdx.map (fun p => ⟨p.1.weight, p.2⟩)

/-- The arena TREE of BuildTree(F) (R122). -/
def buildNodes (freq : Vector Word 256) : List Node :=
  mergeLoop (leaves freq).length (startQueue (leaves freq)) (leaves freq)

/-- ROOT of an arena: its last node, NONE when there is none (R122: n = 0 gives NONE, n = 1 gives 0, else 2n-2). -/
def rootOf (nodes : List Node) : Option Nat := if nodes = [] then none else some (nodes.length - 1)

/-! ### Codes (R123) -/

/-- Walk(i, p) of R123: the codes of the leaves below node i, whose own path is p. A path is shorter than the arena. -/
def walkCodes (nodes : List Node) : Nat → Nat → List Bool → List (Byte × List Bool)
  | 0, _, _ => []
  | fuel + 1, i, p =>
    match nodes[i]? with
    | none => []
    | some (.leaf _ sym) => [(sym, p)]
    | some (.internal _ l r) =>
      walkCodes nodes fuel l (p ++ [false]) ++ walkCodes nodes fuel r (p ++ [true])

/-- The codes of Codes(TREE, ROOT) by symbol (R123); a one-leaf tree gives its symbol the code "0". -/
def codePairs (nodes : List Node) (root : Option Nat) : List (Byte × List Bool) :=
  match root with
  | none => []
  | some r =>
    match nodes[r]? with
    | none => []
    | some (.leaf _ sym) => [(sym, [false])]
    | some (.internal _ _ _) => walkCodes nodes nodes.length r []

/-- The table that a list of (symbol, value) pairs describes; a symbol that is not listed has `other`. -/
def tableOf {α : Type} (other : α) (ps : List (Byte × α)) : Vector α 256 := tabulate (fun b => (ps.lookup b).getD other)

/-- Codes(TREE, ROOT) (R123). -/
def codesOf (nodes : List Node) (root : Option Nat) : Vector (List Bool) 256 := tableOf [] (codePairs nodes root)

/-! ### The commands -/

/-- The frequency table of a byte sequence (R120). -/
def countBytes (xs : List Byte) : Vector Word 256 := tabulate (fun b => BitVec.ofNat 32 (xs.count b))

/-- The number of symbols that occur (R36). -/
def symbolCount (freq : Vector Word 256) : Nat := (symbols freq).length

/-- HT_COUNT (R120). -/
def execHtCount (s : State) : Result :=
  if !srcOK s then raise .address s
  else if emptyInput s then raise .empty s
  else
    let f := countBytes (srcBytes s)
    finish (setFreq f (BitVec.ofNat 32 (symbolCount f)) s)

/-- HT_BUILD (R121). -/
def execHtBuild (s : State) : Result :=
  let nodes := buildNodes s.freq
  finish { s with
    tree := nodes
    root := rootOf nodes
    code := codesOf nodes (rootOf nodes)
    treeValid := true }

/-- The pairs of a metadata image at `a` (spec/20_memory.md R64): `n` of them, each symbol at least `low` and above the one
before, each frequency nonzero (R124); `none` where the image is malformed. `low` is prev + 1, so it starts at 0. -/
def readPairs (m : Memory) : Nat → Nat → Nat → Option (List (Byte × Word))
  | 0, _, _ => some []
  | n + 1, a, low =>
    let sym := Memory.read m a
    let w := memRead m (a + 1) 4
    if sym.toNat < low then none
    else if w = 0 then none
    else (readPairs m n (a + 5) (sym.toNat + 1)).map (fun ps => (sym, BitVec.ofNat 32 w) :: ps)

/-- HT_LOADMETA (R124). Every check passes before FREQ is written. -/
def execHtLoadmeta (s : State) : Result :=
  let a := s.srcAddr.toNat
  let n := memRead s.dmem a 4
  if !srcOK s then raise .address s
  else if s.srcLen.toNat < 4 then raise .format s
  else if 256 < n then raise .format s
  else if s.srcLen.toNat < 4 + 5 * n then raise .format s
  else
    match readPairs s.dmem n (a + 4) 0 with
    | none => raise .format s
    | some ps => finish (setFreq (tableOf 0 ps) (BitVec.ofNat 32 n) s)

/-- The (symbol, frequency) pairs of the metadata image, in ascending symbol order (R125). -/
def metaPairs (freq : Vector Word 256) : List Byte :=
  (symbols freq).flatMap (fun b => b :: leBytes 4 (entry freq b).toNat)

/-- The metadata image (R64, R125). -/
def metaImage (nsym : Word) (freq : Vector Word 256) : List Byte := leBytes 4 nsym.toNat ++ metaPairs freq

/-- HT_STOREMETA (R125). The whole image fits DST, as NSYM counts the symbols (R36); in a state where it does not, which no
run reaches, no byte outside DST is written (spec/20_memory.md R71). -/
def execHtStoremeta (s : State) : Result :=
  let size := 4 + 5 * s.nsym.toNat
  if !dstOK s then raise .address s
  else if s.dstCap.toNat < size then raise .capacity s
  else finish (putOutput s.dstAddr.toNat ((metaImage s.nsym s.freq).take s.dstCap.toNat) (BitVec.ofNat 32 size) s)

end Sys2Proof.Machine
end

