-- ==== Sys2Proof/Machine/HuffmanCodec.lean ====
section
/-! DEFINITION. The Huffman encoder HE_ENCODE (spec/42_huffman_encoder.md) and the Huffman decoder HD_DECODE
(spec/43_huffman_decoder.md). SRC and DST do not overlap when either runs, so SRC is read once before DST is written; the
order of accesses inside a command is not observable (U18, log entry 11). -/

namespace Sys2Proof.Machine

/-! ### HE_ENCODE -/

/-- The loop of R140 over the bytes of SRC: NOSYM before CAPACITY, then AppendBit for each bit of the code. -/
def encodeLoop : List Byte → State → Except ErrCode State
  | [], s => .ok s
  | b :: bs, s =>
    let c := entry s.code b
    if c = [] then .error .nosym
    else if 8 * s.wcap.toNat < s.wpos.toNat + c.length then .error .capacity
    else encodeLoop bs (appendBits s c)

/-- What a run error of HE_ENCODE leaves unspecified (spec/60_exceptions.md R184): DMEM[DST], WBASE, WCAP, WPOS, PBUF, BITCNT,
OUT_LEN, each a free value. Everything else is as before the command. -/
def havocEncode (s : State) : State :=
  let t := havocDmem s.dstAddr.toNat s.dstCap.toNat s
  { t with
    wbase := Config.freeWord t.draws
    wcap := Config.freeWord (t.draws + 1)
    wpos := Config.freeDWord (t.draws + 2)
    pbuf := Config.freeByte (t.draws + 3)
    bitcnt := Config.freeDWord (t.draws + 4)
    outLen := Config.freeWord (t.draws + 5)
    draws := t.draws + 6 }

/-- HE_ENCODE (R140). -/
def execHeEncode (s : State) : Result :=
  if !srcOK s || !dstOK s then raise .address s
  else if srcDstOverlap s then raise .validation s
  else if !s.treeValid then raise .state s
  else if emptyInput s then raise .empty s
  else
    match encodeLoop (srcBytes s) (openWriter s.dstAddr s.dstCap s) with
    | .error c => raise c (havocEncode s)
    | .ok t => finish (flushWriter t)

/-! ### HD_DECODE -/

/-- How the walk of R150 ends: the bytes emitted, a run error, or (in a state no run reaches) an index that names no node. -/
inductive WalkEnd where
  | out (bytes : List Byte)
  | error (c : ErrCode)
  | noNode (index : Nat)
  deriving DecidableEq, Repr

/-- One more byte emitted before the rest of the walk. -/
def WalkEnd.emit (b : Byte) : WalkEnd → WalkEnd
  | .out bs => .out (b :: bs)
  | .error c => .error c
  | .noNode i => .noNode i

/-- The walk of R150 with a one-symbol tree, whose only code is "0"; `room` is what DST can still take. -/
def walkLeaf (sym : Byte) : List Bool → Nat → WalkEnd
  | [], _ => .out []
  | bit :: bits, room =>
    if bit then .error .format
    else
      match room with
      | 0 => .error .capacity
      | room + 1 => (walkLeaf sym bits room).emit sym

/-- The walk of R150 with an internal root, at node `cur`; `room` is what DST can still take. -/
def walkTree (nodes : List Node) (root : Nat) : List Bool → Nat → Nat → WalkEnd
  | [], cur, _ => if cur = root then .out [] else .error .format
  | bit :: bits, cur, room =>
    match nodes[cur]? with
    | none => .noNode cur
    | some (.leaf _ _) => .noNode cur
    | some (.internal _ l r) =>
      let next := if bit then r else l
      match nodes[next]? with
      | none => .noNode next
      | some (.internal _ _ _) => walkTree nodes root bits next room
      | some (.leaf _ sym) =>
        match room with
        | 0 => .error .capacity
        | room + 1 => (walkTree nodes root bits root room).emit sym

/-- The decoding of a bit sequence with a tree (R150): nothing to walk when there is no root. -/
def decodeBits (nodes : List Node) (root : Option Nat) (bits : List Bool) (room : Nat) : WalkEnd :=
  match root with
  | none => .out []
  | some r =>
    match nodes[r]? with
    | none => if bits = [] then .out [] else .noNode r
    | some (.leaf _ sym) => walkLeaf sym bits room
    | some (.internal _ _ _) => walkTree nodes r bits r room

/-- What a run error of HD_DECODE leaves unspecified (R184): DMEM[DST], RBASE, RLIM, RDPOS, OUT_LEN, each a free value. -/
def havocDecode (s : State) : State :=
  let t := havocDmem s.dstAddr.toNat s.dstCap.toNat s
  { t with
    rbase := Config.freeWord t.draws
    rlim := Config.freeDWord (t.draws + 1)
    rdpos := Config.freeDWord (t.draws + 2)
    outLen := Config.freeWord (t.draws + 3)
    draws := t.draws + 4 }

/-- HD_DECODE (R150). After success all of the BITCNT bits are consumed, so RDPOS = RLIM = BITCNT. -/
def execHdDecode (s : State) : Result :=
  if !srcOK s || !dstOK s then raise .address s
  else if srcDstOverlap s then raise .validation s
  else if !s.treeValid then raise .state s
  else if s.srcLen.toNat < ceil8 s.bitcnt.toNat then raise .format s
  else if s.root = none ∧ 0 < s.bitcnt.toNat then raise .format s
  else
    match decodeBits s.tree s.root (streamBits s.dmem s.srcAddr.toNat 0 s.bitcnt.toNat) s.dstCap.toNat with
    | .error c => raise c (havocDecode s)
    | .noNode i => .fault (.noSuchNode i)
    | .out bytes =>
      let t := putOutput s.dstAddr.toNat bytes (BitVec.ofNat 32 bytes.length) (openReader s.srcAddr s.bitcnt s)
      finish { t with rdpos := s.bitcnt }

end Sys2Proof.Machine
end

