-- ==== Sys2Proof/Machine/Lz77.lean ====
section
/-! DEFINITION. The LZ77 matcher LZ_MATCH (spec/44_lz77_matcher.md): LongestMatch and the greedy tokenizer. SRC and DST do not
overlap when it runs, so the tokens are a function of SRC, LZ_WINDOW and LZ_LOOKAHEAD alone (R164, log entry 11). -/

namespace Sys2Proof.Machine

/-- A token (spec/20_memory.md R65): offset, length and the literal, which may be "none". -/
structure Token where
  off : Nat
  len : Nat
  lit : Option Byte
  deriving DecidableEq, Repr

/-- The inner loop of R161: how many bytes from pos + l on equal those `off` before them, at most `fuel` more. -/
def matchFrom (byte : Nat → Byte) (pos off : Nat) : Nat → Nat → Nat
  | 0, l => l
  | fuel + 1, l => if byte (pos - off + l) = byte (pos + l) then matchFrom byte pos off fuel (l + 1) else l

/-- The match length at offset `off` (R161): L < K and pos + L < n bound the loop. -/
def matchLen (byte : Nat → Byte) (n k pos off : Nat) : Nat := matchFrom byte pos off (min k (n - pos)) 0

/-- The outer loop of R161 over the offsets 1 .. w in ascending order: (best_off, best_len). Only a strictly longer match
replaces the best. -/
def longestUpTo (byte : Nat → Byte) (n k pos : Nat) : Nat → Nat × Nat
  | 0 => (0, 0)
  | off + 1 =>
    let best := longestUpTo byte n k pos off
    let l := matchLen byte n k pos (off + 1)
    if best.2 < l then (off + 1, l) else best

/-- LongestMatch(pos) (R161): (best_off, best_len). -/
def longestMatch (byte : Nat → Byte) (n w k pos : Nat) : Nat × Nat := longestUpTo byte n k pos (min w pos)

/-- The loop of R160 from input position pos on. Each token covers at least one byte, so `fuel` = n is enough. -/
def tokenizeFrom (byte : Nat → Byte) (n w k : Nat) : Nat → Nat → List Token
  | 0, _ => []
  | fuel + 1, pos =>
    if n ≤ pos then []
    else
      let best := longestMatch byte n w k pos
      let lit := if pos + best.2 < n then some (byte (pos + best.2)) else none
      ⟨best.1, best.2, lit⟩ :: tokenizeFrom byte n w k fuel (pos + best.2 + 1)

/-- The tokens of an input of n bytes (R160). -/
def tokenize (byte : Nat → Byte) (n w k : Nat) : List Token := tokenizeFrom byte n w k n 0

/-- The 10-byte record of a token (R65). -/
def Token.record (t : Token) : List Byte :=
  leBytes 4 t.off ++ leBytes 4 t.len ++
    match t.lit with
    | some b => [1, b]
    | none => [0, 0]

/-- The tokens of the input that SRC, LZ_WINDOW and LZ_LOOKAHEAD name. -/
def srcTokens (s : State) : List Token := tokenize (srcByte s) s.srcLen.toNat s.lzWindow.toNat s.lzLookahead.toNat

/-- What a run error of LZ_MATCH leaves unspecified (spec/60_exceptions.md R184): DMEM[DST], TOKCNT, OUT_LEN, each a free
value. -/
def havocMatch (s : State) : State :=
  let t := havocDmem s.dstAddr.toNat s.dstCap.toNat s
  { t with
    tokcnt := Config.freeWord t.draws
    outLen := Config.freeWord (t.draws + 1)
    draws := t.draws + 2 }

/-- LZ_MATCH (R160). CAPACITY is raised at the first record that does not fit, which there is exactly when all do not fit. -/
def execLzMatch (s : State) : Result :=
  if !srcOK s || !dstOK s then raise .address s
  else if srcDstOverlap s then raise .validation s
  else if s.params.windowMax < s.lzWindow.toNat ∨ s.params.lookaheadMax < s.lzLookahead.toNat then raise .validation s
  else
    let toks := srcTokens s
    if s.dstCap.toNat < 10 * toks.length then raise .capacity (havocMatch s)
    else
      let t := putOutput s.dstAddr.toNat (toks.flatMap Token.record) (BitVec.ofNat 32 (10 * toks.length)) s
      finish { t with tokcnt := BitVec.ofNat 32 toks.length }

end Sys2Proof.Machine
end

