-- ==== Sys2Proof/Machine/Dispatch.lean ====
section
/-! DEFINITION. One arm for each of the twelve commands (spec/30_encoding.md R82). -/

namespace Sys2Proof.Machine

def exec (i : Instr) (s : State) : Host.Outcome State Fault Refusal :=
  match i with
  | .bpWinit => Sys2Proof.Machine.execBpWinit s
  | .bpPut n => Sys2Proof.Machine.execBpPut n s
  | .bpFlush => Sys2Proof.Machine.execBpFlush s
  | .bpRinit => Sys2Proof.Machine.execBpRinit s
  | .bpGet n => Sys2Proof.Machine.execBpGet n s
  | .htCount => Sys2Proof.Machine.execHtCount s
  | .htBuild => Sys2Proof.Machine.execHtBuild s
  | .htLoadmeta => Sys2Proof.Machine.execHtLoadmeta s
  | .htStoremeta => Sys2Proof.Machine.execHtStoremeta s
  | .heEncode => Sys2Proof.Machine.execHeEncode s
  | .hdDecode => Sys2Proof.Machine.execHdDecode s
  | .lzMatch => Sys2Proof.Machine.execLzMatch s

end Sys2Proof.Machine
end

