-- ==== Sys2Proof/Machine/HostAccess.lean ====
section
/-! DEFINITION. What the world outside does to the core: the register block (spec/10_state.md R22 to R39), host accesses (spec/20_memory.md
R67, spec/70_reset_and_hazards.md R220, R221), issue (spec/60_exceptions.md R180, R181), soft reset and power-on reset
(spec/70_reset_and_hazards.md R210, R211), and the host notation (spec/30_encoding.md R87, R88). -/

namespace Sys2Proof.Machine

/-! ### The register map (R22) -/

/-- The registers of the block; the 256-entry windows name their entry. -/
inductive Reg where
  | id | cfgDmemSize | cfgWindowMax | cfgLookaheadMax | ctrl | cmd | status
  | srcAddr | srcLen | dstAddr | dstCap | outLen | bitcntLo | bitcntHi | rdposLo | rdposHi
  | arg | result | lzWindow | lzLookahead | tokcnt | nsym | treeStatus
  | freq (sym : Byte)
  | codelen (sym : Byte)
  | reserved
  deriving DecidableEq, Repr

/-- The registers below 0x060, in the order of their offsets; 0x01C is reserved (R22, R39). -/
def lowRegs : List Reg :=
  [.id, .cfgDmemSize, .cfgWindowMax, .cfgLookaheadMax, .ctrl, .cmd, .status, .reserved,
   .srcAddr, .srcLen, .dstAddr, .dstCap, .outLen, .bitcntLo, .bitcntHi, .rdposLo,
   .rdposHi, .arg, .result, .lzWindow, .lzLookahead, .tokcnt, .nsym, .treeStatus]

/-- The register at a byte offset that is a multiple of 4 (R22, R38, R39). -/
def regAt (offset : BitVec 12) : Reg :=
  let o := offset.toNat
  if o < 0x400 then lowRegs.getD (o / 4) .reserved
  else if o < 0x800 then .freq (BitVec.ofNat 8 ((o - 0x400) / 4))
  else if o < 0xC00 then .codelen (BitVec.ofNat 8 ((o - 0x800) / 4))
  else .reserved

/-- A register access is 32 bits wide and at a multiple of 4 (R67(a)). -/
def regAccessOk (bits : Nat) (offset : BitVec 12) : Bool := decide (bits = 32 ∧ offset.toNat % 4 = 0)

/-- What a register reads while BUSY = 0 (R23 to R39). -/
def readReg (s : State) : Reg → Word
  | .id => Config.idWord
  | .cfgDmemSize => BitVec.ofNat 32 s.params.dmemSize
  | .cfgWindowMax => BitVec.ofNat 32 s.params.windowMax
  | .cfgLookaheadMax => BitVec.ofNat 32 s.params.lookaheadMax
  | .ctrl => ctrlWord s
  | .cmd => 0
  | .status => statusWord s
  | .srcAddr => s.srcAddr
  | .srcLen => s.srcLen
  | .dstAddr => s.dstAddr
  | .dstCap => s.dstCap
  | .outLen => s.outLen
  | .bitcntLo => s.bitcnt.extractLsb' 0 32
  | .bitcntHi => s.bitcnt.extractLsb' 32 32
  | .rdposLo => s.rdpos.extractLsb' 0 32
  | .rdposHi => s.rdpos.extractLsb' 32 32
  | .arg => s.arg
  | .result => s.result
  | .lzWindow => s.lzWindow
  | .lzLookahead => s.lzLookahead
  | .tokcnt => s.tokcnt
  | .nsym => s.nsym
  | .treeStatus => treeStatusWord s
  | .freq b => entry s.freq b
  | .codelen b => (codeLen (entry s.code b)).setWidth 32
  | .reserved => 0

/-- The bits of a register that a read while BUSY = 1 leaves unspecified: VALID and MAXLEN of TREE_STATUS, whose reserved bits
read 0 also then (R37, U11; log entry 20), and every bit of the others. -/
def Reg.freeBits (r : Reg) : Word := if r = .treeStatus then 0x0000FF01 else 0xFFFFFFFF

/-- The registers whose reads are unspecified while BUSY = 1 (R221, U6). -/
def Reg.volatile : Reg → Bool
  | .outLen => true
  | .bitcntLo => true
  | .bitcntHi => true
  | .rdposLo => true
  | .rdposHi => true
  | .result => true
  | .tokcnt => true
  | .nsym => true
  | .treeStatus => true
  | .freq _ => true
  | .codelen _ => true
  | .id => false
  | .cfgDmemSize => false
  | .cfgWindowMax => false
  | .cfgLookaheadMax => false
  | .ctrl => false
  | .cmd => false
  | .status => false
  | .srcAddr => false
  | .srcLen => false
  | .dstAddr => false
  | .dstCap => false
  | .arg => false
  | .lzWindow => false
  | .lzLookahead => false
  | .reserved => false

/-- Issue by a CMD write while idle (R180): the word is latched, and the schedule says how many host operations go before the
core performs it (spec/70_reset_and_hazards.md R225, log entry 4). -/
def issue (w : Word) (s : State) : State :=
  { latch w s with delay := s.schedule.headD 0, schedule := s.schedule.tail }

/-! ### Reset (R210, R211) -/

/-- The DMEM bytes that the command in progress could write: (address, length) (R211, U5). -/
def abandonedRange (s : State) : Nat × Nat :=
  let stream := (s.wbase.toNat, s.wcap.toNat)
  let dst := (s.dstAddr.toNat, s.dstCap.toNat)
  match s.pending with
  | none => (0, 0)
  | some w =>
    match decode w with
    | .illegal _ => (0, 0)
    | .command i =>
      match i with
      | .bpPut _ => stream
      | .bpFlush => stream
      | .htStoremeta => dst
      | .heEncode => dst
      | .hdDecode => dst
      | .lzMatch => dst
      | .bpWinit => (0, 0)
      | .bpRinit => (0, 0)
      | .bpGet _ => (0, 0)
      | .htCount => (0, 0)
      | .htBuild => (0, 0)
      | .htLoadmeta => (0, 0)

/-- How many bytes of a range at `a` exist (log entry 10). -/
def bytesThatExist (size a n : Nat) : Nat := min n (size - a)

/-- Every register, table and hidden state at its value of R49; DMEM, the parameters and the model's own record of the world
outside stay. -/
def resetKeeping (s : State) : State :=
  { State.reset with
    params := s.params
    dmem := s.dmem
    draws := s.draws
    hostOps := s.hostOps
    schedule := s.schedule
    seen := s.seen }

/-- Soft reset (R211): a command in progress is abandoned and the bytes it could write are unspecified. -/
def softReset (s : State) : State :=
  let r := abandonedRange s
  resetKeeping (havocDmem r.1 (bytesThatExist s.params.dmemSize r.1 r.2) s)

/-- Power-on reset (R210): all of DMEM is unspecified, each byte drawn once (U4). -/
def powerOnReset (s : State) : State := resetKeeping (havocDmem 0 s.params.dmemSize { s with dmem := [] })

/-! ### Register writes -/

/-- A register write while BUSY = 0 (R23 to R39). Writes to read-only and reserved registers are ignored. -/
def writeRegIdle (s : State) (r : Reg) (v : Word) : State :=
  match r with
  | .ctrl => if v.getLsbD 0 then softReset s else { s with emptyErr := v.getLsbD 1 }
  | .cmd => issue v s
  | .srcAddr => { s with srcAddr := v }
  | .srcLen => { s with srcLen := v }
  | .dstAddr => { s with dstAddr := v }
  | .dstCap => { s with dstCap := v }
  | .bitcntLo => { s with bitcnt := s.bitcnt.extractLsb' 32 32 ++ v }
  | .bitcntHi => { s with bitcnt := v ++ s.bitcnt.extractLsb' 0 32 }
  | .arg => { s with arg := v }
  | .lzWindow => { s with lzWindow := v }
  | .lzLookahead => { s with lzLookahead := v }
  | .id => s
  | .cfgDmemSize => s
  | .cfgWindowMax => s
  | .cfgLookaheadMax => s
  | .status => s
  | .outLen => s
  | .rdposLo => s
  | .rdposHi => s
  | .result => s
  | .tokcnt => s
  | .nsym => s
  | .treeStatus => s
  | .freq _ => s
  | .codelen _ => s
  | .reserved => s

/-- A register write while BUSY = 1 (R181, R221): only CMD, which sets OVR, and CTRL with SRST = 1, which resets, do
anything. -/
def writeRegBusy (s : State) (r : Reg) (v : Word) : State :=
  if r = .cmd then { s with status := { s.status with ovr := true } }
  else if r = .ctrl ∧ v.getLsbD 0 then softReset s
  else s

/-- A register write (R221). -/
def writeReg (s : State) (r : Reg) (v : Word) : State := if s.busy then writeRegBusy s r v else writeRegIdle s r v

/-! ### Host operations -/

/-- The host has seen the value of a read. -/
def see (x : HostRead) (s : State) : State := { s with seen := x :: s.seen }

/-- A register read: while BUSY = 1 the registers of U6 read a free value (R221) but for the reserved bits (log entry 20). -/
def observeReg (offset : BitVec 12) (s : State) : State :=
  let r := regAt offset
  if s.busy && r.volatile then { see (.reg offset (Config.freeWord s.draws &&& r.freeBits)) s with draws := s.draws + 1 }
  else see (.reg offset (readReg s r)) s

/-- The offset of STATUS (R22). -/
def statusOffset : BitVec 12 := 0x018

/-- One host operation (R67, R87). WAIT reads STATUS and stays the host's next operation while BUSY = 1. -/
def hostOp (op : HostOp) (s : State) : Result :=
  match op with
  | .wr bits offset v =>
    if regAccessOk bits offset then .next (writeReg s (regAt offset) v) else .refused .hostRegisterAccess
  | .rd bits offset => if regAccessOk bits offset then .next (observeReg offset s) else .refused .hostRegisterAccess
  | .memw a b =>
    if s.busy then .refused .hostDmemWhileBusy
    else if s.params.dmemSize ≤ a then .fault (.noDmemByte a)
    else .next { s with dmem := Memory.write s.dmem a b }
  | .memr a =>
    if s.busy then .refused .hostDmemWhileBusy
    else if s.params.dmemSize ≤ a then .fault (.noDmemByte a)
    else .next (see (.mem a (Memory.read s.dmem a)) s)
  | .wait =>
    let t := observeReg statusOffset s
    if s.busy then .next { t with hostOps := .wait :: t.hostOps } else .next t
  | .powerOn => .next (powerOnReset s)

/-- The host's turn: its oldest operation leaves the queue and is performed. While the core is busy that is one of the
operations the schedule lets go first. With nothing to do, nothing changes (spec/60_exceptions.md R198). -/
def hostTurn (s : State) : Result :=
  match s.hostOps with
  | [] => .next s
  | op :: rest => hostOp op { s with hostOps := rest, delay := s.delay - 1 }

/-- The core goes next: no host operation is to go first, or there is none (R225, log entry 4). -/
def coreMoves (s : State) : Bool := decide (s.delay = 0) || s.hostOps.isEmpty

/-! ### Host notation (spec/30_encoding.md R87, R88) -/

/-- `WR <REG>, v` and `RD <REG>` by offset (R87). -/
def wrOp (offset : BitVec 12) (v : Word) : HostOp := .wr 32 offset v
def rdOp (offset : BitVec 12) : HostOp := .rd 32 offset

/-- `MEMW a, b0 b1 ...` (R87). -/
def memwOps (a : Nat) : List Byte → List HostOp
  | [] => []
  | b :: bs => .memw a b :: memwOps (a + 1) bs

/-- `MEMR a, n` (R87). -/
def memrOps (a n : Nat) : List HostOp := (List.range n).map (fun i => .memr (a + i))

/-- A host write of the n-byte value v: its bytes in little-endian order (R67(b), U9). -/
def memwWideOps (a n v : Nat) : List HostOp := memwOps a (leBytes n v)

/-- The byte that a host read of DMEM returned. -/
def HostRead.byte : HostRead → Option Byte
  | .reg _ _ => none
  | .mem _ b => some b

/-- The value of a host read of n bytes, which is the `memrOps` of its bytes: the n newest reads, the first of them least
significant (R67(b), U9). -/
def wideValue (n : Nat) (seen : List HostRead) : Nat := leValue ((seen.take n).reverse.filterMap HostRead.byte)

/-- `CMD <MNEMONIC>[, N]` (R87). -/
def cmdOp (i : Instr) : HostOp := wrOp 0x014 (encode i)

/-- `DO <MNEMONIC>[, N]` (R88). -/
def doOps (i : Instr) : List HostOp := [cmdOp i, .wait]

/-- `SETSRC a, l` (R88). -/
def setSrcOps (a l : Word) : List HostOp := [wrOp 0x020 a, wrOp 0x024 l]

/-- `SETDST a, c` (R88). -/
def setDstOps (a c : Word) : List HostOp := [wrOp 0x028 a, wrOp 0x02C c]

/-- `SETBITS b` (R88). -/
def setBitsOps (b : DWord) : List HostOp := [wrOp 0x034 (b.extractLsb' 0 32), wrOp 0x038 (b.extractLsb' 32 32)]

/-- `PUT N, v` (R88). -/
def putOps (n : Byte) (v : Word) : List HostOp := wrOp 0x044 v :: doOps (.bpPut n)

/-- `GET N` (R88). -/
def getOps (n : Byte) : List HostOp := doOps (.bpGet n) ++ [rdOp 0x048]

/-- `HUFFENC` (R88), with the caller's writes of SRC and DST before HT_COUNT and before HE_ENCODE. -/
def huffEncOps (beforeCount beforeEncode : List HostOp) : List HostOp :=
  beforeCount ++ doOps .htCount ++ doOps .htBuild ++ doOps .htStoremeta ++ beforeEncode ++ doOps .heEncode

/-- `HUFFDEC` (R88), with the caller's writes of SRC, DST and BITCNT. R88 does not say where they stand: they may stand before
HT_LOADMETA, for the image, and before HD_DECODE, for the packed bits (DESIGN CHOICE, log entry 19). -/
def huffDecOps (beforeLoad beforeDecode : List HostOp) : List HostOp :=
  beforeLoad ++ doOps .htLoadmeta ++ doOps .htBuild ++ beforeDecode ++ doOps .hdDecode

end Sys2Proof.Machine
end

