-- ==== Sys2Proof/Machine/Step.lean ====
section
/-! DEFINITION. One step of the core and its host (spec/00_scope.md R18, spec/60_exceptions.md R180, spec/70_reset_and_hazards.md
R225): the core performs PENDING as one atomic step, or the host performs one operation. -/

namespace Sys2Proof.Machine

/-- The core performs command word w: the decoded command, or ILLEGAL, which changes STATUS only (spec/30_encoding.md R83). -/
def runWord (w : Word) (s : State) : Host.Outcome State Fault Refusal :=
  match decode w with
  | .command i => exec i s
  | .illegal _ => raise .illegal s

/-- One step. While BUSY = 1 the core goes unless the schedule lets a host operation go first; while BUSY = 0 the host goes. -/
def step (s : State) : Host.Outcome State Fault Refusal :=
  match s.pending with
  | some w => if coreMoves s then runWord w s else hostTurn s
  | none => hostTurn s

/-- The command word w issued in s (spec/60_exceptions.md R180), with the core to go next, so that the next step performs it
(log entry 13). -/
def State.withFetchWord (s : State) (nbits w : Nat) : State :=
  { latch (BitVec.ofNat 32 (w % 2 ^ nbits)) s with delay := 0 }

end Sys2Proof.Machine
end

