-- ==== Sys2Proof/Safety.lean ====
section
/-! DEFINITION. The terms the claims use: what an error leaves unchanged, what a command may write and read, the invariants of
the machine (spec/10_state.md R36, R42, R45, R46; spec/20_memory.md R60), sequences of commands with the host's register
writes between them, and the replay of tokens (spec/44_lz77_matcher.md R163). -/

namespace Sys2Proof.Machine

/-! ### Frames -/

/-- Nothing but STATUS changed (spec/60_exceptions.md R183); PENDING is gone, as after every completion (R182). -/
def OnlyStatus (s t : State) : Prop := t = { s with status := t.status, pending := none }

/-- Every byte outside the `n` bytes at `a` reads in `m'` as it did in `m`. -/
def SameOutside (m m' : Memory) (a n : Nat) : Prop := ∀ x, x < a ∨ a + n ≤ x → Memory.read m' x = Memory.read m x

/-- Every byte of the `n` bytes at `a` reads in `m'` as it did in `m`. -/
def SameInside (m m' : Memory) (a n : Nat) : Prop := ∀ x, a ≤ x → x < a + n → Memory.read m' x = Memory.read m x

/-- The destination range of a command (spec/20_memory.md R71), empty for a command that writes no DMEM byte (spec/30_encoding.md
R86): (address, length). -/
def destRange (i : Instr) (s : State) : Nat × Nat :=
  match i with
  | .bpPut _ => (s.wbase.toNat, s.wcap.toNat)
  | .bpFlush => (s.wbase.toNat, s.wcap.toNat)
  | .htStoremeta => (s.dstAddr.toNat, s.dstCap.toNat)
  | .heEncode => (s.dstAddr.toNat, s.dstCap.toNat)
  | .hdDecode => (s.dstAddr.toNat, s.dstCap.toNat)
  | .lzMatch => (s.dstAddr.toNat, s.dstCap.toNat)
  | .bpWinit => (0, 0)
  | .bpRinit => (0, 0)
  | .bpGet _ => (0, 0)
  | .htCount => (0, 0)
  | .htBuild => (0, 0)
  | .htLoadmeta => (0, 0)

/-- The range a command may read (R71), empty for a command that reads no DMEM byte (R86): (address, length). -/
def readRange (i : Instr) (s : State) : Nat × Nat :=
  match i with
  | .bpGet _ => (s.rbase.toNat, ceil8 s.rlim.toNat)
  | .htCount => (s.srcAddr.toNat, s.srcLen.toNat)
  | .htLoadmeta => (s.srcAddr.toNat, s.srcLen.toNat)
  | .heEncode => (s.srcAddr.toNat, s.srcLen.toNat)
  | .hdDecode => (s.srcAddr.toNat, s.srcLen.toNat)
  | .lzMatch => (s.srcAddr.toNat, s.srcLen.toNat)
  | .bpWinit => (0, 0)
  | .bpPut _ => (0, 0)
  | .bpFlush => (0, 0)
  | .bpRinit => (0, 0)
  | .htBuild => (0, 0)
  | .htStoremeta => (0, 0)

/-- The start checks of HD_DECODE on its bit count fail (spec/43_huffman_decoder.md R150). -/
abbrev DecodeStartFormat (s : State) : Prop :=
  s.srcLen.toNat < ceil8 s.bitcnt.toNat ∨ (s.root = none ∧ 0 < s.bitcnt.toNat)

/-- The completion of a command with code c is one of the start errors of R183. -/
abbrev StartError (i : Instr) (s : State) (c : ErrCode) : Prop :=
  match c with
  | .none => False
  | .illegal => True
  | .address => True
  | .validation => True
  | .state => True
  | .empty => True
  | .nosym => False
  | .format => i ≠ .hdDecode ∨ DecodeStartFormat s
  | .capacity => i = .htStoremeta ∨ (∃ n : Byte, i = .bpPut n)

/-! ### Invariants -/

/-- DMEM is in its canonical form and lists only addresses that exist (R60). -/
def DmemOk (s : State) : Prop := Memory.wf s.dmem ∧ Memory.below s.dmem s.params.dmemSize

/-- NSYM counts the symbols that occur (R36). -/
def NsymOk (s : State) : Prop := s.nsym.toNat = symbolCount s.freq

/-- NSYM is right; a valid tree is the tree of FREQ with its codes, and without a valid tree there are no nodes and no codes
(R36, R42, R43). -/
def TablesOk (s : State) : Prop :=
  NsymOk s ∧
  (s.treeValid = true → s.tree = buildNodes s.freq ∧ s.root = rootOf s.tree ∧ s.code = codesOf s.tree s.root) ∧
  (s.treeValid = false → s.tree = [] ∧ s.root = none ∧ s.code = Vector.replicate 256 [])

/-- The writer's stream lies in DMEM, its position within its capacity, and PBUF holds no bit above the pending ones (R45,
R71). -/
def WriterOk (s : State) : Prop :=
  s.wbase.toNat + s.wcap.toNat ≤ s.params.dmemSize ∧ s.wpos.toNat ≤ 8 * s.wcap.toNat ∧
  s.pbuf.toNat < 2 ^ (s.wpos.toNat % 8)

/-- The reader's stream lies in DMEM, and its position is within it (R46). -/
def ReaderOk (s : State) : Prop :=
  s.rbase.toNat + ceil8 s.rlim.toNat ≤ s.params.dmemSize ∧ s.rdpos.toNat ≤ s.rlim.toNat

/-- The writer holds the bit sequence `bits`: its full bytes are in DMEM, and PBUF holds exactly the last (WPOS mod 8) bits,
the earliest most significant (R45, R62). -/
def StreamHolds (s : State) (bits : List Bool) : Prop :=
  s.wpos.toNat = bits.length ∧
  (∀ i, i < bits.length / 8 → Memory.read s.dmem (s.wbase.toNat + i) = packByte bits i) ∧
  s.pbuf.toNat = bitsValue (bits.drop (8 * (bits.length / 8)))

/-! ### Sequences of commands -/

/-- A sequence of successful `PUT N, v` (spec/30_encoding.md R88): ARG written, then BP_PUT; `none` if one does not succeed. -/
def runPuts : List (Byte × Word) → State → Option State
  | [], s => some s
  | p :: ps, s =>
    match exec (.bpPut p.1) { s with arg := p.2 } with
    | .next t => if t.status.errcode = .none then runPuts ps t else none
    | .fault _ => none
    | .refused _ => none

/-- A sequence of successful `GET N` (R88): BP_GET, then RESULT read; `none` if one does not succeed. -/
def runGets : List Byte → State → Option (List Word × State)
  | [], s => some ([], s)
  | n :: ns, s =>
    match exec (.bpGet n) s with
    | .next t => if t.status.errcode = .none then (runGets ns t).map (fun r => (t.result :: r.1, r.2)) else none
    | .fault _ => none
    | .refused _ => none

/-- The bits of a sequence of PUTs, in order. -/
def putBits (ps : List (Byte × Word)) : List Bool := ps.flatMap (fun p => argBits p.1.toNat p.2)

/-- The values of consecutive groups of bits, as long as the counts say, the first bit of each most significant (R105). -/
def chunkValues : List Byte → List Bool → List Word
  | [], _ => []
  | n :: ns, bits => BitVec.ofNat 32 (bitsValue (bits.take n.toNat)) :: chunkValues ns (bits.drop n.toNat)

/-! ### Images and tokens -/

/-- The metadata image of (symbol, frequency) pairs (spec/20_memory.md R64). -/
def imageOf (ps : List (Byte × Word)) : List Byte :=
  leBytes 4 ps.length ++ ps.flatMap (fun p => p.1 :: leBytes 4 p.2.toNat)

/-- SRC begins with the image of `ps`, which is strictly ascending and has no zero frequency (R64). -/
def ImageAtSrc (s : State) (ps : List (Byte × Word)) : Prop :=
  ps.Pairwise (fun p q => p.1.toNat < q.1.toNat) ∧ (∀ p ∈ ps, p.2 ≠ 0) ∧ (imageOf ps).length ≤ s.srcLen.toNat ∧
  Memory.readBytes s.dmem s.srcAddr.toNat (imageOf ps).length = imageOf ps

/-- `len` bytes copied one at a time from `off` back in the growing output (R163). -/
def copyBack (off : Nat) : Nat → List Byte → List Byte
  | 0, out => out
  | len + 1, out => copyBack off len (out ++ [out.getD (out.length - off) 0])

/-- Replay(tokens) (R163), after `out`. -/
def replay : List Token → List Byte → List Byte
  | [], out => out
  | t :: ts, out => replay ts (copyBack t.off t.len out ++ t.lit.toList)

/-- `len` bytes at input position pos equal those `off` before them, within the lookahead k and the input's n bytes (R161). -/
def IsMatch (byte : Nat → Byte) (n k pos off len : Nat) : Prop :=
  len ≤ k ∧ pos + len ≤ n ∧ ∀ j, j < len → byte (pos - off + j) = byte (pos + j)

/-- The input positions a token list covers before its i-th token (R162). -/
def tokenPos (ts : List Token) (i : Nat) : Nat := ((ts.take i).map (fun t => t.len + 1)).sum

end Sys2Proof.Machine
end

