-- ==== Sys2Proof/Certificates/Slice0/Obligations.lean ====
section
/-! DEFINITION. The statements for the provers, from the numbered rules of spec/. Each docstring names the rules it formalises. -/

open Sys2Proof Sys2Proof.Machine

/-! ### Encoding (spec/30_encoding.md) -/

/-- Decoding the word of a command gives the command back with its N, for every N; a term with an N outside 1..32 has a word
that is ILLEGAL (R80, R82, R83). -/
def Obligations.DecodeInvertsEncode : Prop :=
  ∀ i : Instr, decode (encode i) = if i.wf then .command i else .illegal .bitCount

/-- A word that decodes to a command is that command's word, and the command is well-formed: each command has one word
(R82, R83, R85). -/
def Obligations.DecodedWordIsTheEncoding : Prop :=
  ∀ (w : Word) (i : Instr), decode w = .command i → encode i = w ∧ i.wf = true

/-- The illegal words are exactly those R84 lists. -/
def Obligations.IllegalWordsAreThoseListed : Prop :=
  ∀ w : Word, (∃ why, decode w = .illegal why) ↔
    (w.toNat / 2 ^ 16 ≠ 0 ∨
     (w.toNat % 2 ^ 8 ∉ [0x01, 0x02, 0x03, 0x04, 0x05, 0x10, 0x11, 0x12, 0x13, 0x20, 0x30, 0x40]) ∨
     (w.toNat % 2 ^ 8 ∈ [0x02, 0x05] ∧ (w.toNat / 2 ^ 8 % 2 ^ 8 = 0 ∨ 32 < w.toNat / 2 ^ 8 % 2 ^ 8)) ∨
     (w.toNat % 2 ^ 8 ∈ [0x01, 0x03, 0x04, 0x10, 0x11, 0x12, 0x13, 0x20, 0x30, 0x40] ∧ w.toNat / 2 ^ 8 % 2 ^ 8 ≠ 0))

/-- Words written out from R82's table decode to the commands they stand for. -/
def Obligations.TableWordsDecode : Prop :=
  decode 0x00000001 = .command .bpWinit ∧ decode 0x00000302 = .command (.bpPut 3) ∧
  decode 0x00002002 = .command (.bpPut 32) ∧ decode 0x00000405 = .command (.bpGet 4) ∧
  decode 0x00000013 = .command .htStoremeta ∧ decode 0x00000020 = .command .heEncode ∧
  decode 0x00000030 = .command .hdDecode ∧ decode 0x00000040 = .command .lzMatch

/-! ### The step, issue and completion (spec/60_exceptions.md, spec/70_reset_and_hazards.md) -/

/-- When the pending word decodes to a command and the core goes next, the step is that command's meaning at that state; when
it decodes to nothing, it completes with ILLEGAL; when the host goes first, the step is the host's oldest operation. Who goes
next is the model's choice (log entry 4). -/
def Obligations.StepRunsTheDecodedCommand : Prop :=
  ∀ (s : State) (w : Word), s.pending = some w →
    (∀ i, decode w = .command i → s.delay = 0 ∨ s.hostOps = [] → step s = exec i s) ∧
    (∀ why, decode w = .illegal why → s.delay = 0 ∨ s.hostOps = [] → step s = .next (complete .illegal s)) ∧
    (∀ op ops, s.hostOps = op :: ops → 0 < s.delay →
      step s = hostOp op { s with hostOps := ops, delay := s.delay - 1 })

/-- A command word put where the next step performs it is performed by the next step, in the state of R180
(log entry 13). -/
def Obligations.FetchedWordRunsNext : Prop :=
  ∀ (s : State) (i : Instr), i.wf = true →
    step (s.withFetchWord 32 (encode i).toNat) = exec i { latch (encode i) s with delay := 0 }

/-- An ILLEGAL word completes with error code ILLEGAL and changes no state other than STATUS (R83, R84). -/
def Obligations.IllegalWordChangesOnlyStatus : Prop :=
  ∀ (s : State) (w : Word), s.pending = some w → (∀ i, decode w ≠ .command i) → s.delay = 0 ∨ s.hostOps = [] →
    ∃ t, step s = .next t ∧ OnlyStatus s t ∧ t.status.errcode = .illegal ∧ t.status.done = true ∧ t.busy = false ∧
      t.status.err = true ∧ t.status.anyerr = true ∧ t.status.ovr = s.status.ovr ∧ t.status.lastop = s.status.lastop

/-- Completion (R182): whatever a command does, STATUS records it the same way; and where each field stands in the word the host
reads (R27), in every state, with the numbers of the error codes (R185). -/
def Obligations.CompletionRecordsTheCode : Prop :=
  (∀ (i : Instr) (s t : State), exec i s = .next t →
    t.busy = false ∧ t.status.done = true ∧ (t.status.err = true ↔ t.status.errcode.code ≠ 0) ∧
    (t.status.anyerr = true ↔ s.status.anyerr = true ∨ t.status.errcode.code ≠ 0) ∧
    t.status.ovr = s.status.ovr ∧ t.status.lastop = s.status.lastop) ∧
  (∀ s : State,
    (statusWord s).getLsbD 0 = s.busy ∧ (statusWord s).getLsbD 1 = s.status.done ∧ (statusWord s).getLsbD 2 = s.status.err ∧
    (statusWord s).getLsbD 3 = s.status.anyerr ∧ (statusWord s).getLsbD 4 = s.status.ovr ∧
    (statusWord s).extractLsb' 5 3 = 0 ∧ (statusWord s).extractLsb' 8 4 = s.status.errcode.code ∧
    (statusWord s).extractLsb' 12 4 = 0 ∧ (statusWord s).extractLsb' 16 8 = s.status.lastop ∧
    (statusWord s).extractLsb' 24 8 = 0) ∧
  ErrCode.none.code = 0 ∧ ErrCode.illegal.code = 1 ∧ ErrCode.address.code = 2 ∧ ErrCode.validation.code = 3 ∧
  ErrCode.state.code = 4 ∧ ErrCode.format.code = 5 ∧ ErrCode.capacity.code = 6 ∧ ErrCode.nosym.code = 7 ∧
  ErrCode.empty.code = 8

/-- Issue (R180): a CMD write of w while BUSY = 0. ANYERR and OVR keep their values, and no other state of the core changes.
The delay and the schedule are the model's own (log entry 4). -/
def Obligations.CmdWriteIssuesTheWord : Prop :=
  ∀ (s : State) (w : Word), s.busy = false →
    ∃ t, hostOp (.wr 32 0x014 w) s = .next t ∧
      t = { s with
        pending := some w
        status := ⟨false, false, s.status.anyerr, s.status.ovr, .none, BitVec.ofNat 8 w.toNat⟩
        delay := t.delay
        schedule := t.schedule } ∧
      t.busy = true ∧ statusWord t = BitVec.ofNat 32
        (1 + 8 * s.status.anyerr.toNat + 16 * s.status.ovr.toNat + 2 ^ 16 * (w.toNat % 2 ^ 8))

/-- Issue while busy (R181): the write is ignored and sets OVR, and OVR stays 1 until a reset, whatever the step; and so does
ANYERR (R27, R191). Only a step in which the host goes, and resets, is left out; that the host goes when no command is pending or
the delay is not 0 is the model's choice (log entry 4). -/
def Obligations.CmdWriteWhileBusySetsOvr : Prop :=
  (∀ (s : State) (w : Word), s.busy = true →
    hostOp (.wr 32 0x014 w) s = .next { s with status := { s.status with ovr := true } }) ∧
  (∀ s t : State, step s = .next t →
    ((s.pending = none ∨ 0 < s.delay) ∧
      ((∃ (v : Word) (ops : List HostOp), v.getLsbD 0 = true ∧ s.hostOps = .wr 32 0x010 v :: ops) ∨
        (∃ ops, s.hostOps = .powerOn :: ops))) ∨
    ((s.status.ovr = true → t.status.ovr = true) ∧ (s.status.anyerr = true → t.status.anyerr = true)))

/-- Registers while busy (R221): the writes that are ignored, the reads that are current, and the reads that are unspecified
(a free value; the statement does not depend on which). The reserved bits of TREE_STATUS read 0 also then (R37; that R37 goes
before R221 there is the model's reading, log entry 20). -/
def Obligations.RegistersWhileBusy : Prop :=
  ∀ (s : State) (off : BitVec 12) (v : Word), s.busy = true → off.toNat % 4 = 0 →
    (off ≠ 0x014 → (off ≠ 0x010 ∨ v.getLsbD 0 = false) → hostOp (.wr 32 off v) s = .next s) ∧
    (off.toNat ∈ [0x000, 0x004, 0x008, 0x00C, 0x010, 0x018, 0x020, 0x024, 0x028, 0x02C, 0x044, 0x04C, 0x050] →
      hostOp (.rd 32 off) s = .next (see (.reg off (readReg s (regAt off))) s)) ∧
    ((off.toNat ∈ [0x030, 0x034, 0x038, 0x03C, 0x040, 0x048, 0x054, 0x058, 0x05C] ∨
        (0x400 ≤ off.toNat ∧ off.toNat < 0xC00)) →
      ∃ (u : Word) (k : Nat), hostOp (.rd 32 off) s = .next { see (.reg off u) s with draws := k } ∧
        (off = 0x05C → u &&& 0xFFFF00FE = 0))

/-- A command that the host polls completes: with only WAIT at the front of the host's operations, the machine is idle again
after the delay and one more step, for every delay and every command word (R225; the delay is the model's, log entry 4). -/
def Obligations.PolledCommandCompletes : Prop :=
  ∀ (s : State) (w : Word) (rest : List HostOp), s.pending = some w → s.hostOps = .wait :: rest →
    TablesOk s →
    ∃ t, Host.Core.run Sys2Proof.core (s.delay + 1) s = .next t ∧ t.busy = false ∧ t.status.done = true ∧
      t.hostOps = .wait :: rest

/-! ### Reset and the register block (spec/10_state.md) -/

/-- The values after reset (R49), for every instance and whatever DMEM holds: what the host reads, and the hidden state. A
power-on reset at any time (R210), busy or not, gives these values to all but DMEM, every byte of which it draws; that the
parameters and the host's queue and record stay is the model's choice (log entries 1 and 15). -/
def Obligations.ResetValues : Prop :=
  (∀ (p : Params) (m : Memory) (b : Byte),
    let s := { State.reset with params := p, dmem := m }
    readReg s .id = 0x43525348 ∧ readReg s .cfgDmemSize = BitVec.ofNat 32 p.dmemSize ∧
    readReg s .cfgWindowMax = BitVec.ofNat 32 p.windowMax ∧ readReg s .cfgLookaheadMax = BitVec.ofNat 32 p.lookaheadMax ∧
    readReg s .ctrl = 0 ∧ readReg s .status = 0 ∧
    s.srcAddr = 0 ∧ s.srcLen = 0 ∧ s.dstAddr = 0 ∧ s.dstCap = 0 ∧ s.outLen = 0 ∧ s.tokcnt = 0 ∧ s.nsym = 0 ∧ s.arg = 0 ∧
    s.result = 0 ∧ s.bitcnt = 0 ∧ s.rdpos = 0 ∧ s.lzWindow = 2048 ∧ s.lzLookahead = 32 ∧
    readReg s .treeStatus = 0 ∧ entry s.freq b = 0 ∧ s.tree = [] ∧ s.root = none ∧ s.treeValid = false ∧
    entry s.code b = [] ∧ readReg s (.codelen b) = 0 ∧
    s.wbase = 0 ∧ s.wcap = 0 ∧ s.wpos = 0 ∧ s.pbuf = 0 ∧ s.rbase = 0 ∧ s.rlim = 0 ∧ s.pending = none) ∧
  (∀ s : State, ∃ t, hostOp .powerOn s = .next t ∧
    t = { State.reset with
      params := s.params
      dmem := t.dmem
      draws := t.draws
      hostOps := s.hostOps
      schedule := s.schedule
      seen := s.seen } ∧
    ∀ x, x < s.params.dmemSize → Memory.read t.dmem x = Config.freeByte (s.draws + x))

/-- The parameters of the machine after reset are legal (R7), and its state meets the invariants. That reset lists no DMEM
byte, each byte being a free value, is the model's choice (log entry 2). -/
def Obligations.ResetMeetsTheInvariants : Prop :=
  Params.Legal State.reset.params ∧ DmemOk State.reset ∧ TablesOk State.reset ∧ WriterOk State.reset ∧ ReaderOk State.reset

/-- Soft reset (R211): a CTRL write with bit 0 set, busy or not, whatever bit 1 of the written value. DMEM is unchanged but
for the bytes a command in progress could write. That the host's queue and record stay is the model's choice (log entry 15). -/
def Obligations.SoftResetRestoresResetValues : Prop :=
  ∀ (s : State) (v : Word), v.getLsbD 0 = true →
    ∃ t, hostOp (.wr 32 0x010 v) s = .next t ∧
      t = { State.reset with
        params := s.params
        dmem := t.dmem
        draws := t.draws
        hostOps := s.hostOps
        schedule := s.schedule
        seen := s.seen } ∧
      (s.busy = false → ∀ x, Memory.read t.dmem x = Memory.read s.dmem x) ∧
      (∀ w, s.pending = some w → (∀ i, decode w ≠ .command i) → ∀ x, Memory.read t.dmem x = Memory.read s.dmem x) ∧
      (∀ w i, s.pending = some w → decode w = .command i →
        SameOutside s.dmem t.dmem (destRange i s).1 (destRange i s).2)

/-- CTRL (R25) while idle: bit 1 is EMPTY_ERR, bit 0 reads 0, the other bits read 0 and their writes are ignored. -/
def Obligations.CtrlWriteSetsEmptyErr : Prop :=
  ∀ (s : State) (v : Word), s.busy = false → v.getLsbD 0 = false →
    ∃ t, hostOp (.wr 32 0x010 v) s = .next t ∧ t = { s with emptyErr := v.getLsbD 1 } ∧
      readReg t .ctrl = v &&& 2

/-- Read-only and reserved offsets (R39, R23, R24, R27, R30, R32, R34 to R38): a write changes nothing; the reserved offsets
and CMD read 0. -/
def Obligations.ReadOnlyAndReservedOffsets : Prop :=
  ∀ (s : State) (off : BitVec 12) (v : Word), off.toNat % 4 = 0 →
    ((off.toNat ∈ [0x000, 0x004, 0x008, 0x00C, 0x018, 0x01C, 0x030, 0x03C, 0x040, 0x048, 0x054, 0x058, 0x05C] ∨
        0x060 ≤ off.toNat) → hostOp (.wr 32 off v) s = .next s) ∧
    ((off.toNat ∈ [0x014, 0x01C] ∨ (0x060 ≤ off.toNat ∧ off.toNat < 0x400) ∨ 0xC00 ≤ off.toNat) →
      hostOp (.rd 32 off) s = .next (see (.reg off 0) s))

/-- The read-write registers (R28, R29, R31, R33, R34): while idle a written value is kept and read back as written, and
nothing else changes; a write to one half of BITCNT keeps the other and does not change WPOS. And what an idle read of each
register returns, by its offset (R22 to R25, R27 to R38): the read changes nothing of the core. -/
def Obligations.WrittenRegistersReadBack : Prop :=
  ∀ (s : State) (v : Word), s.busy = false →
    hostOp (.wr 32 0x020 v) s = .next { s with srcAddr := v } ∧ hostOp (.wr 32 0x024 v) s = .next { s with srcLen := v } ∧
    hostOp (.wr 32 0x028 v) s = .next { s with dstAddr := v } ∧ hostOp (.wr 32 0x02C v) s = .next { s with dstCap := v } ∧
    hostOp (.wr 32 0x044 v) s = .next { s with arg := v } ∧ hostOp (.wr 32 0x04C v) s = .next { s with lzWindow := v } ∧
    hostOp (.wr 32 0x050 v) s = .next { s with lzLookahead := v } ∧
    (∃ t, hostOp (.wr 32 0x034 v) s = .next t ∧ t = { s with bitcnt := t.bitcnt } ∧
      readReg t .bitcntLo = v ∧ readReg t .bitcntHi = readReg s .bitcntHi) ∧
    (∃ t, hostOp (.wr 32 0x038 v) s = .next t ∧ t = { s with bitcnt := t.bitcnt } ∧
      readReg t .bitcntHi = v ∧ readReg t .bitcntLo = readReg s .bitcntLo) ∧
    (∀ (off : BitVec 12) (w : Word), (off, w) ∈
        [(0x000, 0x43525348), (0x004, BitVec.ofNat 32 s.params.dmemSize), (0x008, BitVec.ofNat 32 s.params.windowMax),
         (0x00C, BitVec.ofNat 32 s.params.lookaheadMax), (0x010, if s.emptyErr then 2 else 0), (0x018, statusWord s),
         (0x020, s.srcAddr), (0x024, s.srcLen), (0x028, s.dstAddr), (0x02C, s.dstCap), (0x030, s.outLen),
         (0x034, BitVec.ofNat 32 s.bitcnt.toNat), (0x038, BitVec.ofNat 32 (s.bitcnt.toNat / 2 ^ 32)),
         (0x03C, BitVec.ofNat 32 s.rdpos.toNat), (0x040, BitVec.ofNat 32 (s.rdpos.toNat / 2 ^ 32)), (0x044, s.arg),
         (0x048, s.result), (0x04C, s.lzWindow), (0x050, s.lzLookahead), (0x054, s.tokcnt), (0x058, s.nsym),
         (0x05C, treeStatusWord s)] →
      hostOp (.rd 32 off) s = .next (see (.reg off w) s)) ∧
    (∀ (b : Byte) (off : BitVec 12), off.toNat = 0x400 + 4 * b.toNat →
      hostOp (.rd 32 off) s = .next (see (.reg off (entry s.freq b)) s)) ∧
    (∀ (b : Byte) (off : BitVec 12), off.toNat = 0x800 + 4 * b.toNat →
      hostOp (.rd 32 off) s = .next (see (.reg off (BitVec.ofNat 32 ((entry s.code b).length % 2 ^ 8))) s))

/-- Host DMEM bytes (R67(b), R220, R60): while idle a written byte is read back and every other byte is kept; while busy the
host has no DMEM step (U7); an address at or above DMEM_SIZE does not exist. That the machine stops in these two cases, and
under which names, is the model's choice (log entries 7 and 8). -/
def Obligations.HostDmemBytes : Prop :=
  ∀ (s : State) (a : Nat) (b : Byte),
    (s.busy = false → a < s.params.dmemSize →
      ∃ m, hostOp (.memw a b) s = .next { s with dmem := m } ∧ Memory.read m a = b ∧ SameOutside s.dmem m a 1 ∧
        hostOp (.memr a) { s with dmem := m } = .next (see (.mem a b) { s with dmem := m })) ∧
    (s.busy = true →
      hostOp (.memw a b) s = .refused .hostDmemWhileBusy ∧ hostOp (.memr a) s = .refused .hostDmemWhileBusy) ∧
    (s.busy = false → s.params.dmemSize ≤ a →
      hostOp (.memw a b) s = .fault (.noDmemByte a) ∧ hostOp (.memr a) s = .fault (.noDmemByte a))

/-! ### Rules about every command -/

/-- No command writes a register that is the host's to write (R25, R28, R29, R33, R34), a parameter, or what the host has
still to do. -/
def Obligations.CommandsNeverWriteHostRegisters : Prop :=
  ∀ (i : Instr) (s t : State), exec i s = .next t →
    t.params = s.params ∧ t.emptyErr = s.emptyErr ∧ t.srcAddr = s.srcAddr ∧ t.srcLen = s.srcLen ∧
    t.dstAddr = s.dstAddr ∧ t.dstCap = s.dstCap ∧ t.arg = s.arg ∧ t.lzWindow = s.lzWindow ∧
    t.lzLookahead = s.lzLookahead ∧ t.hostOps = s.hostOps ∧ t.delay = s.delay ∧ t.schedule = s.schedule ∧ t.seen = s.seen

/-- Only the commands that R86 lists as writers of a register or a table change it. -/
def Obligations.OnlyTheListedCommandsWrite : Prop :=
  ∀ (i : Instr) (s t : State), exec i s = .next t →
    (t.freq ≠ s.freq ∨ t.nsym ≠ s.nsym → i = .htCount ∨ i = .htLoadmeta) ∧
    (t.tree ≠ s.tree ∨ t.root ≠ s.root ∨ t.code ≠ s.code ∨ t.treeValid ≠ s.treeValid →
      i = .htCount ∨ i = .htLoadmeta ∨ i = .htBuild) ∧
    (s.treeValid = false → t.treeValid = true → i = .htBuild) ∧
    (t.outLen ≠ s.outLen → i = .bpFlush ∨ i = .htStoremeta ∨ i = .heEncode ∨ i = .hdDecode ∨ i = .lzMatch) ∧
    (t.result ≠ s.result → ∃ n : Byte, i = .bpGet n) ∧
    (t.tokcnt ≠ s.tokcnt → i = .lzMatch) ∧
    (t.bitcnt ≠ s.bitcnt → i = .bpWinit ∨ (∃ n : Byte, i = .bpPut n) ∨ i = .bpFlush ∨ i = .heEncode) ∧
    (t.wbase ≠ s.wbase ∨ t.wcap ≠ s.wcap → i = .bpWinit ∨ i = .heEncode) ∧
    (t.wpos ≠ s.wpos ∨ t.pbuf ≠ s.pbuf → i = .bpWinit ∨ (∃ n : Byte, i = .bpPut n) ∨ i = .heEncode) ∧
    (t.rbase ≠ s.rbase ∨ t.rlim ≠ s.rlim → i = .bpRinit ∨ i = .hdDecode) ∧
    (t.rdpos ≠ s.rdpos → i = .bpRinit ∨ (∃ n : Byte, i = .bpGet n) ∨ i = .hdDecode)

/-- Start errors are precise (R183): a command that ends with one changed nothing but STATUS, and so does an illegal word. -/
def Obligations.StartErrorsChangeOnlyStatus : Prop :=
  (∀ (i : Instr) (s t : State), exec i s = .next t → StartError i s t.status.errcode → OnlyStatus s t) ∧
  (∀ (w : Word) (why : IllegalReason) (s t : State), decode w = .illegal why → runWord w s = .next t →
    OnlyStatus s t ∧ t.status.errcode = .illegal)

/-- Run errors (R184): what the table does not list keeps its value, and DMEM outside DST is unchanged. -/
def Obligations.RunErrorsKeepTheRest : Prop :=
  ∀ (s t : State),
    (exec .heEncode s = .next t → t.status.errcode = .nosym ∨ t.status.errcode = .capacity →
      t = { s with
        status := t.status, pending := none, dmem := t.dmem, draws := t.draws, wbase := t.wbase, wcap := t.wcap,
        wpos := t.wpos, pbuf := t.pbuf, bitcnt := t.bitcnt, outLen := t.outLen } ∧
      SameOutside s.dmem t.dmem s.dstAddr.toNat s.dstCap.toNat) ∧
    (exec .hdDecode s = .next t →
      t.status.errcode = .capacity ∨ (t.status.errcode = .format ∧ ¬DecodeStartFormat s) →
      t = { s with
        status := t.status, pending := none, dmem := t.dmem, draws := t.draws, rbase := t.rbase, rlim := t.rlim,
        rdpos := t.rdpos, outLen := t.outLen } ∧
      SameOutside s.dmem t.dmem s.dstAddr.toNat s.dstCap.toNat) ∧
    (exec .lzMatch s = .next t → t.status.errcode = .capacity →
      t = { s with
        status := t.status, pending := none, dmem := t.dmem, draws := t.draws, tokcnt := t.tokcnt, outLen := t.outLen } ∧
      SameOutside s.dmem t.dmem s.dstAddr.toNat s.dstCap.toNat)

/-- Frame rule, writes (R71): in every state and however it ends, a command changes no DMEM byte outside its destination
range; a command that writes no DMEM byte (R86) changes none at all. -/
def Obligations.CommandsWriteOnlyTheirRange : Prop :=
  ∀ (i : Instr) (s t : State), exec i s = .next t → SameOutside s.dmem t.dmem (destRange i s).1 (destRange i s).2

/-- Frame rule, reads (R71): what a command answers depends on DMEM only inside the range it checked. From a DMEM m that agrees
with the first one there, it answers the same state, and each byte of DMEM afterwards is the one the first run left, or one that
neither run changed. -/
def Obligations.CommandsReadOnlyTheirRange : Prop :=
  ∀ (i : Instr) (s t : State) (m : Memory), SameInside s.dmem m (readRange i s).1 (readRange i s).2 →
    exec i s = .next t →
    ∃ m', exec i { s with dmem := m } = .next { t with dmem := m' } ∧
      ∀ x, Memory.read m' x = Memory.read t.dmem x ∨
        (Memory.read t.dmem x = Memory.read s.dmem x ∧ Memory.read m' x = Memory.read m x)

/-- Every step keeps DMEM in its canonical form with only addresses that exist (R60). -/
def Obligations.EveryStepKeepsDmemForm : Prop :=
  ∀ s t : State, DmemOk s → step s = .next t → DmemOk t ∧ t.params = s.params

/-- Every step, of the core or of the host, keeps R36 and R42: NSYM counts the symbols, a valid tree is the tree of the
current FREQ, and without one there are no codes. -/
def Obligations.EveryStepKeepsTables : Prop :=
  ∀ s t : State, TablesOk s → step s = .next t → TablesOk t

/-- Every command keeps the writer's and the reader's invariants (R45, R46), but for a run error of HE_ENCODE or HD_DECODE
(R184). -/
def Obligations.CommandsKeepStreamInvariants : Prop :=
  ∀ (i : Instr) (s t : State), exec i s = .next t →
    (WriterOk s → (i = .heEncode → t.status.errcode ≠ .nosym ∧ t.status.errcode ≠ .capacity) → WriterOk t) ∧
    (ReaderOk s →
      (i = .hdDecode → t.status.errcode ≠ .capacity ∧ (t.status.errcode ≠ .format ∨ DecodeStartFormat s)) → ReaderOk t)

/-- Every command completes, with every operand, in every state: no fault and no refusal (R180, R182), also after a run error
(R214 (d)). HD_DECODE has the invariant of the tables as its premise, which every step keeps. -/
def Obligations.EveryCommandCompletes : Prop :=
  ∀ (i : Instr) (s : State), (i = .hdDecode → TablesOk s) →
    ∃ t, exec i s = .next t ∧ t.busy = false ∧ t.status.done = true

/-- Error priority (R187) of the commands with several start checks: the first failing check in the order of R187 gives the
code, and nothing but STATUS changes. -/
def Obligations.StartChecksInPriorityOrder : Prop :=
  ∀ s : State,
    (∀ i, i = .heEncode ∨ i = .hdDecode ∨ i = .lzMatch →
      (s.params.dmemSize < s.srcAddr.toNat + s.srcLen.toNat ∨ s.params.dmemSize < s.dstAddr.toNat + s.dstCap.toNat →
        exec i s = .next (complete .address s)) ∧
      (srcOK s = true → dstOK s = true → srcDstOverlap s = true → exec i s = .next (complete .validation s))) ∧
    (∀ i, i = .heEncode ∨ i = .hdDecode → srcOK s = true → dstOK s = true → srcDstOverlap s = false →
      s.treeValid = false → exec i s = .next (complete .state s)) ∧
    (srcOK s = true → dstOK s = true → srcDstOverlap s = false → s.treeValid = true → s.srcLen = 0 → s.emptyErr = true →
      exec .heEncode s = .next (complete .empty s)) ∧
    (srcOK s = true → dstOK s = true → srcDstOverlap s = false → s.treeValid = true → DecodeStartFormat s →
      exec .hdDecode s = .next (complete .format s)) ∧
    (srcOK s = true → dstOK s = true → srcDstOverlap s = false →
      s.params.windowMax < s.lzWindow.toNat ∨ s.params.lookaheadMax < s.lzLookahead.toNat →
      exec .lzMatch s = .next (complete .validation s))

/-! ### BitPacker (spec/40_bitpacker.md) -/

/-- BP_WINIT (R100): its word, its whole effect, and its one error. -/
def Obligations.BpWinitOpensAStream : Prop :=
  decode 0x00000001 = .command .bpWinit ∧
  ∀ s : State,
    (s.dstAddr.toNat + s.dstCap.toNat ≤ s.params.dmemSize →
      exec .bpWinit s = .next (complete .none
        { s with wbase := s.dstAddr, wcap := s.dstCap, wpos := 0, pbuf := 0, bitcnt := 0 })) ∧
    (s.params.dmemSize < s.dstAddr.toNat + s.dstCap.toNat → exec .bpWinit s = .next (complete .address s))

/-- BP_PUT N (R102, R101, R62): for every N of 1..32, the low N bits of ARG, most significant first, become the last bits of
the stream, a byte is written only when it fills, and nothing else changes. The stream is the one StreamHolds describes; where
a run error left another (R184), the first four clauses still hold; that BP_PUT completes with NONE also where such a stream lies
outside DMEM is the model's choice (log entry 8). -/
def Obligations.BpPutAppendsTheBits : Prop :=
  ∀ (s : State) (n : Byte), 1 ≤ n.toNat → n.toNat ≤ 32 → s.wpos.toNat + n.toNat ≤ 8 * s.wcap.toNat →
    ∃ t, exec (.bpPut n) s = .next t ∧
      t = complete .none { s with dmem := t.dmem, wpos := t.wpos, pbuf := t.pbuf, bitcnt := t.wpos } ∧
      t.wpos.toNat = s.wpos.toNat + n.toNat ∧
      SameOutside s.dmem t.dmem (s.wbase.toNat + s.wpos.toNat / 8)
        ((s.wpos.toNat + n.toNat) / 8 - s.wpos.toNat / 8) ∧
      (∀ bits, s.wbase.toNat + s.wcap.toNat ≤ s.params.dmemSize → StreamHolds s bits →
        StreamHolds t (bits ++ (List.range n.toNat).map (fun j => s.arg.getLsbD (n.toNat - 1 - j))))

/-- The errors of BP_PUT (R102): CAPACITY when the stream would need more than WCAP bytes, ILLEGAL when N is 0 or greater than
32; nothing but STATUS changes. -/
def Obligations.BpPutErrors : Prop :=
  ∀ (s : State) (n : Byte),
    (n.toNat = 0 ∨ 32 < n.toNat → exec (.bpPut n) s = .next (complete .illegal s)) ∧
    (1 ≤ n.toNat → n.toNat ≤ 32 → 8 * s.wcap.toNat < s.wpos.toNat + n.toNat →
      exec (.bpPut n) s = .next (complete .capacity s))

/-- BP_FLUSH (R103): the pending bits high and pad bits 0 in the last byte, BITCNT and OUT_LEN, and nothing else. In a state that
a run error left (R184) no byte outside the stream's range is written, and OUT_LEN is a free value where the length does not fit
it; both are the model's readings (log entries 14 and 18). -/
def Obligations.BpFlushWritesThePaddedByte : Prop :=
  ∀ s : State,
    ∃ t, exec .bpFlush s = .next t ∧
      t = complete .none { s with dmem := t.dmem, bitcnt := s.wpos, outLen := t.outLen, draws := t.draws } ∧
      ((s.wpos.toNat + 7) / 8 < 2 ^ 32 → t.outLen.toNat = (s.wpos.toNat + 7) / 8 ∧ t.draws = s.draws) ∧
      (s.wpos.toNat % 8 = 0 → ∀ x, Memory.read t.dmem x = Memory.read s.dmem x) ∧
      (s.wpos.toNat % 8 ≠ 0 → s.wpos.toNat / 8 < s.wcap.toNat →
        s.wbase.toNat + s.wpos.toNat / 8 < s.params.dmemSize →
        (Memory.read t.dmem (s.wbase.toNat + s.wpos.toNat / 8)).toNat =
          s.pbuf.toNat * 2 ^ (8 - s.wpos.toNat % 8) % 256) ∧
      SameOutside s.dmem t.dmem (s.wbase.toNat + s.wpos.toNat / 8) 1 ∧
      SameOutside s.dmem t.dmem s.wbase.toNat s.wcap.toNat

/-- Writer law (R108): after BP_WINIT, successful PUTs and BP_FLUSH, DMEM holds Pack of the appended bits. -/
def Obligations.WriterLaw : Prop :=
  ∀ (s s0 s1 : State) (ps : List (Byte × Word)), exec .bpWinit s = .next s0 → s0.status.errcode = .none →
    runPuts ps s0 = some s1 →
    ∃ t, exec .bpFlush s1 = .next t ∧ t.status.errcode = .none ∧
      (∀ i, i < ceil8 (putBits ps).length →
        Memory.read t.dmem (s.dstAddr.toNat + i) = packByte (putBits ps) i) ∧
      t.bitcnt.toNat = (putBits ps).length ∧ t.outLen.toNat = ceil8 (putBits ps).length ∧
      SameOutside s.dmem t.dmem s.dstAddr.toNat (ceil8 (putBits ps).length)

/-- BP_RINIT (R104): its word, its whole effect, and its errors in order. -/
def Obligations.BpRinitOpensAStream : Prop :=
  decode 0x00000004 = .command .bpRinit ∧
  ∀ s : State,
    (s.srcAddr.toNat + s.srcLen.toNat ≤ s.params.dmemSize → (s.bitcnt.toNat + 7) / 8 ≤ s.srcLen.toNat →
      exec .bpRinit s = .next (complete .none { s with rbase := s.srcAddr, rlim := s.bitcnt, rdpos := 0 })) ∧
    (s.params.dmemSize < s.srcAddr.toNat + s.srcLen.toNat → exec .bpRinit s = .next (complete .address s)) ∧
    (s.srcAddr.toNat + s.srcLen.toNat ≤ s.params.dmemSize → s.srcLen.toNat < (s.bitcnt.toNat + 7) / 8 →
      exec .bpRinit s = .next (complete .format s))

/-- BP_GET N (R105, R106, R62): for every N of 1..32, RESULT[N-1-j] is the stream bit at RDPOS + j, RESULT[31:N] = 0, RDPOS
moves by N, and nothing else changes. Where a run error left the stream outside DMEM (R184), a bit of a byte that does not exist
is a free value, and only then is one drawn (log entry 8). -/
def Obligations.BpGetReadsTheBits : Prop :=
  ∀ (s : State) (n : Byte), 1 ≤ n.toNat → n.toNat ≤ 32 → s.rdpos.toNat + n.toNat ≤ s.rlim.toNat →
    ∃ t, exec (.bpGet n) s = .next t ∧
      t = complete .none { s with result := t.result, rdpos := t.rdpos, draws := t.draws } ∧
      (s.rbase.toNat + ceil8 (s.rdpos.toNat + n.toNat) ≤ s.params.dmemSize → t.draws = s.draws) ∧
      t.rdpos.toNat = s.rdpos.toNat + n.toNat ∧
      (∀ j, j < n.toNat → s.rbase.toNat + (s.rdpos.toNat + j) / 8 < s.params.dmemSize →
        t.result.getLsbD (n.toNat - 1 - j) =
          (Memory.read s.dmem (s.rbase.toNat + (s.rdpos.toNat + j) / 8)).getLsbD (7 - (s.rdpos.toNat + j) % 8)) ∧
      (∀ j, n.toNat ≤ j → t.result.getLsbD j = false)

/-- The errors of BP_GET (R105): FORMAT when fewer than N real bits remain, so a pad bit is never returned; ILLEGAL when N is
0 or greater than 32; nothing but STATUS changes. -/
def Obligations.BpGetErrors : Prop :=
  ∀ (s : State) (n : Byte),
    (n.toNat = 0 ∨ 32 < n.toNat → exec (.bpGet n) s = .next (complete .illegal s)) ∧
    (1 ≤ n.toNat → n.toNat ≤ 32 → s.rlim.toNat < s.rdpos.toNat + n.toNat →
      exec (.bpGet n) s = .next (complete .format s))

/-- Reader law (R109): after a BP_RINIT over Pack(bits), successful GETs return the bits in order, none repeated or skipped,
and RDPOS counts them; GETs of at most as many bits as there are succeed, and no others do. -/
def Obligations.ReaderLaw : Prop :=
  ∀ (s s0 : State) (bits : List Bool) (ns : List Byte), exec .bpRinit s = .next s0 → s0.status.errcode = .none →
    s.bitcnt.toNat = bits.length → Memory.readBytes s.dmem s.srcAddr.toNat (ceil8 bits.length) = pack bits →
    (∀ n ∈ ns, countOk n = true) →
    ((ns.map BitVec.toNat).sum ≤ bits.length →
      ∃ t, runGets ns s0 = some (chunkValues ns bits, t) ∧ t.rdpos.toNat = (ns.map BitVec.toNat).sum) ∧
    (bits.length < (ns.map BitVec.toNat).sum → runGets ns s0 = none)

/-- Round-trip law (R110): what PUTs wrote and a BP_FLUSH completed, BP_RINIT over that region and GETs of the same widths
return, the low N bits of each ARG in order. -/
def Obligations.PutGetRoundTrip : Prop :=
  ∀ (s s0 s1 t : State) (ps : List (Byte × Word)), exec .bpWinit s = .next s0 → s0.status.errcode = .none →
    runPuts ps s0 = some s1 → exec .bpFlush s1 = .next t →
    ∃ v u, exec .bpRinit { t with srcAddr := s.dstAddr, srcLen := t.outLen } = .next v ∧ v.status.errcode = .none ∧
      runGets (ps.map (fun p => p.1)) v =
        some (ps.map (fun p => BitVec.ofNat 32 (p.2.toNat % 2 ^ p.1.toNat)), u)

/-! ### Huffman tree builder (spec/41_huffman_tree_builder.md) -/

/-- HT_COUNT (R120): FREQ[b] is how often b occurs in SRC, NSYM how many symbols occur, the tree and the codes are gone, and
nothing else changes; its errors, in order. -/
def Obligations.HtCountCountsSrc : Prop :=
  ∀ s : State,
    (s.srcAddr.toNat + s.srcLen.toNat ≤ s.params.dmemSize → ¬(s.srcLen = 0 ∧ s.emptyErr = true) →
      ∃ t, exec .htCount s = .next t ∧
        t = complete .none { s with
          freq := t.freq, nsym := t.nsym, treeValid := false, tree := [], root := none, code := Vector.replicate 256 [] } ∧
        (∀ b, (entry t.freq b).toNat =
          ((List.range s.srcLen.toNat).filter (fun i => Memory.read s.dmem (s.srcAddr.toNat + i) = b)).length) ∧
        t.nsym.toNat = (allBytes.filter (fun b => entry t.freq b ≠ 0)).length) ∧
    (s.params.dmemSize < s.srcAddr.toNat + s.srcLen.toNat → exec .htCount s = .next (complete .address s)) ∧
    (s.srcAddr.toNat + s.srcLen.toNat ≤ s.params.dmemSize → s.srcLen = 0 → s.emptyErr = true →
      exec .htCount s = .next (complete .empty s))

/-- HT_BUILD (R121): always completes, writes TREE, ROOT, CODE and TREE_VALID from FREQ and nothing else, and building again
gives the same. -/
def Obligations.HtBuildWritesTheTree : Prop :=
  ∀ s : State, ∃ t, exec .htBuild s = .next t ∧
    t = complete .none { s with
      tree := buildNodes s.freq
      root := rootOf (buildNodes s.freq)
      code := codesOf (buildNodes s.freq) (rootOf (buildNodes s.freq))
      treeValid := true } ∧
    exec .htBuild t = .next t

/-- The shape of BuildTree's arena (R122, R41): 2n-1 nodes; the leaves 0..n-1 are the symbols that occur, ascending, with
their frequencies; every later node is internal, has two older children, the left one first in the (weight, index) order, and
the sum of their weights, without wrap; no node is a child twice; every older node that is no child yet comes after the two
in the (weight, index) order, so that they are the two that ExtractMin takes; and later nodes never weigh less. -/
def Obligations.TreeShape : Prop :=
  ∀ freq : Vector Word 256,
    let nodes := buildNodes freq
    let syms := allBytes.filter (fun b => entry freq b ≠ 0)
    let weight := fun (i : Nat) => ((nodes[i]?.map Node.weight).getD 0).toNat
    nodes.length = 2 * syms.length - 1 ∧
    (∀ (k : Nat) (b : Byte), syms[k]? = some b → nodes[k]? = some (.leaf ((entry freq b).setWidth 64) b)) ∧
    (∀ k, syms.length ≤ k → k < nodes.length →
      ∃ w l r, nodes[k]? = some (.internal w l r) ∧ l < k ∧ r < k ∧ w.toNat = weight l + weight r ∧
        (weight l < weight r ∨ (weight l = weight r ∧ l < r)) ∧
        (∀ k' w' l' r', k' < k → nodes[k']? = some (.internal w' l' r') → l ≠ l' ∧ l ≠ r' ∧ r ≠ l' ∧ r ≠ r') ∧
        (∀ j, j < k → j ≠ l → j ≠ r →
          (∀ k' w' l' r', k' < k → nodes[k']? = some (.internal w' l' r') → j ≠ l' ∧ j ≠ r') →
          weight r < weight j ∨ (weight r = weight j ∧ r < j))) ∧
    (∀ j k, syms.length ≤ j → j ≤ k → k < nodes.length → weight j ≤ weight k)

/-- Code properties (R126 (a), (b), (d)) after HT_BUILD: a symbol has a code exactly when it occurs, no code begins another,
and no code is longer than the larger of 1 and n - 1 bits. For n = 1 that bound is not R126 (d)'s but the model's reading, since the
one code has 1 bit by R123 (log entry 17). CODELEN (R44) is the length of the code, and TREE_STATUS (R37) has VALID = 1, the
largest CODELEN as MAXLEN, and 0 in its reserved bits. -/
def Obligations.CodesFormAPrefixFreeTable : Prop :=
  ∀ s t : State, exec .htBuild s = .next t →
    (∀ b, entry t.code b ≠ [] ↔ entry s.freq b ≠ 0) ∧
    (∀ b c, b ≠ c → entry t.code b ≠ [] → entry t.code c ≠ [] → ¬ List.IsPrefix (entry t.code b) (entry t.code c)) ∧
    (∀ b, (entry t.code b).length ≤ max 1 (symbolCount s.freq - 1) ∧ (entry t.code b).length ≤ 255) ∧
    (∀ b, (codeLen (entry t.code b)).toNat = (entry t.code b).length) ∧
    (treeStatusWord t).getLsbD 0 = true ∧ (treeStatusWord t).extractLsb' 1 7 = 0 ∧
    (∀ b, (entry t.code b).length ≤ ((treeStatusWord t).extractLsb' 8 8).toNat) ∧
    (∃ b, (entry t.code b).length = ((treeStatusWord t).extractLsb' 8 8).toNat) ∧
    (treeStatusWord t).extractLsb' 16 16 = 0

/-- Kraft's equality (R126 (c)): for n >= 2 the sum of 2^(-CODELEN[s]) over the coded symbols is 1, here times 2^255. -/
def Obligations.CodeLengthsSumToOne : Prop :=
  ∀ s t : State, exec .htBuild s = .next t → 2 ≤ symbolCount s.freq →
    ((allBytes.filter (fun b => entry t.code b ≠ [])).map (fun b => 2 ^ (255 - (entry t.code b).length))).sum = 2 ^ 255

/-- HT_LOADMETA (R124, R64): an image at SRC is loaded, whatever bytes follow it; anything else is FORMAT and changes nothing
but STATUS. -/
def Obligations.HtLoadmetaLoadsTheImage : Prop :=
  ∀ s : State,
    (∀ ps, s.srcAddr.toNat + s.srcLen.toNat ≤ s.params.dmemSize → ImageAtSrc s ps →
      ∃ t, exec .htLoadmeta s = .next t ∧
        t = complete .none { s with
          freq := t.freq, nsym := t.nsym, treeValid := false, tree := [], root := none, code := Vector.replicate 256 [] } ∧
        t.nsym.toNat = ps.length ∧ (∀ p ∈ ps, entry t.freq p.1 = p.2) ∧
        (∀ b, (∀ p ∈ ps, p.1 ≠ b) → entry t.freq b = 0)) ∧
    (s.srcAddr.toNat + s.srcLen.toNat ≤ s.params.dmemSize → (∀ ps, ¬ImageAtSrc s ps) →
      exec .htLoadmeta s = .next (complete .format s)) ∧
    (s.params.dmemSize < s.srcAddr.toNat + s.srcLen.toNat → exec .htLoadmeta s = .next (complete .address s))

/-- HT_STOREMETA (R125, R64): the image of FREQ in ascending symbol order, of 4 + 5 * NSYM bytes, and nothing else; its
errors, in order. The first clause has NSYM's invariant (R36) as its premise. -/
def Obligations.HtStoremetaStoresTheImage : Prop :=
  ∀ s : State,
    (NsymOk s → s.dstAddr.toNat + s.dstCap.toNat ≤ s.params.dmemSize → 4 + 5 * s.nsym.toNat ≤ s.dstCap.toNat →
      ∃ t, exec .htStoremeta s = .next t ∧ t = complete .none { s with dmem := t.dmem, outLen := t.outLen } ∧
        t.outLen.toNat = 4 + 5 * s.nsym.toNat ∧
        Memory.readBytes t.dmem s.dstAddr.toNat (4 + 5 * s.nsym.toNat) =
          imageOf ((allBytes.filter (fun b => entry s.freq b ≠ 0)).map (fun b => (b, entry s.freq b))) ∧
        SameOutside s.dmem t.dmem s.dstAddr.toNat (4 + 5 * s.nsym.toNat)) ∧
    (s.params.dmemSize < s.dstAddr.toNat + s.dstCap.toNat → exec .htStoremeta s = .next (complete .address s)) ∧
    (s.dstAddr.toNat + s.dstCap.toNat ≤ s.params.dmemSize → s.dstCap.toNat < 4 + 5 * s.nsym.toNat →
      exec .htStoremeta s = .next (complete .capacity s))

/-- Metadata round trip (R127): HT_LOADMETA of the image HT_STOREMETA wrote restores FREQ and NSYM, and HT_BUILD then gives
the same TREE, ROOT and CODE. -/
def Obligations.MetadataRoundTrip : Prop :=
  ∀ s t : State, NsymOk s → exec .htStoremeta s = .next t → t.status.errcode = .none →
    ∃ u v w, exec .htLoadmeta { t with srcAddr := t.dstAddr, srcLen := t.outLen } = .next u ∧ u.status.errcode = .none ∧
      u.freq = s.freq ∧ u.nsym = s.nsym ∧ exec .htBuild u = .next v ∧ exec .htBuild s = .next w ∧
      v.tree = w.tree ∧ v.root = w.root ∧ v.code = w.code

/-! ### Huffman encoder (spec/42_huffman_encoder.md) -/

/-- Encoder law (R140, R141): with every start check passed, a code for every byte of SRC and room for all the bits, HE_ENCODE
writes Pack of the concatenated codes at DST, leaves the stream open, sets BITCNT and OUT_LEN, and changes nothing else. -/
def Obligations.HeEncodeWritesThePackedCodes : Prop :=
  ∀ (s : State) (bits : List Bool), srcOK s = true → dstOK s = true → srcDstOverlap s = false → s.treeValid = true →
    ¬(s.srcLen = 0 ∧ s.emptyErr = true) → (∀ b ∈ srcBytes s, entry s.code b ≠ []) →
    bits = (srcBytes s).flatMap (entry s.code) → bits.length ≤ 8 * s.dstCap.toNat →
    ∃ t, exec .heEncode s = .next t ∧
      t = complete .none { s with
        dmem := t.dmem, wbase := s.dstAddr, wcap := s.dstCap, wpos := t.wpos, pbuf := t.pbuf, bitcnt := t.wpos,
        outLen := t.outLen } ∧
      StreamHolds t bits ∧ t.outLen.toNat = ceil8 bits.length ∧
      Memory.readBytes t.dmem s.dstAddr.toNat (ceil8 bits.length) = pack bits ∧
      SameOutside s.dmem t.dmem s.dstAddr.toNat (ceil8 bits.length)

/-- The run errors of HE_ENCODE (R140, R187), at the first byte in SRC order that triggers one: NOSYM when the byte has no
code, whatever the room, else CAPACITY when its code does not fit. -/
def Obligations.HeEncodeStopsAtTheFirstBadByte : Prop :=
  ∀ (s : State) (xs ys : List Byte) (b : Byte), srcOK s = true → dstOK s = true → srcDstOverlap s = false →
    s.treeValid = true → srcBytes s = xs ++ b :: ys → (∀ x ∈ xs, entry s.code x ≠ []) →
    (xs.flatMap (entry s.code)).length ≤ 8 * s.dstCap.toNat →
    (entry s.code b = [] → ∃ t, exec .heEncode s = .next t ∧ t.status.errcode = .nosym) ∧
    (entry s.code b ≠ [] → 8 * s.dstCap.toNat < (xs.flatMap (entry s.code)).length + (entry s.code b).length →
      ∃ t, exec .heEncode s = .next t ∧ t.status.errcode = .capacity)

/-- Degenerate input (R142): an input of L >= 1 copies of one byte, counted, built and encoded, gives a one-node tree, the
code "0", BITCNT = L and ceil8(L) zero bytes. -/
def Obligations.OneSymbolInputEncodesToZeros : Prop :=
  ∀ (s : State) (b : Byte), srcOK s = true → dstOK s = true → srcDstOverlap s = false → s.srcLen ≠ 0 →
    s.srcLen.toNat ≤ 8 * s.dstCap.toNat → (∀ i, i < s.srcLen.toNat → srcByte s i = b) →
    ∃ t u v, exec .htCount s = .next t ∧ exec .htBuild t = .next u ∧ exec .heEncode u = .next v ∧
      v.status.errcode = .none ∧ v.tree.length = 1 ∧ entry v.code b = [false] ∧ v.bitcnt.toNat = s.srcLen.toNat ∧
      Memory.readBytes v.dmem s.dstAddr.toNat (ceil8 s.srcLen.toNat) = List.replicate (ceil8 s.srcLen.toNat) 0

/-! ### Huffman decoder (spec/43_huffman_decoder.md) -/

/-- Decoder law (R151, R150): the packed codes of x, decoded with the tree they come from, give exactly x. -/
def Obligations.HdDecodeInvertsTheCodes : Prop :=
  ∀ (s : State) (x : List Byte), TablesOk s → s.treeValid = true → srcOK s = true → dstOK s = true →
    srcDstOverlap s = false → (∀ b ∈ x, entry s.code b ≠ []) →
    s.bitcnt.toNat = (x.flatMap (entry s.code)).length → ceil8 s.bitcnt.toNat ≤ s.srcLen.toNat →
    Memory.readBytes s.dmem s.srcAddr.toNat (ceil8 s.bitcnt.toNat) = pack (x.flatMap (entry s.code)) →
    x.length ≤ s.dstCap.toNat →
    ∃ t, exec .hdDecode s = .next t ∧
      t = complete .none { s with
        dmem := t.dmem, rbase := s.srcAddr, rlim := s.bitcnt, rdpos := s.bitcnt, outLen := t.outLen } ∧
      t.outLen.toNat = x.length ∧ Memory.readBytes t.dmem s.dstAddr.toNat x.length = x ∧
      SameOutside s.dmem t.dmem s.dstAddr.toNat x.length

/-- Stop rule and bound (R152, R153): what a successful HD_DECODE emits are symbols whose codes are exactly the BITCNT bits,
so no pad bit is ever decoded, and at most BITCNT of them. -/
def Obligations.HdDecodeConsumesExactlyTheBits : Prop :=
  ∀ s t : State, TablesOk s → exec .hdDecode s = .next t → t.status.errcode = .none →
    ∃ x, t.outLen.toNat = x.length ∧ Memory.readBytes t.dmem s.dstAddr.toNat x.length = x ∧
      (∀ b ∈ x, entry s.code b ≠ []) ∧
      x.flatMap (entry s.code) = streamBits s.dmem s.srcAddr.toNat 0 s.bitcnt.toNat ∧
      x.length ≤ s.bitcnt.toNat ∧ x.length ≤ s.dstCap.toNat ∧ t.rdpos = s.bitcnt

/-- The run errors of HD_DECODE (R150, R187), each at the first bit that triggers it. With a one-symbol tree (R153): k zero bits
before the first 1 bit and room for k symbols, FORMAT; only zero bits and room, exactly BITCNT bytes are emitted. With any tree:
after the codes of x, which fill DST, a whole code more is CAPACITY; after the codes of x, which fit DST, the bits end inside a
code: FORMAT. -/
def Obligations.OneSymbolTreeRejectsOnes : Prop :=
  (∀ (s : State) (w : DWord) (b : Byte) (r k : Nat), s.treeValid = true → s.root = some r →
    s.tree[r]? = some (.leaf w b) → srcOK s = true → dstOK s = true → srcDstOverlap s = false →
    ceil8 s.bitcnt.toNat ≤ s.srcLen.toNat → k ≤ s.dstCap.toNat → k ≤ s.bitcnt.toNat →
    (∀ j, j < k → streamBit s.dmem s.srcAddr.toNat j = false) →
    (k < s.bitcnt.toNat → streamBit s.dmem s.srcAddr.toNat k = true →
      ∃ t, exec .hdDecode s = .next t ∧ t.status.errcode = .format) ∧
    (k = s.bitcnt.toNat →
      ∃ t, exec .hdDecode s = .next t ∧ t.status.errcode = .none ∧ t.outLen.toNat = s.bitcnt.toNat ∧
        Memory.readBytes t.dmem s.dstAddr.toNat s.bitcnt.toNat = List.replicate s.bitcnt.toNat b)) ∧
  (∀ (s : State) (x : List Byte) (left : List Bool), TablesOk s → s.treeValid = true → srcOK s = true → dstOK s = true →
    srcDstOverlap s = false → ceil8 s.bitcnt.toNat ≤ s.srcLen.toNat → (∀ b ∈ x, entry s.code b ≠ []) →
    streamBits s.dmem s.srcAddr.toNat 0 s.bitcnt.toNat = x.flatMap (entry s.code) ++ left →
    (∀ (b : Byte) (more : List Bool), x.length = s.dstCap.toNat → entry s.code b ≠ [] → left = entry s.code b ++ more →
      ∃ t, exec .hdDecode s = .next t ∧ t.status.errcode = .capacity) ∧
    (∀ (b : Byte) (more : List Bool), x.length ≤ s.dstCap.toNat → left ≠ [] → more ≠ [] → entry s.code b = left ++ more →
      ∃ t, exec .hdDecode s = .next t ∧ t.status.errcode = .format))

/-- The round trip of R151 for every input x, empty, one symbol or all 256: HT_COUNT, HT_BUILD and a successful HE_ENCODE of
SRC, then HD_DECODE of what they wrote into a range that takes it, gives SRC's bytes back. -/
def Obligations.HuffmanRoundTrip : Prop :=
  ∀ (s a b c : State) (d cap : Word), exec .htCount s = .next a → a.status.errcode = .none → exec .htBuild a = .next b →
    exec .heEncode b = .next c → c.status.errcode = .none → rangeOK s.params.dmemSize d.toNat cap.toNat = true →
    overlap s.dstAddr.toNat c.outLen.toNat d.toNat cap.toNat = false → s.srcLen.toNat ≤ cap.toNat →
    ∃ t, exec .hdDecode { c with srcAddr := s.dstAddr, srcLen := c.outLen, dstAddr := d, dstCap := cap } = .next t ∧
      t.status.errcode = .none ∧ t.outLen = s.srcLen ∧
      Memory.readBytes t.dmem d.toNat s.srcLen.toNat = srcBytes s

/-! ### LZ77 matcher (spec/44_lz77_matcher.md) -/

/-- LZ_MATCH (R160, R65): with every start check passed and room for the records, the token records at DST, TOKCNT and
OUT_LEN, and nothing else; without room, CAPACITY. -/
def Obligations.LzMatchWritesTheTokens : Prop :=
  ∀ (s : State) (toks : List Token), srcOK s = true → dstOK s = true → srcDstOverlap s = false →
    s.lzWindow.toNat ≤ s.params.windowMax → s.lzLookahead.toNat ≤ s.params.lookaheadMax →
    toks = tokenize (fun i => Memory.read s.dmem (s.srcAddr.toNat + i)) s.srcLen.toNat s.lzWindow.toNat
      s.lzLookahead.toNat →
    (10 * toks.length ≤ s.dstCap.toNat →
      ∃ t, exec .lzMatch s = .next t ∧
        t = complete .none { s with dmem := t.dmem, tokcnt := t.tokcnt, outLen := t.outLen } ∧
        t.tokcnt.toNat = toks.length ∧ t.outLen.toNat = 10 * toks.length ∧
        (∀ (i : Nat) (tok : Token), toks[i]? = some tok →
          memRead t.dmem (s.dstAddr.toNat + 10 * i) 4 = tok.off ∧
          memRead t.dmem (s.dstAddr.toNat + 10 * i + 4) 4 = tok.len ∧
          Memory.read t.dmem (s.dstAddr.toNat + 10 * i + 8) = (if tok.lit.isSome then 1 else 0) ∧
          Memory.read t.dmem (s.dstAddr.toNat + 10 * i + 9) = tok.lit.getD 0) ∧
        SameOutside s.dmem t.dmem s.dstAddr.toNat (10 * toks.length)) ∧
    (s.dstCap.toNat < 10 * toks.length → ∃ t, exec .lzMatch s = .next t ∧ t.status.errcode = .capacity)

/-- Token invariants (R162) and greedy selection (R160, R164), for every input, window and lookahead: the token at a position is
the longest match there, and the next position follows it. -/
def Obligations.TokenInvariants : Prop :=
  ∀ (byte : Nat → Byte) (n w k : Nat),
    let toks := tokenize byte n w k
    toks.length ≤ n ∧ (toks.map (fun t => t.len + t.lit.toList.length)).sum = n ∧
    ∀ (i : Nat) (tok : Token), toks[i]? = some tok →
      let pos := tokenPos toks i
      pos < n ∧ (tok.off, tok.len) = longestMatch byte n w k pos ∧ (1 ≤ tok.off ↔ 1 ≤ tok.len) ∧ tok.off ≤ min w pos ∧ tok.len ≤ min k (n - pos) ∧
      (tok.lit = none ↔ pos + tok.len = n) ∧ (∀ c, tok.lit = some c → c = byte (pos + tok.len))

/-- LongestMatch (R161): the result is a match, no offset of the window has a longer one, and among the longest the smallest
offset is taken. -/
def Obligations.LongestMatchIsLongestAndNearest : Prop :=
  ∀ (byte : Nat → Byte) (n w k pos : Nat), pos < n →
    let best := longestMatch byte n w k pos
    (0 < best.2 → 1 ≤ best.1 ∧ best.1 ≤ min w pos ∧ IsMatch byte n k pos best.1 best.2) ∧
    (best.2 = 0 → best.1 = 0) ∧
    (∀ off len, 1 ≤ off → off ≤ min w pos → IsMatch byte n k pos off len →
      len ≤ best.2 ∧ (0 < len → len = best.2 → best.1 ≤ off))

/-- Replay law (R163): after a successful LZ_MATCH, DST holds the records of TOKCNT tokens whose replay is SRC. -/
def Obligations.ReplayOfTheTokensIsTheInput : Prop :=
  ∀ s t : State, exec .lzMatch s = .next t → t.status.errcode = .none →
    ∃ toks : List Token, t.tokcnt.toNat = toks.length ∧
      Memory.readBytes t.dmem s.dstAddr.toNat (10 * toks.length) = toks.flatMap Token.record ∧
      replay toks [] = srcBytes s

/-! ### Host accesses wider than a byte (spec/20_memory.md R67) -/

/-- A host write of an n-byte value and a host read of n bytes (R67(b), R61): as their bytes in little-endian order, they store
the value and give it back, and change no other byte. -/
def Obligations.WideHostAccessesAreLittleEndian : Prop :=
  ∀ (s : State) (a n v : Nat) (rest : List HostOp), s.busy = false → a + n ≤ s.params.dmemSize →
    s.hostOps = memwWideOps a n v ++ memrOps a n ++ rest →
    ∃ t, Host.Core.run Sys2Proof.core (n + n) s = .next t ∧
      t = { s with dmem := t.dmem, hostOps := rest, delay := t.delay, seen := t.seen } ∧
      memRead t.dmem a n = v % 256 ^ n ∧ SameOutside s.dmem t.dmem a n ∧ wideValue n t.seen = v % 256 ^ n
end

