-- ==== Sys2Proof/Laws/Memory.lean ====
section
/-! SUPPORT. DMEM: a read after a write, the canonical form, ranges of bytes, little-endian values, and the 256-entry tables. -/

namespace Sys2Proof.Machine

/-! ### One byte -/

@[simp] theorem find_nil (a : Nat) : Memory.find [] a = none := rfl
@[simp] theorem read_nil (a : Nat) : Memory.read [] a = unlisted a := rfl

theorem find_write (m : Memory) (a x : Nat) (b : Byte) :
    Memory.find (Memory.write m a b) x = if x = a then some b else Memory.find m x := by
  induction m with
  | nil => simp [Memory.write, Memory.find, eq_comm]
  | cons c m ih =>
    unfold Memory.write
    split
    · simp [Memory.find, eq_comm (a := x)]
    · split
      · rename_i h
        subst h
        by_cases hx : c.1 = x
        · simp [Memory.find, hx]
        · simp [Memory.find, hx, Ne.symm hx]
      · rename_i h
        by_cases hx : c.1 = x
        · have : x ≠ a := fun e => h (by omega)
          simp [Memory.find, hx, this]
        · simp [Memory.find, hx, ih]

theorem read_write (m : Memory) (a x : Nat) (b : Byte) :
    Memory.read (Memory.write m a b) x = if x = a then b else Memory.read m x := by
  unfold Memory.read
  rw [find_write]
  split <;> rfl

/-- A read after a write to the same address gives the byte written. -/
@[simp] theorem read_write_same (m : Memory) (a : Nat) (b : Byte) : Memory.read (Memory.write m a b) a = b := by
  rw [read_write, if_pos rfl]

/-- A write leaves every other address alone. -/
theorem read_write_other (m : Memory) {a x : Nat} (b : Byte) (h : x ≠ a) :
    Memory.read (Memory.write m a b) x = Memory.read m x := by rw [read_write, if_neg h]

/-- A write bounded by DMEM_SIZE changes one byte, where it exists. -/
theorem read_writeExisting (size : Nat) (m : Memory) (a x : Nat) (b : Byte) :
    Memory.read (Memory.writeExisting size m a b) x = if x = a ∧ a < size then b else Memory.read m x := by
  unfold Memory.writeExisting
  split
  · rename_i h; simp [read_write, h]
  · rename_i h; simp [h]

theorem writeExisting_of_lt {size a : Nat} (m : Memory) (b : Byte) (h : a < size) :
    Memory.writeExisting size m a b = Memory.write m a b := if_pos h

/-! ### The canonical form -/

theorem mem_write {m : Memory} {a : Nat} {b : Byte} {c : Host.Cell} (h : c ∈ Memory.write m a b) : c = (a, b) ∨ c ∈ m := by
  induction m with
  | nil => exact .inl (by simpa [Memory.write] using h)
  | cons d m ih =>
    unfold Memory.write at h
    split at h
    · exact (List.mem_cons.1 h).imp_right id
    · split at h
      · exact (List.mem_cons.1 h).imp_right (List.mem_cons_of_mem _)
      · rcases List.mem_cons.1 h with rfl | h
        · exact .inr List.mem_cons_self
        · exact (ih h).imp_right (List.mem_cons_of_mem _)

/-- A write keeps the canonical form. -/
theorem write_wf {m : Memory} (a : Nat) (b : Byte) (h : Memory.wf m) : Memory.wf (Memory.write m a b) := by
  induction m with
  | nil => simp [Memory.write]
  | cons d m ih =>
    obtain ⟨hd, hm⟩ := List.pairwise_cons.1 h
    unfold Memory.write
    split
    · rename_i hlt
      refine List.pairwise_cons.2 ⟨fun c hc => ?_, h⟩
      rcases List.mem_cons.1 hc with rfl | hc
      · exact hlt
      · exact Nat.lt_trans hlt (hd c hc)
    · split
      · rename_i _ he
        exact List.pairwise_cons.2 ⟨fun c hc => he ▸ hd c hc, hm⟩
      · refine List.pairwise_cons.2 ⟨fun c hc => ?_, ih hm⟩
        rcases mem_write hc with rfl | hc
        · show d.1 < a
          omega
        · exact hd c hc

/-- A write to an address that exists lists only addresses that exist. -/
theorem write_below {m : Memory} {a size : Nat} (b : Byte) (h : Memory.below m size) (ha : a < size) :
    Memory.below (Memory.write m a b) size := by
  intro c hc
  rcases mem_write hc with rfl | hc
  · exact ha
  · exact h c hc

theorem writeExisting_wf {m : Memory} (size a : Nat) (b : Byte) (h : Memory.wf m) :
    Memory.wf (Memory.writeExisting size m a b) := by
  unfold Memory.writeExisting
  split
  · exact write_wf a b h
  · exact h

theorem writeExisting_below {m : Memory} {size : Nat} (a : Nat) (b : Byte) (h : Memory.below m size) :
    Memory.below (Memory.writeExisting size m a b) size := by
  unfold Memory.writeExisting
  split
  · rename_i ha; exact write_below b h ha
  · exact h

theorem find_of_lt {m : Memory} {a : Nat} (h : ∀ c ∈ m, a < c.1) : Memory.find m a = none := by
  induction m with
  | nil => rfl
  | cons c m ih =>
    have hc := h c List.mem_cons_self
    rw [Memory.find, if_neg (by omega), ih (fun d hd => h d (List.mem_cons_of_mem _ hd))]

/-- Memories in the canonical form that list the same byte at every address are the same list. -/
theorem wf_ext {m n : Memory} (hm : Memory.wf m) (hn : Memory.wf n) (h : ∀ a, Memory.find m a = Memory.find n a) : m = n := by
  induction m generalizing n with
  | nil =>
    cases n with
    | nil => rfl
    | cons d n => simpa [Memory.find] using h d.1
  | cons c m ih =>
    cases n with
    | nil => simpa [Memory.find] using h c.1
    | cons d n =>
      obtain ⟨hc, hm'⟩ := List.pairwise_cons.1 hm
      obtain ⟨hd, hn'⟩ := List.pairwise_cons.1 hn
      have e1 : c.1 = d.1 := by
        rcases Nat.lt_trichotomy c.1 d.1 with hlt | he | hgt
        · have := h c.1
          rw [Memory.find, if_pos rfl, find_of_lt (fun x hx => (List.mem_cons.1 hx).elim (fun e => e ▸ hlt)
            (fun hx => Nat.lt_trans hlt (hd x hx)))] at this
          cases this
        · exact he
        · have := h d.1
          rw [Memory.find, if_neg (by omega), Memory.find, if_pos rfl, find_of_lt (fun x hx => Nat.lt_trans hgt (hc x hx))] at this
          cases this
      have e2 : c.2 = d.2 := by simpa [Memory.find, e1] using h c.1
      obtain rfl : c = d := Prod.ext e1 e2
      congr 1
      refine ih hm' hn' (fun a => ?_)
      by_cases ha : c.1 = a
      · subst ha
        rw [find_of_lt hc, find_of_lt hd]
      · simpa [Memory.find, ha] using h a

/-! ### Ranges of bytes -/

theorem writeBytes_wf {m : Memory} (a : Nat) (bs : List Byte) (h : Memory.wf m) :
    Memory.wf (Memory.writeBytes m a bs) := by
  induction bs generalizing m a with
  | nil => exact h
  | cons b bs ih => exact ih (a + 1) (write_wf a b h)

theorem writeBytes_below {m : Memory} {a size : Nat} (bs : List Byte) (h : Memory.below m size)
    (ha : bs = [] ∨ a + bs.length ≤ size) : Memory.below (Memory.writeBytes m a bs) size := by
  induction bs generalizing m a with
  | nil => exact h
  | cons b bs ih =>
    have hl : a + (bs.length + 1) ≤ size := by simpa using ha
    exact ih (write_below b h (by omega)) (.inr (by omega))

/-- A write of bytes leaves every address outside its range alone. -/
theorem read_writeBytes_outside (m : Memory) {a x : Nat} (bs : List Byte) (h : x < a ∨ a + bs.length ≤ x) :
    Memory.read (Memory.writeBytes m a bs) x = Memory.read m x := by
  induction bs generalizing m a with
  | nil => rfl
  | cons b bs ih =>
    have hl : x < a ∨ a + (bs.length + 1) ≤ x := by simpa using h
    rw [Memory.writeBytes, ih _ (by omega), read_write_other m b (by omega)]

/-- A read in the range of a write of bytes gives the byte written. -/
theorem read_writeBytes_inside (m : Memory) (a i : Nat) (bs : List Byte) (h : i < bs.length) :
    Memory.read (Memory.writeBytes m a bs) (a + i) = bs[i] := by
  induction bs generalizing m a i with
  | nil => simp at h
  | cons b bs ih =>
    cases i with
    | zero =>
      rw [Memory.writeBytes, read_writeBytes_outside _ bs (.inl (by omega))]
      simp
    | succ i =>
      have := ih (Memory.write m a b) (a + 1) i (by simpa using h)
      rw [Memory.writeBytes, show a + (i + 1) = a + 1 + i by omega, this]
      simp

@[simp] theorem readBytes_length (m : Memory) (a n : Nat) : (Memory.readBytes m a n).length = n := by
  induction n generalizing a with
  | zero => rfl
  | succ n ih => simp [Memory.readBytes, ih]

theorem readBytes_getElem (m : Memory) (a n i : Nat) (h : i < (Memory.readBytes m a n).length) :
    (Memory.readBytes m a n)[i] = Memory.read m (a + i) := by
  induction n generalizing a i with
  | zero => simp [Memory.readBytes] at h
  | succ n ih =>
    cases i with
    | zero => simp [Memory.readBytes]
    | succ i =>
      simp only [Memory.readBytes, List.getElem_cons_succ]
      rw [ih (a + 1) i (by simpa using h)]
      congr 1
      omega

/-- What readBytes reads depends on the bytes of its range only. -/
theorem readBytes_congr {m m' : Memory} {a n : Nat}
    (h : ∀ x, a ≤ x → x < a + n → Memory.read m' x = Memory.read m x) :
    Memory.readBytes m' a n = Memory.readBytes m a n := by
  induction n generalizing a with
  | zero => rfl
  | succ n ih =>
    rw [Memory.readBytes, Memory.readBytes, h a (by omega) (by omega), ih (fun x hx hx' => h x (by omega) (by omega))]

/-- The bytes written are the bytes read back. -/
theorem readBytes_writeBytes (m : Memory) (a : Nat) (bs : List Byte) :
    Memory.readBytes (Memory.writeBytes m a bs) a bs.length = bs := by
  refine List.ext_getElem (by simp) (fun i h h' => ?_)
  rw [readBytes_getElem, read_writeBytes_inside m a i bs h']

@[simp] theorem freeBytes_length (k n : Nat) : (freeBytes k n).length = n := by
  induction n generalizing k with
  | zero => rfl
  | succ n ih => simp [freeBytes, ih]

/-! ### Little-endian values -/

@[simp] theorem leBytes_length (n v : Nat) : (leBytes n v).length = n := by
  induction n generalizing v with
  | zero => rfl
  | succ n ih => simp [leBytes, ih]

/-- A value that fits is read back from its little-endian bytes. -/
theorem leValue_leBytes (n v : Nat) (h : v < 256 ^ n) : leValue (leBytes n v) = v := by
  induction n generalizing v with
  | zero => simp at h; simp [leBytes, leValue, h]
  | succ n ih =>
    have hv : v / 256 < 256 ^ n := by rw [pow_succ] at h; omega
    simp only [leBytes, leValue, ih _ hv, BitVec.toNat_ofNat]
    omega

/-- The little-endian bytes of a value read from bytes are those bytes. -/
theorem leBytes_leValue (bs : List Byte) : leBytes bs.length (leValue bs) = bs := by
  induction bs with
  | nil => rfl
  | cons b bs ih =>
    have hb := b.isLt
    have h1 : (b.toNat + 256 * leValue bs) / 256 = leValue bs := by omega
    simp only [List.length_cons, leBytes, leValue, h1, ih]
    congr 1
    apply BitVec.eq_of_toNat_eq
    simp only [BitVec.toNat_ofNat]
    omega

theorem leValue_lt (bs : List Byte) : leValue bs < 256 ^ bs.length := by
  induction bs with
  | nil => simp [leValue]
  | cons b bs ih =>
    have hb := b.isLt
    simp only [leValue, List.length_cons, pow_succ]
    omega

/-! ### Tables -/

@[simp] theorem allBytes_length : allBytes.length = 256 := by simp [allBytes]

theorem mem_allBytes (b : Byte) : b ∈ allBytes :=
  List.mem_map.2 ⟨b.toNat, by simpa using b.isLt, by simp⟩

theorem allBytes_nodup : allBytes.Nodup := by decide +kernel

/-- The entry of a table made from a function. -/
@[simp] theorem entry_tabulate {α : Type} (f : Byte → α) (b : Byte) : entry (tabulate f) b = f b := by
  simp [entry, tabulate, allBytes]

/-- Two tables with the same entries are equal. -/
theorem table_ext {α : Type} {t u : Vector α 256} (h : ∀ b, entry t b = entry u b) : t = u := by
  refine Vector.ext (fun i hi => ?_)
  have := h (BitVec.ofNat 8 i)
  simpa [entry, Nat.mod_eq_of_lt hi] using this

@[simp] theorem entry_replicate {α : Type} (x : α) (b : Byte) : entry (Vector.replicate 256 x) b = x := by
  simp [entry]

/-! ### Bit streams -/

@[simp] theorem streamBits_length (m : Memory) (base k n : Nat) : (streamBits m base k n).length = n := by
  induction n generalizing k with
  | zero => rfl
  | succ n ih => simp [streamBits, ih]

theorem streamBits_getElem (m : Memory) (base k n i : Nat) (h : i < (streamBits m base k n).length) :
    (streamBits m base k n)[i] = streamBit m base (k + i) := by
  induction n generalizing k i with
  | zero => simp [streamBits] at h
  | succ n ih =>
    cases i with
    | zero => simp [streamBits]
    | succ i =>
      simp only [streamBits, List.getElem_cons_succ]
      rw [ih (k + 1) i (by simpa using h)]
      congr 1
      omega

@[simp] theorem readBits_length (size : Nat) (m : Memory) (base k d n : Nat) : (readBits size m base k d n).length = n := by
  induction n generalizing k d with
  | zero => rfl
  | succ n ih => simp [readBits, ih]

/-- Where the bytes exist, the bits read are the stream's. -/
theorem readBits_eq_streamBits {size base k n : Nat} (m : Memory) (d : Nat) (h : base + ceil8 (k + n) ≤ size) :
    readBits size m base k d n = streamBits m base k n := by
  induction n generalizing k d with
  | zero => rfl
  | succ n ih =>
    have hk : base + k / 8 < size := by unfold ceil8 at h; omega
    rw [readBits, streamBits, if_pos hk, ih (d + 1) (by rw [show k + 1 + n = k + (n + 1) by omega]; exact h)]

/-- The value of bits after one more bit. -/
theorem bitsValue_append (bs : List Bool) (b : Bool) : bitsValue (bs ++ [b]) = 2 * bitsValue bs + b.toNat := by
  simp [bitsValue]

theorem bitsValue_lt (bs : List Bool) : bitsValue bs < 2 ^ bs.length := by
  induction bs using List.reverseRecOn with
  | nil => simp [bitsValue]
  | append_singleton bs b ih =>
    have : b.toNat ≤ 1 := Bool.toNat_le b
    rw [bitsValue_append, List.length_append, List.length_singleton, pow_succ]
    omega

end Sys2Proof.Machine
end

