-- ==== Sys2Proof/Laws/State.lean ====
section
/-! SUPPORT. One lemma for each field of State and each named update, so that no proof unfolds a record update. -/

namespace Sys2Proof.Machine

/-! ### latch -/

@[simp] theorem latch_params (w : Word) (s : State) : (latch w s).params = s.params := rfl
@[simp] theorem latch_emptyErr (w : Word) (s : State) : (latch w s).emptyErr = s.emptyErr := rfl
@[simp] theorem latch_status (w : Word) (s : State) : (latch w s).status = { s.status with done := false, err := false, errcode := .none, lastop := w.extractLsb' 0 8 } := rfl
@[simp] theorem latch_pending (w : Word) (s : State) : (latch w s).pending = some w := rfl
@[simp] theorem latch_srcAddr (w : Word) (s : State) : (latch w s).srcAddr = s.srcAddr := rfl
@[simp] theorem latch_srcLen (w : Word) (s : State) : (latch w s).srcLen = s.srcLen := rfl
@[simp] theorem latch_dstAddr (w : Word) (s : State) : (latch w s).dstAddr = s.dstAddr := rfl
@[simp] theorem latch_dstCap (w : Word) (s : State) : (latch w s).dstCap = s.dstCap := rfl
@[simp] theorem latch_outLen (w : Word) (s : State) : (latch w s).outLen = s.outLen := rfl
@[simp] theorem latch_bitcnt (w : Word) (s : State) : (latch w s).bitcnt = s.bitcnt := rfl
@[simp] theorem latch_rdpos (w : Word) (s : State) : (latch w s).rdpos = s.rdpos := rfl
@[simp] theorem latch_arg (w : Word) (s : State) : (latch w s).arg = s.arg := rfl
@[simp] theorem latch_result (w : Word) (s : State) : (latch w s).result = s.result := rfl
@[simp] theorem latch_lzWindow (w : Word) (s : State) : (latch w s).lzWindow = s.lzWindow := rfl
@[simp] theorem latch_lzLookahead (w : Word) (s : State) : (latch w s).lzLookahead = s.lzLookahead := rfl
@[simp] theorem latch_tokcnt (w : Word) (s : State) : (latch w s).tokcnt = s.tokcnt := rfl
@[simp] theorem latch_nsym (w : Word) (s : State) : (latch w s).nsym = s.nsym := rfl
@[simp] theorem latch_freq (w : Word) (s : State) : (latch w s).freq = s.freq := rfl
@[simp] theorem latch_tree (w : Word) (s : State) : (latch w s).tree = s.tree := rfl
@[simp] theorem latch_root (w : Word) (s : State) : (latch w s).root = s.root := rfl
@[simp] theorem latch_treeValid (w : Word) (s : State) : (latch w s).treeValid = s.treeValid := rfl
@[simp] theorem latch_code (w : Word) (s : State) : (latch w s).code = s.code := rfl
@[simp] theorem latch_wbase (w : Word) (s : State) : (latch w s).wbase = s.wbase := rfl
@[simp] theorem latch_wcap (w : Word) (s : State) : (latch w s).wcap = s.wcap := rfl
@[simp] theorem latch_wpos (w : Word) (s : State) : (latch w s).wpos = s.wpos := rfl
@[simp] theorem latch_pbuf (w : Word) (s : State) : (latch w s).pbuf = s.pbuf := rfl
@[simp] theorem latch_rbase (w : Word) (s : State) : (latch w s).rbase = s.rbase := rfl
@[simp] theorem latch_rlim (w : Word) (s : State) : (latch w s).rlim = s.rlim := rfl
@[simp] theorem latch_dmem (w : Word) (s : State) : (latch w s).dmem = s.dmem := rfl
@[simp] theorem latch_draws (w : Word) (s : State) : (latch w s).draws = s.draws := rfl
@[simp] theorem latch_hostOps (w : Word) (s : State) : (latch w s).hostOps = s.hostOps := rfl
@[simp] theorem latch_delay (w : Word) (s : State) : (latch w s).delay = s.delay := rfl
@[simp] theorem latch_schedule (w : Word) (s : State) : (latch w s).schedule = s.schedule := rfl
@[simp] theorem latch_seen (w : Word) (s : State) : (latch w s).seen = s.seen := rfl

/-! ### issue -/

@[simp] theorem issue_params (w : Word) (s : State) : (issue w s).params = s.params := rfl
@[simp] theorem issue_emptyErr (w : Word) (s : State) : (issue w s).emptyErr = s.emptyErr := rfl
@[simp] theorem issue_status (w : Word) (s : State) : (issue w s).status = { s.status with done := false, err := false, errcode := .none, lastop := w.extractLsb' 0 8 } := rfl
@[simp] theorem issue_pending (w : Word) (s : State) : (issue w s).pending = some w := rfl
@[simp] theorem issue_srcAddr (w : Word) (s : State) : (issue w s).srcAddr = s.srcAddr := rfl
@[simp] theorem issue_srcLen (w : Word) (s : State) : (issue w s).srcLen = s.srcLen := rfl
@[simp] theorem issue_dstAddr (w : Word) (s : State) : (issue w s).dstAddr = s.dstAddr := rfl
@[simp] theorem issue_dstCap (w : Word) (s : State) : (issue w s).dstCap = s.dstCap := rfl
@[simp] theorem issue_outLen (w : Word) (s : State) : (issue w s).outLen = s.outLen := rfl
@[simp] theorem issue_bitcnt (w : Word) (s : State) : (issue w s).bitcnt = s.bitcnt := rfl
@[simp] theorem issue_rdpos (w : Word) (s : State) : (issue w s).rdpos = s.rdpos := rfl
@[simp] theorem issue_arg (w : Word) (s : State) : (issue w s).arg = s.arg := rfl
@[simp] theorem issue_result (w : Word) (s : State) : (issue w s).result = s.result := rfl
@[simp] theorem issue_lzWindow (w : Word) (s : State) : (issue w s).lzWindow = s.lzWindow := rfl
@[simp] theorem issue_lzLookahead (w : Word) (s : State) : (issue w s).lzLookahead = s.lzLookahead := rfl
@[simp] theorem issue_tokcnt (w : Word) (s : State) : (issue w s).tokcnt = s.tokcnt := rfl
@[simp] theorem issue_nsym (w : Word) (s : State) : (issue w s).nsym = s.nsym := rfl
@[simp] theorem issue_freq (w : Word) (s : State) : (issue w s).freq = s.freq := rfl
@[simp] theorem issue_tree (w : Word) (s : State) : (issue w s).tree = s.tree := rfl
@[simp] theorem issue_root (w : Word) (s : State) : (issue w s).root = s.root := rfl
@[simp] theorem issue_treeValid (w : Word) (s : State) : (issue w s).treeValid = s.treeValid := rfl
@[simp] theorem issue_code (w : Word) (s : State) : (issue w s).code = s.code := rfl
@[simp] theorem issue_wbase (w : Word) (s : State) : (issue w s).wbase = s.wbase := rfl
@[simp] theorem issue_wcap (w : Word) (s : State) : (issue w s).wcap = s.wcap := rfl
@[simp] theorem issue_wpos (w : Word) (s : State) : (issue w s).wpos = s.wpos := rfl
@[simp] theorem issue_pbuf (w : Word) (s : State) : (issue w s).pbuf = s.pbuf := rfl
@[simp] theorem issue_rbase (w : Word) (s : State) : (issue w s).rbase = s.rbase := rfl
@[simp] theorem issue_rlim (w : Word) (s : State) : (issue w s).rlim = s.rlim := rfl
@[simp] theorem issue_dmem (w : Word) (s : State) : (issue w s).dmem = s.dmem := rfl
@[simp] theorem issue_draws (w : Word) (s : State) : (issue w s).draws = s.draws := rfl
@[simp] theorem issue_hostOps (w : Word) (s : State) : (issue w s).hostOps = s.hostOps := rfl
@[simp] theorem issue_delay (w : Word) (s : State) : (issue w s).delay = s.schedule.headD 0 := rfl
@[simp] theorem issue_schedule (w : Word) (s : State) : (issue w s).schedule = s.schedule.tail := rfl
@[simp] theorem issue_seen (w : Word) (s : State) : (issue w s).seen = s.seen := rfl

/-! ### complete -/

@[simp] theorem complete_params (c : ErrCode) (s : State) : (complete c s).params = s.params := rfl
@[simp] theorem complete_emptyErr (c : ErrCode) (s : State) : (complete c s).emptyErr = s.emptyErr := rfl
@[simp] theorem complete_status (c : ErrCode) (s : State) : (complete c s).status = { s.status with done := true, err := c.isError, anyerr := s.status.anyerr || c.isError, errcode := c } := rfl
@[simp] theorem complete_pending (c : ErrCode) (s : State) : (complete c s).pending = none := rfl
@[simp] theorem complete_srcAddr (c : ErrCode) (s : State) : (complete c s).srcAddr = s.srcAddr := rfl
@[simp] theorem complete_srcLen (c : ErrCode) (s : State) : (complete c s).srcLen = s.srcLen := rfl
@[simp] theorem complete_dstAddr (c : ErrCode) (s : State) : (complete c s).dstAddr = s.dstAddr := rfl
@[simp] theorem complete_dstCap (c : ErrCode) (s : State) : (complete c s).dstCap = s.dstCap := rfl
@[simp] theorem complete_outLen (c : ErrCode) (s : State) : (complete c s).outLen = s.outLen := rfl
@[simp] theorem complete_bitcnt (c : ErrCode) (s : State) : (complete c s).bitcnt = s.bitcnt := rfl
@[simp] theorem complete_rdpos (c : ErrCode) (s : State) : (complete c s).rdpos = s.rdpos := rfl
@[simp] theorem complete_arg (c : ErrCode) (s : State) : (complete c s).arg = s.arg := rfl
@[simp] theorem complete_result (c : ErrCode) (s : State) : (complete c s).result = s.result := rfl
@[simp] theorem complete_lzWindow (c : ErrCode) (s : State) : (complete c s).lzWindow = s.lzWindow := rfl
@[simp] theorem complete_lzLookahead (c : ErrCode) (s : State) : (complete c s).lzLookahead = s.lzLookahead := rfl
@[simp] theorem complete_tokcnt (c : ErrCode) (s : State) : (complete c s).tokcnt = s.tokcnt := rfl
@[simp] theorem complete_nsym (c : ErrCode) (s : State) : (complete c s).nsym = s.nsym := rfl
@[simp] theorem complete_freq (c : ErrCode) (s : State) : (complete c s).freq = s.freq := rfl
@[simp] theorem complete_tree (c : ErrCode) (s : State) : (complete c s).tree = s.tree := rfl
@[simp] theorem complete_root (c : ErrCode) (s : State) : (complete c s).root = s.root := rfl
@[simp] theorem complete_treeValid (c : ErrCode) (s : State) : (complete c s).treeValid = s.treeValid := rfl
@[simp] theorem complete_code (c : ErrCode) (s : State) : (complete c s).code = s.code := rfl
@[simp] theorem complete_wbase (c : ErrCode) (s : State) : (complete c s).wbase = s.wbase := rfl
@[simp] theorem complete_wcap (c : ErrCode) (s : State) : (complete c s).wcap = s.wcap := rfl
@[simp] theorem complete_wpos (c : ErrCode) (s : State) : (complete c s).wpos = s.wpos := rfl
@[simp] theorem complete_pbuf (c : ErrCode) (s : State) : (complete c s).pbuf = s.pbuf := rfl
@[simp] theorem complete_rbase (c : ErrCode) (s : State) : (complete c s).rbase = s.rbase := rfl
@[simp] theorem complete_rlim (c : ErrCode) (s : State) : (complete c s).rlim = s.rlim := rfl
@[simp] theorem complete_dmem (c : ErrCode) (s : State) : (complete c s).dmem = s.dmem := rfl
@[simp] theorem complete_draws (c : ErrCode) (s : State) : (complete c s).draws = s.draws := rfl
@[simp] theorem complete_hostOps (c : ErrCode) (s : State) : (complete c s).hostOps = s.hostOps := rfl
@[simp] theorem complete_delay (c : ErrCode) (s : State) : (complete c s).delay = s.delay := rfl
@[simp] theorem complete_schedule (c : ErrCode) (s : State) : (complete c s).schedule = s.schedule := rfl
@[simp] theorem complete_seen (c : ErrCode) (s : State) : (complete c s).seen = s.seen := rfl

/-! ### havocDmem -/

@[simp] theorem havocDmem_params (a n : Nat) (s : State) : (havocDmem a n s).params = s.params := rfl
@[simp] theorem havocDmem_emptyErr (a n : Nat) (s : State) : (havocDmem a n s).emptyErr = s.emptyErr := rfl
@[simp] theorem havocDmem_status (a n : Nat) (s : State) : (havocDmem a n s).status = s.status := rfl
@[simp] theorem havocDmem_pending (a n : Nat) (s : State) : (havocDmem a n s).pending = s.pending := rfl
@[simp] theorem havocDmem_srcAddr (a n : Nat) (s : State) : (havocDmem a n s).srcAddr = s.srcAddr := rfl
@[simp] theorem havocDmem_srcLen (a n : Nat) (s : State) : (havocDmem a n s).srcLen = s.srcLen := rfl
@[simp] theorem havocDmem_dstAddr (a n : Nat) (s : State) : (havocDmem a n s).dstAddr = s.dstAddr := rfl
@[simp] theorem havocDmem_dstCap (a n : Nat) (s : State) : (havocDmem a n s).dstCap = s.dstCap := rfl
@[simp] theorem havocDmem_outLen (a n : Nat) (s : State) : (havocDmem a n s).outLen = s.outLen := rfl
@[simp] theorem havocDmem_bitcnt (a n : Nat) (s : State) : (havocDmem a n s).bitcnt = s.bitcnt := rfl
@[simp] theorem havocDmem_rdpos (a n : Nat) (s : State) : (havocDmem a n s).rdpos = s.rdpos := rfl
@[simp] theorem havocDmem_arg (a n : Nat) (s : State) : (havocDmem a n s).arg = s.arg := rfl
@[simp] theorem havocDmem_result (a n : Nat) (s : State) : (havocDmem a n s).result = s.result := rfl
@[simp] theorem havocDmem_lzWindow (a n : Nat) (s : State) : (havocDmem a n s).lzWindow = s.lzWindow := rfl
@[simp] theorem havocDmem_lzLookahead (a n : Nat) (s : State) : (havocDmem a n s).lzLookahead = s.lzLookahead := rfl
@[simp] theorem havocDmem_tokcnt (a n : Nat) (s : State) : (havocDmem a n s).tokcnt = s.tokcnt := rfl
@[simp] theorem havocDmem_nsym (a n : Nat) (s : State) : (havocDmem a n s).nsym = s.nsym := rfl
@[simp] theorem havocDmem_freq (a n : Nat) (s : State) : (havocDmem a n s).freq = s.freq := rfl
@[simp] theorem havocDmem_tree (a n : Nat) (s : State) : (havocDmem a n s).tree = s.tree := rfl
@[simp] theorem havocDmem_root (a n : Nat) (s : State) : (havocDmem a n s).root = s.root := rfl
@[simp] theorem havocDmem_treeValid (a n : Nat) (s : State) : (havocDmem a n s).treeValid = s.treeValid := rfl
@[simp] theorem havocDmem_code (a n : Nat) (s : State) : (havocDmem a n s).code = s.code := rfl
@[simp] theorem havocDmem_wbase (a n : Nat) (s : State) : (havocDmem a n s).wbase = s.wbase := rfl
@[simp] theorem havocDmem_wcap (a n : Nat) (s : State) : (havocDmem a n s).wcap = s.wcap := rfl
@[simp] theorem havocDmem_wpos (a n : Nat) (s : State) : (havocDmem a n s).wpos = s.wpos := rfl
@[simp] theorem havocDmem_pbuf (a n : Nat) (s : State) : (havocDmem a n s).pbuf = s.pbuf := rfl
@[simp] theorem havocDmem_rbase (a n : Nat) (s : State) : (havocDmem a n s).rbase = s.rbase := rfl
@[simp] theorem havocDmem_rlim (a n : Nat) (s : State) : (havocDmem a n s).rlim = s.rlim := rfl
@[simp] theorem havocDmem_dmem (a n : Nat) (s : State) : (havocDmem a n s).dmem = Memory.writeBytes s.dmem a (freeBytes s.draws n) := rfl
@[simp] theorem havocDmem_draws (a n : Nat) (s : State) : (havocDmem a n s).draws = s.draws + n := rfl
@[simp] theorem havocDmem_hostOps (a n : Nat) (s : State) : (havocDmem a n s).hostOps = s.hostOps := rfl
@[simp] theorem havocDmem_delay (a n : Nat) (s : State) : (havocDmem a n s).delay = s.delay := rfl
@[simp] theorem havocDmem_schedule (a n : Nat) (s : State) : (havocDmem a n s).schedule = s.schedule := rfl
@[simp] theorem havocDmem_seen (a n : Nat) (s : State) : (havocDmem a n s).seen = s.seen := rfl

/-! ### openWriter -/

@[simp] theorem openWriter_params (b c : Word) (s : State) : (openWriter b c s).params = s.params := rfl
@[simp] theorem openWriter_emptyErr (b c : Word) (s : State) : (openWriter b c s).emptyErr = s.emptyErr := rfl
@[simp] theorem openWriter_status (b c : Word) (s : State) : (openWriter b c s).status = s.status := rfl
@[simp] theorem openWriter_pending (b c : Word) (s : State) : (openWriter b c s).pending = s.pending := rfl
@[simp] theorem openWriter_srcAddr (b c : Word) (s : State) : (openWriter b c s).srcAddr = s.srcAddr := rfl
@[simp] theorem openWriter_srcLen (b c : Word) (s : State) : (openWriter b c s).srcLen = s.srcLen := rfl
@[simp] theorem openWriter_dstAddr (b c : Word) (s : State) : (openWriter b c s).dstAddr = s.dstAddr := rfl
@[simp] theorem openWriter_dstCap (b c : Word) (s : State) : (openWriter b c s).dstCap = s.dstCap := rfl
@[simp] theorem openWriter_outLen (b c : Word) (s : State) : (openWriter b c s).outLen = s.outLen := rfl
@[simp] theorem openWriter_bitcnt (b c : Word) (s : State) : (openWriter b c s).bitcnt = s.bitcnt := rfl
@[simp] theorem openWriter_rdpos (b c : Word) (s : State) : (openWriter b c s).rdpos = s.rdpos := rfl
@[simp] theorem openWriter_arg (b c : Word) (s : State) : (openWriter b c s).arg = s.arg := rfl
@[simp] theorem openWriter_result (b c : Word) (s : State) : (openWriter b c s).result = s.result := rfl
@[simp] theorem openWriter_lzWindow (b c : Word) (s : State) : (openWriter b c s).lzWindow = s.lzWindow := rfl
@[simp] theorem openWriter_lzLookahead (b c : Word) (s : State) : (openWriter b c s).lzLookahead = s.lzLookahead := rfl
@[simp] theorem openWriter_tokcnt (b c : Word) (s : State) : (openWriter b c s).tokcnt = s.tokcnt := rfl
@[simp] theorem openWriter_nsym (b c : Word) (s : State) : (openWriter b c s).nsym = s.nsym := rfl
@[simp] theorem openWriter_freq (b c : Word) (s : State) : (openWriter b c s).freq = s.freq := rfl
@[simp] theorem openWriter_tree (b c : Word) (s : State) : (openWriter b c s).tree = s.tree := rfl
@[simp] theorem openWriter_root (b c : Word) (s : State) : (openWriter b c s).root = s.root := rfl
@[simp] theorem openWriter_treeValid (b c : Word) (s : State) : (openWriter b c s).treeValid = s.treeValid := rfl
@[simp] theorem openWriter_code (b c : Word) (s : State) : (openWriter b c s).code = s.code := rfl
@[simp] theorem openWriter_wbase (b c : Word) (s : State) : (openWriter b c s).wbase = b := rfl
@[simp] theorem openWriter_wcap (b c : Word) (s : State) : (openWriter b c s).wcap = c := rfl
@[simp] theorem openWriter_wpos (b c : Word) (s : State) : (openWriter b c s).wpos = 0 := rfl
@[simp] theorem openWriter_pbuf (b c : Word) (s : State) : (openWriter b c s).pbuf = 0 := rfl
@[simp] theorem openWriter_rbase (b c : Word) (s : State) : (openWriter b c s).rbase = s.rbase := rfl
@[simp] theorem openWriter_rlim (b c : Word) (s : State) : (openWriter b c s).rlim = s.rlim := rfl
@[simp] theorem openWriter_dmem (b c : Word) (s : State) : (openWriter b c s).dmem = s.dmem := rfl
@[simp] theorem openWriter_draws (b c : Word) (s : State) : (openWriter b c s).draws = s.draws := rfl
@[simp] theorem openWriter_hostOps (b c : Word) (s : State) : (openWriter b c s).hostOps = s.hostOps := rfl
@[simp] theorem openWriter_delay (b c : Word) (s : State) : (openWriter b c s).delay = s.delay := rfl
@[simp] theorem openWriter_schedule (b c : Word) (s : State) : (openWriter b c s).schedule = s.schedule := rfl
@[simp] theorem openWriter_seen (b c : Word) (s : State) : (openWriter b c s).seen = s.seen := rfl

/-! ### openReader -/

@[simp] theorem openReader_params (b : Word) (l : DWord) (s : State) : (openReader b l s).params = s.params := rfl
@[simp] theorem openReader_emptyErr (b : Word) (l : DWord) (s : State) : (openReader b l s).emptyErr = s.emptyErr := rfl
@[simp] theorem openReader_status (b : Word) (l : DWord) (s : State) : (openReader b l s).status = s.status := rfl
@[simp] theorem openReader_pending (b : Word) (l : DWord) (s : State) : (openReader b l s).pending = s.pending := rfl
@[simp] theorem openReader_srcAddr (b : Word) (l : DWord) (s : State) : (openReader b l s).srcAddr = s.srcAddr := rfl
@[simp] theorem openReader_srcLen (b : Word) (l : DWord) (s : State) : (openReader b l s).srcLen = s.srcLen := rfl
@[simp] theorem openReader_dstAddr (b : Word) (l : DWord) (s : State) : (openReader b l s).dstAddr = s.dstAddr := rfl
@[simp] theorem openReader_dstCap (b : Word) (l : DWord) (s : State) : (openReader b l s).dstCap = s.dstCap := rfl
@[simp] theorem openReader_outLen (b : Word) (l : DWord) (s : State) : (openReader b l s).outLen = s.outLen := rfl
@[simp] theorem openReader_bitcnt (b : Word) (l : DWord) (s : State) : (openReader b l s).bitcnt = s.bitcnt := rfl
@[simp] theorem openReader_rdpos (b : Word) (l : DWord) (s : State) : (openReader b l s).rdpos = 0 := rfl
@[simp] theorem openReader_arg (b : Word) (l : DWord) (s : State) : (openReader b l s).arg = s.arg := rfl
@[simp] theorem openReader_result (b : Word) (l : DWord) (s : State) : (openReader b l s).result = s.result := rfl
@[simp] theorem openReader_lzWindow (b : Word) (l : DWord) (s : State) : (openReader b l s).lzWindow = s.lzWindow := rfl
@[simp] theorem openReader_lzLookahead (b : Word) (l : DWord) (s : State) : (openReader b l s).lzLookahead = s.lzLookahead := rfl
@[simp] theorem openReader_tokcnt (b : Word) (l : DWord) (s : State) : (openReader b l s).tokcnt = s.tokcnt := rfl
@[simp] theorem openReader_nsym (b : Word) (l : DWord) (s : State) : (openReader b l s).nsym = s.nsym := rfl
@[simp] theorem openReader_freq (b : Word) (l : DWord) (s : State) : (openReader b l s).freq = s.freq := rfl
@[simp] theorem openReader_tree (b : Word) (l : DWord) (s : State) : (openReader b l s).tree = s.tree := rfl
@[simp] theorem openReader_root (b : Word) (l : DWord) (s : State) : (openReader b l s).root = s.root := rfl
@[simp] theorem openReader_treeValid (b : Word) (l : DWord) (s : State) : (openReader b l s).treeValid = s.treeValid := rfl
@[simp] theorem openReader_code (b : Word) (l : DWord) (s : State) : (openReader b l s).code = s.code := rfl
@[simp] theorem openReader_wbase (b : Word) (l : DWord) (s : State) : (openReader b l s).wbase = s.wbase := rfl
@[simp] theorem openReader_wcap (b : Word) (l : DWord) (s : State) : (openReader b l s).wcap = s.wcap := rfl
@[simp] theorem openReader_wpos (b : Word) (l : DWord) (s : State) : (openReader b l s).wpos = s.wpos := rfl
@[simp] theorem openReader_pbuf (b : Word) (l : DWord) (s : State) : (openReader b l s).pbuf = s.pbuf := rfl
@[simp] theorem openReader_rbase (b : Word) (l : DWord) (s : State) : (openReader b l s).rbase = b := rfl
@[simp] theorem openReader_rlim (b : Word) (l : DWord) (s : State) : (openReader b l s).rlim = l := rfl
@[simp] theorem openReader_dmem (b : Word) (l : DWord) (s : State) : (openReader b l s).dmem = s.dmem := rfl
@[simp] theorem openReader_draws (b : Word) (l : DWord) (s : State) : (openReader b l s).draws = s.draws := rfl
@[simp] theorem openReader_hostOps (b : Word) (l : DWord) (s : State) : (openReader b l s).hostOps = s.hostOps := rfl
@[simp] theorem openReader_delay (b : Word) (l : DWord) (s : State) : (openReader b l s).delay = s.delay := rfl
@[simp] theorem openReader_schedule (b : Word) (l : DWord) (s : State) : (openReader b l s).schedule = s.schedule := rfl
@[simp] theorem openReader_seen (b : Word) (l : DWord) (s : State) : (openReader b l s).seen = s.seen := rfl

/-! ### setFreq -/

@[simp] theorem setFreq_params (f : Vector Word 256) (n : Word) (s : State) : (setFreq f n s).params = s.params := rfl
@[simp] theorem setFreq_emptyErr (f : Vector Word 256) (n : Word) (s : State) : (setFreq f n s).emptyErr = s.emptyErr := rfl
@[simp] theorem setFreq_status (f : Vector Word 256) (n : Word) (s : State) : (setFreq f n s).status = s.status := rfl
@[simp] theorem setFreq_pending (f : Vector Word 256) (n : Word) (s : State) : (setFreq f n s).pending = s.pending := rfl
@[simp] theorem setFreq_srcAddr (f : Vector Word 256) (n : Word) (s : State) : (setFreq f n s).srcAddr = s.srcAddr := rfl
@[simp] theorem setFreq_srcLen (f : Vector Word 256) (n : Word) (s : State) : (setFreq f n s).srcLen = s.srcLen := rfl
@[simp] theorem setFreq_dstAddr (f : Vector Word 256) (n : Word) (s : State) : (setFreq f n s).dstAddr = s.dstAddr := rfl
@[simp] theorem setFreq_dstCap (f : Vector Word 256) (n : Word) (s : State) : (setFreq f n s).dstCap = s.dstCap := rfl
@[simp] theorem setFreq_outLen (f : Vector Word 256) (n : Word) (s : State) : (setFreq f n s).outLen = s.outLen := rfl
@[simp] theorem setFreq_bitcnt (f : Vector Word 256) (n : Word) (s : State) : (setFreq f n s).bitcnt = s.bitcnt := rfl
@[simp] theorem setFreq_rdpos (f : Vector Word 256) (n : Word) (s : State) : (setFreq f n s).rdpos = s.rdpos := rfl
@[simp] theorem setFreq_arg (f : Vector Word 256) (n : Word) (s : State) : (setFreq f n s).arg = s.arg := rfl
@[simp] theorem setFreq_result (f : Vector Word 256) (n : Word) (s : State) : (setFreq f n s).result = s.result := rfl
@[simp] theorem setFreq_lzWindow (f : Vector Word 256) (n : Word) (s : State) : (setFreq f n s).lzWindow = s.lzWindow := rfl
@[simp] theorem setFreq_lzLookahead (f : Vector Word 256) (n : Word) (s : State) : (setFreq f n s).lzLookahead = s.lzLookahead := rfl
@[simp] theorem setFreq_tokcnt (f : Vector Word 256) (n : Word) (s : State) : (setFreq f n s).tokcnt = s.tokcnt := rfl
@[simp] theorem setFreq_nsym (f : Vector Word 256) (n : Word) (s : State) : (setFreq f n s).nsym = n := rfl
@[simp] theorem setFreq_freq (f : Vector Word 256) (n : Word) (s : State) : (setFreq f n s).freq = f := rfl
@[simp] theorem setFreq_tree (f : Vector Word 256) (n : Word) (s : State) : (setFreq f n s).tree = [] := rfl
@[simp] theorem setFreq_root (f : Vector Word 256) (n : Word) (s : State) : (setFreq f n s).root = none := rfl
@[simp] theorem setFreq_treeValid (f : Vector Word 256) (n : Word) (s : State) : (setFreq f n s).treeValid = false := rfl
@[simp] theorem setFreq_code (f : Vector Word 256) (n : Word) (s : State) : (setFreq f n s).code = Vector.replicate 256 [] := rfl
@[simp] theorem setFreq_wbase (f : Vector Word 256) (n : Word) (s : State) : (setFreq f n s).wbase = s.wbase := rfl
@[simp] theorem setFreq_wcap (f : Vector Word 256) (n : Word) (s : State) : (setFreq f n s).wcap = s.wcap := rfl
@[simp] theorem setFreq_wpos (f : Vector Word 256) (n : Word) (s : State) : (setFreq f n s).wpos = s.wpos := rfl
@[simp] theorem setFreq_pbuf (f : Vector Word 256) (n : Word) (s : State) : (setFreq f n s).pbuf = s.pbuf := rfl
@[simp] theorem setFreq_rbase (f : Vector Word 256) (n : Word) (s : State) : (setFreq f n s).rbase = s.rbase := rfl
@[simp] theorem setFreq_rlim (f : Vector Word 256) (n : Word) (s : State) : (setFreq f n s).rlim = s.rlim := rfl
@[simp] theorem setFreq_dmem (f : Vector Word 256) (n : Word) (s : State) : (setFreq f n s).dmem = s.dmem := rfl
@[simp] theorem setFreq_draws (f : Vector Word 256) (n : Word) (s : State) : (setFreq f n s).draws = s.draws := rfl
@[simp] theorem setFreq_hostOps (f : Vector Word 256) (n : Word) (s : State) : (setFreq f n s).hostOps = s.hostOps := rfl
@[simp] theorem setFreq_delay (f : Vector Word 256) (n : Word) (s : State) : (setFreq f n s).delay = s.delay := rfl
@[simp] theorem setFreq_schedule (f : Vector Word 256) (n : Word) (s : State) : (setFreq f n s).schedule = s.schedule := rfl
@[simp] theorem setFreq_seen (f : Vector Word 256) (n : Word) (s : State) : (setFreq f n s).seen = s.seen := rfl

/-! ### putOutput -/

@[simp] theorem putOutput_params (a : Nat) (bs : List Byte) (l : Word) (s : State) : (putOutput a bs l s).params = s.params := rfl
@[simp] theorem putOutput_emptyErr (a : Nat) (bs : List Byte) (l : Word) (s : State) : (putOutput a bs l s).emptyErr = s.emptyErr := rfl
@[simp] theorem putOutput_status (a : Nat) (bs : List Byte) (l : Word) (s : State) : (putOutput a bs l s).status = s.status := rfl
@[simp] theorem putOutput_pending (a : Nat) (bs : List Byte) (l : Word) (s : State) : (putOutput a bs l s).pending = s.pending := rfl
@[simp] theorem putOutput_srcAddr (a : Nat) (bs : List Byte) (l : Word) (s : State) : (putOutput a bs l s).srcAddr = s.srcAddr := rfl
@[simp] theorem putOutput_srcLen (a : Nat) (bs : List Byte) (l : Word) (s : State) : (putOutput a bs l s).srcLen = s.srcLen := rfl
@[simp] theorem putOutput_dstAddr (a : Nat) (bs : List Byte) (l : Word) (s : State) : (putOutput a bs l s).dstAddr = s.dstAddr := rfl
@[simp] theorem putOutput_dstCap (a : Nat) (bs : List Byte) (l : Word) (s : State) : (putOutput a bs l s).dstCap = s.dstCap := rfl
@[simp] theorem putOutput_outLen (a : Nat) (bs : List Byte) (l : Word) (s : State) : (putOutput a bs l s).outLen = l := rfl
@[simp] theorem putOutput_bitcnt (a : Nat) (bs : List Byte) (l : Word) (s : State) : (putOutput a bs l s).bitcnt = s.bitcnt := rfl
@[simp] theorem putOutput_rdpos (a : Nat) (bs : List Byte) (l : Word) (s : State) : (putOutput a bs l s).rdpos = s.rdpos := rfl
@[simp] theorem putOutput_arg (a : Nat) (bs : List Byte) (l : Word) (s : State) : (putOutput a bs l s).arg = s.arg := rfl
@[simp] theorem putOutput_result (a : Nat) (bs : List Byte) (l : Word) (s : State) : (putOutput a bs l s).result = s.result := rfl
@[simp] theorem putOutput_lzWindow (a : Nat) (bs : List Byte) (l : Word) (s : State) : (putOutput a bs l s).lzWindow = s.lzWindow := rfl
@[simp] theorem putOutput_lzLookahead (a : Nat) (bs : List Byte) (l : Word) (s : State) : (putOutput a bs l s).lzLookahead = s.lzLookahead := rfl
@[simp] theorem putOutput_tokcnt (a : Nat) (bs : List Byte) (l : Word) (s : State) : (putOutput a bs l s).tokcnt = s.tokcnt := rfl
@[simp] theorem putOutput_nsym (a : Nat) (bs : List Byte) (l : Word) (s : State) : (putOutput a bs l s).nsym = s.nsym := rfl
@[simp] theorem putOutput_freq (a : Nat) (bs : List Byte) (l : Word) (s : State) : (putOutput a bs l s).freq = s.freq := rfl
@[simp] theorem putOutput_tree (a : Nat) (bs : List Byte) (l : Word) (s : State) : (putOutput a bs l s).tree = s.tree := rfl
@[simp] theorem putOutput_root (a : Nat) (bs : List Byte) (l : Word) (s : State) : (putOutput a bs l s).root = s.root := rfl
@[simp] theorem putOutput_treeValid (a : Nat) (bs : List Byte) (l : Word) (s : State) : (putOutput a bs l s).treeValid = s.treeValid := rfl
@[simp] theorem putOutput_code (a : Nat) (bs : List Byte) (l : Word) (s : State) : (putOutput a bs l s).code = s.code := rfl
@[simp] theorem putOutput_wbase (a : Nat) (bs : List Byte) (l : Word) (s : State) : (putOutput a bs l s).wbase = s.wbase := rfl
@[simp] theorem putOutput_wcap (a : Nat) (bs : List Byte) (l : Word) (s : State) : (putOutput a bs l s).wcap = s.wcap := rfl
@[simp] theorem putOutput_wpos (a : Nat) (bs : List Byte) (l : Word) (s : State) : (putOutput a bs l s).wpos = s.wpos := rfl
@[simp] theorem putOutput_pbuf (a : Nat) (bs : List Byte) (l : Word) (s : State) : (putOutput a bs l s).pbuf = s.pbuf := rfl
@[simp] theorem putOutput_rbase (a : Nat) (bs : List Byte) (l : Word) (s : State) : (putOutput a bs l s).rbase = s.rbase := rfl
@[simp] theorem putOutput_rlim (a : Nat) (bs : List Byte) (l : Word) (s : State) : (putOutput a bs l s).rlim = s.rlim := rfl
@[simp] theorem putOutput_dmem (a : Nat) (bs : List Byte) (l : Word) (s : State) : (putOutput a bs l s).dmem = Memory.writeBytes s.dmem a bs := rfl
@[simp] theorem putOutput_draws (a : Nat) (bs : List Byte) (l : Word) (s : State) : (putOutput a bs l s).draws = s.draws := rfl
@[simp] theorem putOutput_hostOps (a : Nat) (bs : List Byte) (l : Word) (s : State) : (putOutput a bs l s).hostOps = s.hostOps := rfl
@[simp] theorem putOutput_delay (a : Nat) (bs : List Byte) (l : Word) (s : State) : (putOutput a bs l s).delay = s.delay := rfl
@[simp] theorem putOutput_schedule (a : Nat) (bs : List Byte) (l : Word) (s : State) : (putOutput a bs l s).schedule = s.schedule := rfl
@[simp] theorem putOutput_seen (a : Nat) (bs : List Byte) (l : Word) (s : State) : (putOutput a bs l s).seen = s.seen := rfl

/-! ### see -/

@[simp] theorem see_params (x : HostRead) (s : State) : (see x s).params = s.params := rfl
@[simp] theorem see_emptyErr (x : HostRead) (s : State) : (see x s).emptyErr = s.emptyErr := rfl
@[simp] theorem see_status (x : HostRead) (s : State) : (see x s).status = s.status := rfl
@[simp] theorem see_pending (x : HostRead) (s : State) : (see x s).pending = s.pending := rfl
@[simp] theorem see_srcAddr (x : HostRead) (s : State) : (see x s).srcAddr = s.srcAddr := rfl
@[simp] theorem see_srcLen (x : HostRead) (s : State) : (see x s).srcLen = s.srcLen := rfl
@[simp] theorem see_dstAddr (x : HostRead) (s : State) : (see x s).dstAddr = s.dstAddr := rfl
@[simp] theorem see_dstCap (x : HostRead) (s : State) : (see x s).dstCap = s.dstCap := rfl
@[simp] theorem see_outLen (x : HostRead) (s : State) : (see x s).outLen = s.outLen := rfl
@[simp] theorem see_bitcnt (x : HostRead) (s : State) : (see x s).bitcnt = s.bitcnt := rfl
@[simp] theorem see_rdpos (x : HostRead) (s : State) : (see x s).rdpos = s.rdpos := rfl
@[simp] theorem see_arg (x : HostRead) (s : State) : (see x s).arg = s.arg := rfl
@[simp] theorem see_result (x : HostRead) (s : State) : (see x s).result = s.result := rfl
@[simp] theorem see_lzWindow (x : HostRead) (s : State) : (see x s).lzWindow = s.lzWindow := rfl
@[simp] theorem see_lzLookahead (x : HostRead) (s : State) : (see x s).lzLookahead = s.lzLookahead := rfl
@[simp] theorem see_tokcnt (x : HostRead) (s : State) : (see x s).tokcnt = s.tokcnt := rfl
@[simp] theorem see_nsym (x : HostRead) (s : State) : (see x s).nsym = s.nsym := rfl
@[simp] theorem see_freq (x : HostRead) (s : State) : (see x s).freq = s.freq := rfl
@[simp] theorem see_tree (x : HostRead) (s : State) : (see x s).tree = s.tree := rfl
@[simp] theorem see_root (x : HostRead) (s : State) : (see x s).root = s.root := rfl
@[simp] theorem see_treeValid (x : HostRead) (s : State) : (see x s).treeValid = s.treeValid := rfl
@[simp] theorem see_code (x : HostRead) (s : State) : (see x s).code = s.code := rfl
@[simp] theorem see_wbase (x : HostRead) (s : State) : (see x s).wbase = s.wbase := rfl
@[simp] theorem see_wcap (x : HostRead) (s : State) : (see x s).wcap = s.wcap := rfl
@[simp] theorem see_wpos (x : HostRead) (s : State) : (see x s).wpos = s.wpos := rfl
@[simp] theorem see_pbuf (x : HostRead) (s : State) : (see x s).pbuf = s.pbuf := rfl
@[simp] theorem see_rbase (x : HostRead) (s : State) : (see x s).rbase = s.rbase := rfl
@[simp] theorem see_rlim (x : HostRead) (s : State) : (see x s).rlim = s.rlim := rfl
@[simp] theorem see_dmem (x : HostRead) (s : State) : (see x s).dmem = s.dmem := rfl
@[simp] theorem see_draws (x : HostRead) (s : State) : (see x s).draws = s.draws := rfl
@[simp] theorem see_hostOps (x : HostRead) (s : State) : (see x s).hostOps = s.hostOps := rfl
@[simp] theorem see_delay (x : HostRead) (s : State) : (see x s).delay = s.delay := rfl
@[simp] theorem see_schedule (x : HostRead) (s : State) : (see x s).schedule = s.schedule := rfl
@[simp] theorem see_seen (x : HostRead) (s : State) : (see x s).seen = x :: s.seen := rfl

/-! ### flushWriter -/

@[simp] theorem flushWriter_params (s : State) : (flushWriter s).params = s.params := rfl
@[simp] theorem flushWriter_emptyErr (s : State) : (flushWriter s).emptyErr = s.emptyErr := rfl
@[simp] theorem flushWriter_status (s : State) : (flushWriter s).status = s.status := rfl
@[simp] theorem flushWriter_pending (s : State) : (flushWriter s).pending = s.pending := rfl
@[simp] theorem flushWriter_srcAddr (s : State) : (flushWriter s).srcAddr = s.srcAddr := rfl
@[simp] theorem flushWriter_srcLen (s : State) : (flushWriter s).srcLen = s.srcLen := rfl
@[simp] theorem flushWriter_dstAddr (s : State) : (flushWriter s).dstAddr = s.dstAddr := rfl
@[simp] theorem flushWriter_dstCap (s : State) : (flushWriter s).dstCap = s.dstCap := rfl
@[simp] theorem flushWriter_bitcnt (s : State) : (flushWriter s).bitcnt = s.wpos := rfl
@[simp] theorem flushWriter_rdpos (s : State) : (flushWriter s).rdpos = s.rdpos := rfl
@[simp] theorem flushWriter_arg (s : State) : (flushWriter s).arg = s.arg := rfl
@[simp] theorem flushWriter_result (s : State) : (flushWriter s).result = s.result := rfl
@[simp] theorem flushWriter_lzWindow (s : State) : (flushWriter s).lzWindow = s.lzWindow := rfl
@[simp] theorem flushWriter_lzLookahead (s : State) : (flushWriter s).lzLookahead = s.lzLookahead := rfl
@[simp] theorem flushWriter_tokcnt (s : State) : (flushWriter s).tokcnt = s.tokcnt := rfl
@[simp] theorem flushWriter_nsym (s : State) : (flushWriter s).nsym = s.nsym := rfl
@[simp] theorem flushWriter_freq (s : State) : (flushWriter s).freq = s.freq := rfl
@[simp] theorem flushWriter_tree (s : State) : (flushWriter s).tree = s.tree := rfl
@[simp] theorem flushWriter_root (s : State) : (flushWriter s).root = s.root := rfl
@[simp] theorem flushWriter_treeValid (s : State) : (flushWriter s).treeValid = s.treeValid := rfl
@[simp] theorem flushWriter_code (s : State) : (flushWriter s).code = s.code := rfl
@[simp] theorem flushWriter_wbase (s : State) : (flushWriter s).wbase = s.wbase := rfl
@[simp] theorem flushWriter_wcap (s : State) : (flushWriter s).wcap = s.wcap := rfl
@[simp] theorem flushWriter_wpos (s : State) : (flushWriter s).wpos = s.wpos := rfl
@[simp] theorem flushWriter_pbuf (s : State) : (flushWriter s).pbuf = s.pbuf := rfl
@[simp] theorem flushWriter_rbase (s : State) : (flushWriter s).rbase = s.rbase := rfl
@[simp] theorem flushWriter_rlim (s : State) : (flushWriter s).rlim = s.rlim := rfl
@[simp] theorem flushWriter_hostOps (s : State) : (flushWriter s).hostOps = s.hostOps := rfl
@[simp] theorem flushWriter_delay (s : State) : (flushWriter s).delay = s.delay := rfl
@[simp] theorem flushWriter_schedule (s : State) : (flushWriter s).schedule = s.schedule := rfl
@[simp] theorem flushWriter_seen (s : State) : (flushWriter s).seen = s.seen := rfl

/-- A length that fits is OUT_LEN, and then nothing is drawn. -/
theorem flushWriter_outLen_of_fits {s : State} (h : ceil8 s.wpos.toNat < 2 ^ 32) :
    (flushWriter s).outLen = BitVec.ofNat 32 (ceil8 s.wpos.toNat) ∧ (flushWriter s).draws = s.draws := by
  simp only [flushWriter, if_pos h, and_self]

/-! ### appendBit and appendBits -/

/-- AppendBit writes the memory, WPOS and PBUF only. -/
theorem appendBit_frame (s : State) (b : Bool) :
    appendBit s b =
      { s with dmem := (appendBit s b).dmem, wpos := (appendBit s b).wpos, pbuf := (appendBit s b).pbuf } := by
  unfold appendBit
  dsimp only
  split <;> rfl

/-- A run of AppendBit writes the memory, WPOS and PBUF only. -/
theorem appendBits_frame (s : State) (bs : List Bool) :
    appendBits s bs =
      { s with dmem := (appendBits s bs).dmem, wpos := (appendBits s bs).wpos, pbuf := (appendBits s bs).pbuf } := by
  induction bs generalizing s with
  | nil => rfl
  | cons b bs ih =>
    have h : appendBits s (b :: bs) = appendBits (appendBit s b) bs := rfl
    rw [h, ih (appendBit s b), appendBit_frame s b]

@[simp] theorem appendBits_nil (s : State) : appendBits s [] = s := rfl
@[simp] theorem appendBits_cons (s : State) (b : Bool) (bs : List Bool) :
    appendBits s (b :: bs) = appendBits (appendBit s b) bs := rfl
theorem appendBits_append (s : State) (bs cs : List Bool) :
    appendBits s (bs ++ cs) = appendBits (appendBits s bs) cs := List.foldl_append

@[simp] theorem appendBit_params (s : State) (b : Bool) : (appendBit s b).params = s.params := by rw [appendBit_frame]
@[simp] theorem appendBit_emptyErr (s : State) (b : Bool) : (appendBit s b).emptyErr = s.emptyErr := by rw [appendBit_frame]
@[simp] theorem appendBit_status (s : State) (b : Bool) : (appendBit s b).status = s.status := by rw [appendBit_frame]
@[simp] theorem appendBit_pending (s : State) (b : Bool) : (appendBit s b).pending = s.pending := by rw [appendBit_frame]
@[simp] theorem appendBit_srcAddr (s : State) (b : Bool) : (appendBit s b).srcAddr = s.srcAddr := by rw [appendBit_frame]
@[simp] theorem appendBit_srcLen (s : State) (b : Bool) : (appendBit s b).srcLen = s.srcLen := by rw [appendBit_frame]
@[simp] theorem appendBit_dstAddr (s : State) (b : Bool) : (appendBit s b).dstAddr = s.dstAddr := by rw [appendBit_frame]
@[simp] theorem appendBit_dstCap (s : State) (b : Bool) : (appendBit s b).dstCap = s.dstCap := by rw [appendBit_frame]
@[simp] theorem appendBit_outLen (s : State) (b : Bool) : (appendBit s b).outLen = s.outLen := by rw [appendBit_frame]
@[simp] theorem appendBit_bitcnt (s : State) (b : Bool) : (appendBit s b).bitcnt = s.bitcnt := by rw [appendBit_frame]
@[simp] theorem appendBit_rdpos (s : State) (b : Bool) : (appendBit s b).rdpos = s.rdpos := by rw [appendBit_frame]
@[simp] theorem appendBit_arg (s : State) (b : Bool) : (appendBit s b).arg = s.arg := by rw [appendBit_frame]
@[simp] theorem appendBit_result (s : State) (b : Bool) : (appendBit s b).result = s.result := by rw [appendBit_frame]
@[simp] theorem appendBit_lzWindow (s : State) (b : Bool) : (appendBit s b).lzWindow = s.lzWindow := by rw [appendBit_frame]
@[simp] theorem appendBit_lzLookahead (s : State) (b : Bool) : (appendBit s b).lzLookahead = s.lzLookahead := by rw [appendBit_frame]
@[simp] theorem appendBit_tokcnt (s : State) (b : Bool) : (appendBit s b).tokcnt = s.tokcnt := by rw [appendBit_frame]
@[simp] theorem appendBit_nsym (s : State) (b : Bool) : (appendBit s b).nsym = s.nsym := by rw [appendBit_frame]
@[simp] theorem appendBit_freq (s : State) (b : Bool) : (appendBit s b).freq = s.freq := by rw [appendBit_frame]
@[simp] theorem appendBit_tree (s : State) (b : Bool) : (appendBit s b).tree = s.tree := by rw [appendBit_frame]
@[simp] theorem appendBit_root (s : State) (b : Bool) : (appendBit s b).root = s.root := by rw [appendBit_frame]
@[simp] theorem appendBit_treeValid (s : State) (b : Bool) : (appendBit s b).treeValid = s.treeValid := by rw [appendBit_frame]
@[simp] theorem appendBit_code (s : State) (b : Bool) : (appendBit s b).code = s.code := by rw [appendBit_frame]
@[simp] theorem appendBit_wbase (s : State) (b : Bool) : (appendBit s b).wbase = s.wbase := by rw [appendBit_frame]
@[simp] theorem appendBit_wcap (s : State) (b : Bool) : (appendBit s b).wcap = s.wcap := by rw [appendBit_frame]
@[simp] theorem appendBit_rbase (s : State) (b : Bool) : (appendBit s b).rbase = s.rbase := by rw [appendBit_frame]
@[simp] theorem appendBit_rlim (s : State) (b : Bool) : (appendBit s b).rlim = s.rlim := by rw [appendBit_frame]
@[simp] theorem appendBit_draws (s : State) (b : Bool) : (appendBit s b).draws = s.draws := by rw [appendBit_frame]
@[simp] theorem appendBit_hostOps (s : State) (b : Bool) : (appendBit s b).hostOps = s.hostOps := by rw [appendBit_frame]
@[simp] theorem appendBit_delay (s : State) (b : Bool) : (appendBit s b).delay = s.delay := by rw [appendBit_frame]
@[simp] theorem appendBit_schedule (s : State) (b : Bool) : (appendBit s b).schedule = s.schedule := by rw [appendBit_frame]
@[simp] theorem appendBit_seen (s : State) (b : Bool) : (appendBit s b).seen = s.seen := by rw [appendBit_frame]
@[simp] theorem appendBits_params (s : State) (bs : List Bool) : (appendBits s bs).params = s.params := by rw [appendBits_frame]
@[simp] theorem appendBits_emptyErr (s : State) (bs : List Bool) : (appendBits s bs).emptyErr = s.emptyErr := by rw [appendBits_frame]
@[simp] theorem appendBits_status (s : State) (bs : List Bool) : (appendBits s bs).status = s.status := by rw [appendBits_frame]
@[simp] theorem appendBits_pending (s : State) (bs : List Bool) : (appendBits s bs).pending = s.pending := by rw [appendBits_frame]
@[simp] theorem appendBits_srcAddr (s : State) (bs : List Bool) : (appendBits s bs).srcAddr = s.srcAddr := by rw [appendBits_frame]
@[simp] theorem appendBits_srcLen (s : State) (bs : List Bool) : (appendBits s bs).srcLen = s.srcLen := by rw [appendBits_frame]
@[simp] theorem appendBits_dstAddr (s : State) (bs : List Bool) : (appendBits s bs).dstAddr = s.dstAddr := by rw [appendBits_frame]
@[simp] theorem appendBits_dstCap (s : State) (bs : List Bool) : (appendBits s bs).dstCap = s.dstCap := by rw [appendBits_frame]
@[simp] theorem appendBits_outLen (s : State) (bs : List Bool) : (appendBits s bs).outLen = s.outLen := by rw [appendBits_frame]
@[simp] theorem appendBits_bitcnt (s : State) (bs : List Bool) : (appendBits s bs).bitcnt = s.bitcnt := by rw [appendBits_frame]
@[simp] theorem appendBits_rdpos (s : State) (bs : List Bool) : (appendBits s bs).rdpos = s.rdpos := by rw [appendBits_frame]
@[simp] theorem appendBits_arg (s : State) (bs : List Bool) : (appendBits s bs).arg = s.arg := by rw [appendBits_frame]
@[simp] theorem appendBits_result (s : State) (bs : List Bool) : (appendBits s bs).result = s.result := by rw [appendBits_frame]
@[simp] theorem appendBits_lzWindow (s : State) (bs : List Bool) : (appendBits s bs).lzWindow = s.lzWindow := by rw [appendBits_frame]
@[simp] theorem appendBits_lzLookahead (s : State) (bs : List Bool) : (appendBits s bs).lzLookahead = s.lzLookahead := by rw [appendBits_frame]
@[simp] theorem appendBits_tokcnt (s : State) (bs : List Bool) : (appendBits s bs).tokcnt = s.tokcnt := by rw [appendBits_frame]
@[simp] theorem appendBits_nsym (s : State) (bs : List Bool) : (appendBits s bs).nsym = s.nsym := by rw [appendBits_frame]
@[simp] theorem appendBits_freq (s : State) (bs : List Bool) : (appendBits s bs).freq = s.freq := by rw [appendBits_frame]
@[simp] theorem appendBits_tree (s : State) (bs : List Bool) : (appendBits s bs).tree = s.tree := by rw [appendBits_frame]
@[simp] theorem appendBits_root (s : State) (bs : List Bool) : (appendBits s bs).root = s.root := by rw [appendBits_frame]
@[simp] theorem appendBits_treeValid (s : State) (bs : List Bool) : (appendBits s bs).treeValid = s.treeValid := by rw [appendBits_frame]
@[simp] theorem appendBits_code (s : State) (bs : List Bool) : (appendBits s bs).code = s.code := by rw [appendBits_frame]
@[simp] theorem appendBits_wbase (s : State) (bs : List Bool) : (appendBits s bs).wbase = s.wbase := by rw [appendBits_frame]
@[simp] theorem appendBits_wcap (s : State) (bs : List Bool) : (appendBits s bs).wcap = s.wcap := by rw [appendBits_frame]
@[simp] theorem appendBits_rbase (s : State) (bs : List Bool) : (appendBits s bs).rbase = s.rbase := by rw [appendBits_frame]
@[simp] theorem appendBits_rlim (s : State) (bs : List Bool) : (appendBits s bs).rlim = s.rlim := by rw [appendBits_frame]
@[simp] theorem appendBits_draws (s : State) (bs : List Bool) : (appendBits s bs).draws = s.draws := by rw [appendBits_frame]
@[simp] theorem appendBits_hostOps (s : State) (bs : List Bool) : (appendBits s bs).hostOps = s.hostOps := by rw [appendBits_frame]
@[simp] theorem appendBits_delay (s : State) (bs : List Bool) : (appendBits s bs).delay = s.delay := by rw [appendBits_frame]
@[simp] theorem appendBits_schedule (s : State) (bs : List Bool) : (appendBits s bs).schedule = s.schedule := by rw [appendBits_frame]
@[simp] theorem appendBits_seen (s : State) (bs : List Bool) : (appendBits s bs).seen = s.seen := by rw [appendBits_frame]

/-! ### resetKeeping -/

@[simp] theorem resetKeeping_params (s : State) : (resetKeeping s).params = s.params := rfl
@[simp] theorem resetKeeping_emptyErr (s : State) : (resetKeeping s).emptyErr = State.reset.emptyErr := rfl
@[simp] theorem resetKeeping_status (s : State) : (resetKeeping s).status = State.reset.status := rfl
@[simp] theorem resetKeeping_pending (s : State) : (resetKeeping s).pending = State.reset.pending := rfl
@[simp] theorem resetKeeping_srcAddr (s : State) : (resetKeeping s).srcAddr = State.reset.srcAddr := rfl
@[simp] theorem resetKeeping_srcLen (s : State) : (resetKeeping s).srcLen = State.reset.srcLen := rfl
@[simp] theorem resetKeeping_dstAddr (s : State) : (resetKeeping s).dstAddr = State.reset.dstAddr := rfl
@[simp] theorem resetKeeping_dstCap (s : State) : (resetKeeping s).dstCap = State.reset.dstCap := rfl
@[simp] theorem resetKeeping_outLen (s : State) : (resetKeeping s).outLen = State.reset.outLen := rfl
@[simp] theorem resetKeeping_bitcnt (s : State) : (resetKeeping s).bitcnt = State.reset.bitcnt := rfl
@[simp] theorem resetKeeping_rdpos (s : State) : (resetKeeping s).rdpos = State.reset.rdpos := rfl
@[simp] theorem resetKeeping_arg (s : State) : (resetKeeping s).arg = State.reset.arg := rfl
@[simp] theorem resetKeeping_result (s : State) : (resetKeeping s).result = State.reset.result := rfl
@[simp] theorem resetKeeping_lzWindow (s : State) : (resetKeeping s).lzWindow = State.reset.lzWindow := rfl
@[simp] theorem resetKeeping_lzLookahead (s : State) : (resetKeeping s).lzLookahead = State.reset.lzLookahead := rfl
@[simp] theorem resetKeeping_tokcnt (s : State) : (resetKeeping s).tokcnt = State.reset.tokcnt := rfl
@[simp] theorem resetKeeping_nsym (s : State) : (resetKeeping s).nsym = State.reset.nsym := rfl
@[simp] theorem resetKeeping_freq (s : State) : (resetKeeping s).freq = State.reset.freq := rfl
@[simp] theorem resetKeeping_tree (s : State) : (resetKeeping s).tree = State.reset.tree := rfl
@[simp] theorem resetKeeping_root (s : State) : (resetKeeping s).root = State.reset.root := rfl
@[simp] theorem resetKeeping_treeValid (s : State) : (resetKeeping s).treeValid = State.reset.treeValid := rfl
@[simp] theorem resetKeeping_code (s : State) : (resetKeeping s).code = State.reset.code := rfl
@[simp] theorem resetKeeping_wbase (s : State) : (resetKeeping s).wbase = State.reset.wbase := rfl
@[simp] theorem resetKeeping_wcap (s : State) : (resetKeeping s).wcap = State.reset.wcap := rfl
@[simp] theorem resetKeeping_wpos (s : State) : (resetKeeping s).wpos = State.reset.wpos := rfl
@[simp] theorem resetKeeping_pbuf (s : State) : (resetKeeping s).pbuf = State.reset.pbuf := rfl
@[simp] theorem resetKeeping_rbase (s : State) : (resetKeeping s).rbase = State.reset.rbase := rfl
@[simp] theorem resetKeeping_rlim (s : State) : (resetKeeping s).rlim = State.reset.rlim := rfl
@[simp] theorem resetKeeping_dmem (s : State) : (resetKeeping s).dmem = s.dmem := rfl
@[simp] theorem resetKeeping_draws (s : State) : (resetKeeping s).draws = s.draws := rfl
@[simp] theorem resetKeeping_hostOps (s : State) : (resetKeeping s).hostOps = s.hostOps := rfl
@[simp] theorem resetKeeping_delay (s : State) : (resetKeeping s).delay = State.reset.delay := rfl
@[simp] theorem resetKeeping_schedule (s : State) : (resetKeeping s).schedule = s.schedule := rfl
@[simp] theorem resetKeeping_seen (s : State) : (resetKeeping s).seen = s.seen := rfl

/-! ### BUSY -/

@[simp] theorem complete_busy (c : ErrCode) (s : State) : (complete c s).busy = false := rfl
@[simp] theorem latch_busy (w : Word) (s : State) : (latch w s).busy = true := rfl

end Sys2Proof.Machine
end

