-- ==== Sys2Proof/Laws/Commands.lean ====
section
/-! SUPPORT. What each command and each host operation can do, said once: if it answers `next t`, one of these cases holds. -/

namespace Sys2Proof.Machine

@[simp] theorem raise_eq_next {c : ErrCode} {s t : State} : raise c s = .next t ↔ complete c s = t := by simp [raise]
@[simp] theorem finish_eq_next {s t : State} : finish s = .next t ↔ complete .none s = t := by simp [finish]

/-- The one state that an answer `next` can be. -/
theorem of_next {u t : State} (h : (Host.Outcome.next u : Result) = .next t) : t = u := by
  injection h with h
  exact h.symm

/-- AppendBit changes one byte of DMEM: the one it fills, where that exists (R101). -/
theorem read_appendBit (s : State) (b : Bool) (x : Nat) :
    Memory.read (appendBit s b).dmem x =
      if (s.wpos.toNat + 1) % 8 = 0 ∧ x = s.wbase.toNat + (s.wpos.toNat + 1) / 8 - 1 ∧ x < s.params.dmemSize then
        BitVec.ofNat 8 (2 * s.pbuf.toNat + b.toNat)
      else Memory.read s.dmem x := by
  unfold appendBit
  dsimp only
  split
  · rename_i h
    rw [read_writeExisting]
    congr 1
    apply propext
    constructor
    · rintro ⟨rfl, hx⟩; exact ⟨h, rfl, hx⟩
    · rintro ⟨_, rfl, hx⟩; exact ⟨rfl, hx⟩
  · rename_i h
    rw [if_neg (fun hx => h hx.1)]

/-- The flush changes one byte of DMEM: the incomplete one, inside the stream's range and where it exists (R103, R71). -/
theorem read_flushWriter (s : State) (x : Nat) :
    Memory.read (flushWriter s).dmem x =
      if (s.wpos.toNat % 8 ≠ 0 ∧ s.wpos.toNat / 8 < s.wcap.toNat) ∧ x = s.wbase.toNat + s.wpos.toNat / 8 ∧
          x < s.params.dmemSize then
        BitVec.ofNat 8 (s.pbuf.toNat * 2 ^ (8 - s.wpos.toNat % 8))
      else Memory.read s.dmem x := by
  unfold flushWriter
  dsimp only
  split
  · rename_i h
    rw [if_neg (fun hx => h.elim hx.1.1 (fun hc => by omega))]
  · rename_i h
    have hk : s.wpos.toNat % 8 ≠ 0 ∧ s.wpos.toNat / 8 < s.wcap.toNat := by omega
    rw [read_writeExisting]
    congr 1
    apply propext
    constructor
    · rintro ⟨rfl, hx⟩; exact ⟨hk, rfl, hx⟩
    · rintro ⟨_, rfl, hx⟩; exact ⟨rfl, hx⟩

/-- Some byte of SRC or DST does not exist (R70). -/
abbrev RangeError (s : State) : Prop := srcOK s = false ∨ dstOK s = false

theorem execBpWinit_next {s t : State} (h : execBpWinit s = .next t) :
    (dstOK s = false ∧ t = complete .address s) ∨
    (dstOK s = true ∧ t = complete .none { openWriter s.dstAddr s.dstCap s with bitcnt := 0 }) := by
  unfold execBpWinit at h
  split at h
  · rename_i hc; exact .inl ⟨by simpa using hc, of_next h⟩
  · rename_i hc; exact .inr ⟨by simpa using hc, of_next h⟩

theorem execBpPut_next {n : Byte} {s t : State} (h : execBpPut n s = .next t) :
    (countOk n = false ∧ t = complete .illegal s) ∨
    (countOk n = true ∧ 8 * s.wcap.toNat < s.wpos.toNat + n.toNat ∧ t = complete .capacity s) ∨
    (countOk n = true ∧ s.wpos.toNat + n.toNat ≤ 8 * s.wcap.toNat ∧
      t = complete .none { appendBits s (argBits n.toNat s.arg) with
        bitcnt := (appendBits s (argBits n.toNat s.arg)).wpos }) := by
  unfold execBpPut at h
  split at h
  · rename_i hc; exact .inl ⟨by simpa using hc, of_next h⟩
  · rename_i hc
    have hc : countOk n = true := by simpa using hc
    split at h
    · rename_i hw; exact .inr (.inl ⟨hc, hw, of_next h⟩)
    · rename_i hw; exact .inr (.inr ⟨hc, by omega, of_next h⟩)

theorem execBpFlush_next {s t : State} (h : execBpFlush s = .next t) : t = complete .none (flushWriter s) := of_next h

theorem execBpRinit_next {s t : State} (h : execBpRinit s = .next t) :
    (srcOK s = false ∧ t = complete .address s) ∨
    (srcOK s = true ∧ s.srcLen.toNat < ceil8 s.bitcnt.toNat ∧ t = complete .format s) ∨
    (srcOK s = true ∧ ceil8 s.bitcnt.toNat ≤ s.srcLen.toNat ∧
      t = complete .none (openReader s.srcAddr s.bitcnt s)) := by
  unfold execBpRinit at h
  split at h
  · rename_i hc; exact .inl ⟨by simpa using hc, of_next h⟩
  · rename_i hc
    have hc : srcOK s = true := by simpa using hc
    split at h
    · rename_i hf; exact .inr (.inl ⟨hc, hf, of_next h⟩)
    · rename_i hf; exact .inr (.inr ⟨hc, by omega, of_next h⟩)

theorem execBpGet_next {n : Byte} {s t : State} (h : execBpGet n s = .next t) :
    (countOk n = false ∧ t = complete .illegal s) ∨
    (countOk n = true ∧ s.rlim.toNat < s.rdpos.toNat + n.toNat ∧ t = complete .format s) ∨
    (countOk n = true ∧ s.rdpos.toNat + n.toNat ≤ s.rlim.toNat ∧
      ∃ k, (s.rbase.toNat + ceil8 (s.rdpos.toNat + n.toNat) ≤ s.params.dmemSize → k = s.draws) ∧
        t = complete .none { s with
          result := BitVec.ofNat 32
            (bitsValue (readBits s.params.dmemSize s.dmem s.rbase.toNat s.rdpos.toNat s.draws n.toNat))
          rdpos := BitVec.ofNat 64 (s.rdpos.toNat + n.toNat)
          draws := k }) := by
  unfold execBpGet at h
  dsimp only at h
  split at h
  · rename_i hc; exact .inl ⟨by simpa using hc, of_next h⟩
  · rename_i hc
    have hc : countOk n = true := by simpa using hc
    split at h
    · rename_i hf; exact .inr (.inl ⟨hc, hf, of_next h⟩)
    · exact .inr (.inr ⟨hc, by omega, _, fun hk => if_pos hk, of_next h⟩)

theorem execHtCount_next {s t : State} (h : execHtCount s = .next t) :
    (srcOK s = false ∧ t = complete .address s) ∨
    (srcOK s = true ∧ emptyInput s = true ∧ t = complete .empty s) ∨
    (srcOK s = true ∧ emptyInput s = false ∧
      t = complete .none (setFreq (countBytes (srcBytes s))
        (BitVec.ofNat 32 (symbolCount (countBytes (srcBytes s)))) s)) := by
  unfold execHtCount at h
  split at h
  · rename_i hc; exact .inl ⟨by simpa using hc, of_next h⟩
  · rename_i hc
    have hc : srcOK s = true := by simpa using hc
    split at h
    · rename_i he; exact .inr (.inl ⟨hc, he, of_next h⟩)
    · rename_i he; exact .inr (.inr ⟨hc, by simpa using he, of_next h⟩)

theorem execHtBuild_next {s t : State} (h : execHtBuild s = .next t) :
    t = complete .none { s with
      tree := buildNodes s.freq
      root := rootOf (buildNodes s.freq)
      code := codesOf (buildNodes s.freq) (rootOf (buildNodes s.freq))
      treeValid := true } := of_next h

/-- HT_LOADMETA stops before the pairs: the image is shorter than its size word says, or that word is above 256 (R124). -/
abbrev MetaCut (s : State) : Prop :=
  s.srcLen.toNat < 4 ∨ 256 < memRead s.dmem s.srcAddr.toNat 4 ∨
  s.srcLen.toNat < 4 + 5 * memRead s.dmem s.srcAddr.toNat 4

theorem execHtLoadmeta_next {s t : State} (h : execHtLoadmeta s = .next t) :
    (srcOK s = false ∧ t = complete .address s) ∨
    (srcOK s = true ∧ MetaCut s ∧ t = complete .format s) ∨
    (srcOK s = true ∧ ¬MetaCut s ∧
      readPairs s.dmem (memRead s.dmem s.srcAddr.toNat 4) (s.srcAddr.toNat + 4) 0 = none ∧ t = complete .format s) ∨
    (srcOK s = true ∧ ¬MetaCut s ∧
      ∃ ps, readPairs s.dmem (memRead s.dmem s.srcAddr.toNat 4) (s.srcAddr.toNat + 4) 0 = some ps ∧
        t = complete .none (setFreq (tableOf 0 ps) (BitVec.ofNat 32 (memRead s.dmem s.srcAddr.toNat 4)) s)) := by
  unfold execHtLoadmeta at h
  dsimp only at h
  split at h
  · rename_i hc; exact .inl ⟨by simpa using hc, of_next h⟩
  · rename_i hc
    have hc : srcOK s = true := by simpa using hc
    split at h
    · rename_i h1; exact .inr (.inl ⟨hc, .inl h1, of_next h⟩)
    · split at h
      · rename_i h2; exact .inr (.inl ⟨hc, .inr (.inl h2), of_next h⟩)
      · split at h
        · rename_i h3; exact .inr (.inl ⟨hc, .inr (.inr h3), of_next h⟩)
        · rename_i h1 h2 h3
          have hm : ¬MetaCut s := fun hm => hm.elim h1 (fun hm => hm.elim h2 h3)
          split at h
          · rename_i hp; exact .inr (.inr (.inl ⟨hc, hm, hp, of_next h⟩))
          · rename_i ps hp; exact .inr (.inr (.inr ⟨hc, hm, ps, hp, of_next h⟩))

theorem execHtStoremeta_next {s t : State} (h : execHtStoremeta s = .next t) :
    (dstOK s = false ∧ t = complete .address s) ∨
    (dstOK s = true ∧ s.dstCap.toNat < 4 + 5 * s.nsym.toNat ∧ t = complete .capacity s) ∨
    (dstOK s = true ∧ 4 + 5 * s.nsym.toNat ≤ s.dstCap.toNat ∧
      t = complete .none (putOutput s.dstAddr.toNat ((metaImage s.nsym s.freq).take s.dstCap.toNat)
        (BitVec.ofNat 32 (4 + 5 * s.nsym.toNat)) s)) := by
  unfold execHtStoremeta at h
  dsimp only at h
  split at h
  · rename_i hc; exact .inl ⟨by simpa using hc, of_next h⟩
  · rename_i hc
    have hc : dstOK s = true := by simpa using hc
    split at h
    · rename_i hw; exact .inr (.inl ⟨hc, hw, of_next h⟩)
    · exact .inr (.inr ⟨hc, by omega, of_next h⟩)

theorem metaImage_length (nsym : Word) (freq : Vector Word 256) : (metaImage nsym freq).length = 4 + 5 * symbolCount freq := by
  have h : ∀ l : List Byte, (l.flatMap (fun b => b :: leBytes 4 (entry freq b).toNat)).length = 5 * l.length := by
    intro l
    induction l with
    | nil => rfl
    | cons b l ih => simp only [List.flatMap_cons, List.length_append, List.length_cons, leBytes_length, ih]; omega
  simp [metaImage, metaPairs, h, symbolCount]

/-- With NSYM right and room for the image, the whole image is written. -/
theorem metaImage_take {s : State} (h : NsymOk s) (hc : 4 + 5 * s.nsym.toNat ≤ s.dstCap.toNat) :
    (metaImage s.nsym s.freq).take s.dstCap.toNat = metaImage s.nsym s.freq := by
  refine List.take_of_length_le ?_
  rw [metaImage_length]
  unfold NsymOk at h
  omega

/-- The start checks that HE_ENCODE, HD_DECODE and LZ_MATCH share all pass (R70, R14). -/
abbrev RangesOk (s : State) : Prop := srcOK s = true ∧ dstOK s = true ∧ srcDstOverlap s = false

theorem execHeEncode_next {s t : State} (h : execHeEncode s = .next t) :
    (RangeError s ∧ t = complete .address s) ∨
    (srcOK s = true ∧ dstOK s = true ∧ srcDstOverlap s = true ∧ t = complete .validation s) ∨
    (RangesOk s ∧ s.treeValid = false ∧ t = complete .state s) ∨
    (RangesOk s ∧ s.treeValid = true ∧ emptyInput s = true ∧ t = complete .empty s) ∨
    (RangesOk s ∧ s.treeValid = true ∧ emptyInput s = false ∧
      ((∃ c, encodeLoop (srcBytes s) (openWriter s.dstAddr s.dstCap s) = .error c ∧ t = complete c (havocEncode s)) ∨
       (∃ u, encodeLoop (srcBytes s) (openWriter s.dstAddr s.dstCap s) = .ok u ∧
         t = complete .none (flushWriter u)))) := by
  unfold execHeEncode at h
  split at h
  · rename_i hc; exact .inl ⟨by simpa [RangeError] using hc, of_next h⟩
  · rename_i hc
    have hc : srcOK s = true ∧ dstOK s = true := by simpa using hc
    split at h
    · rename_i ho; exact .inr (.inl ⟨hc.1, hc.2, ho, of_next h⟩)
    · rename_i ho
      have hr : RangesOk s := ⟨hc.1, hc.2, by simpa using ho⟩
      split at h
      · rename_i hv; exact .inr (.inr (.inl ⟨hr, by simpa using hv, of_next h⟩))
      · rename_i hv
        have hv : s.treeValid = true := by simpa using hv
        split at h
        · rename_i he; exact .inr (.inr (.inr (.inl ⟨hr, hv, he, of_next h⟩)))
        · rename_i he
          refine .inr (.inr (.inr (.inr ⟨hr, hv, by simpa using he, ?_⟩)))
          split at h
          · rename_i c hl; exact .inl ⟨c, hl, of_next h⟩
          · rename_i u hl; exact .inr ⟨u, hl, of_next h⟩

/-- What HD_DECODE walks: the BITCNT bits at SRC, with room for DST_CAP symbols (R150). -/
abbrev srcWalk (s : State) : WalkEnd :=
  decodeBits s.tree s.root (streamBits s.dmem s.srcAddr.toNat 0 s.bitcnt.toNat) s.dstCap.toNat

theorem execHdDecode_next {s t : State} (h : execHdDecode s = .next t) :
    (RangeError s ∧ t = complete .address s) ∨
    (srcOK s = true ∧ dstOK s = true ∧ srcDstOverlap s = true ∧ t = complete .validation s) ∨
    (RangesOk s ∧ s.treeValid = false ∧ t = complete .state s) ∨
    (RangesOk s ∧ s.treeValid = true ∧ DecodeStartFormat s ∧ t = complete .format s) ∨
    (RangesOk s ∧ s.treeValid = true ∧ ¬DecodeStartFormat s ∧
      ((∃ c, srcWalk s = .error c ∧ t = complete c (havocDecode s)) ∨
       (∃ bytes, srcWalk s = .out bytes ∧
         t = complete .none { putOutput s.dstAddr.toNat bytes (BitVec.ofNat 32 bytes.length)
           (openReader s.srcAddr s.bitcnt s) with rdpos := s.bitcnt }))) := by
  unfold execHdDecode at h
  split at h
  · rename_i hc; exact .inl ⟨by simpa [RangeError] using hc, of_next h⟩
  · rename_i hc
    have hc : srcOK s = true ∧ dstOK s = true := by simpa using hc
    split at h
    · rename_i ho; exact .inr (.inl ⟨hc.1, hc.2, ho, of_next h⟩)
    · rename_i ho
      have hr : RangesOk s := ⟨hc.1, hc.2, by simpa using ho⟩
      split at h
      · rename_i hv; exact .inr (.inr (.inl ⟨hr, by simpa using hv, of_next h⟩))
      · rename_i hv
        have hv : s.treeValid = true := by simpa using hv
        split at h
        · rename_i h1; exact .inr (.inr (.inr (.inl ⟨hr, hv, .inl h1, of_next h⟩)))
        · split at h
          · rename_i h2; exact .inr (.inr (.inr (.inl ⟨hr, hv, .inr h2, of_next h⟩)))
          · rename_i h1 h2
            refine .inr (.inr (.inr (.inr ⟨hr, hv, fun hd => hd.elim h1 h2, ?_⟩)))
            split at h
            · rename_i c hw; exact .inl ⟨c, hw, of_next h⟩
            · cases h
            · rename_i bytes hw; exact .inr ⟨bytes, hw, of_next h⟩

theorem execLzMatch_next {s t : State} (h : execLzMatch s = .next t) :
    (RangeError s ∧ t = complete .address s) ∨
    (srcOK s = true ∧ dstOK s = true ∧ srcDstOverlap s = true ∧ t = complete .validation s) ∨
    (RangesOk s ∧ (s.params.windowMax < s.lzWindow.toNat ∨ s.params.lookaheadMax < s.lzLookahead.toNat) ∧
      t = complete .validation s) ∨
    (RangesOk s ∧ s.lzWindow.toNat ≤ s.params.windowMax ∧ s.lzLookahead.toNat ≤ s.params.lookaheadMax ∧
      ((s.dstCap.toNat < 10 * (srcTokens s).length ∧ t = complete .capacity (havocMatch s)) ∨
       (10 * (srcTokens s).length ≤ s.dstCap.toNat ∧
         t = complete .none { putOutput s.dstAddr.toNat ((srcTokens s).flatMap Token.record)
           (BitVec.ofNat 32 (10 * (srcTokens s).length)) s with
           tokcnt := BitVec.ofNat 32 (srcTokens s).length }))) := by
  unfold execLzMatch at h
  split at h
  · rename_i hc; exact .inl ⟨by simpa [RangeError] using hc, of_next h⟩
  · rename_i hc
    have hc : srcOK s = true ∧ dstOK s = true := by simpa using hc
    split at h
    · rename_i ho; exact .inr (.inl ⟨hc.1, hc.2, ho, of_next h⟩)
    · rename_i ho
      have hr : RangesOk s := ⟨hc.1, hc.2, by simpa using ho⟩
      split at h
      · rename_i hp; exact .inr (.inr (.inl ⟨hr, hp, of_next h⟩))
      · rename_i hp
        refine .inr (.inr (.inr ⟨hr, by omega, by omega, ?_⟩))
        dsimp only at h
        split at h
        · rename_i hw; exact .inl ⟨hw, of_next h⟩
        · exact .inr ⟨by omega, of_next h⟩

/-- Every command that answers `next` answers a completed state: the one of its error code, or of success. -/
theorem exec_next_completed {i : Instr} {s t : State} (h : exec i s = .next t) : ∃ c u, t = complete c u := by
  cases i <;> simp only [exec] at h
  · rcases execBpWinit_next h with ⟨_, h⟩ | ⟨_, h⟩ <;> exact ⟨_, _, h⟩
  · rcases execBpPut_next h with ⟨_, h⟩ | ⟨_, _, h⟩ | ⟨_, _, h⟩ <;> exact ⟨_, _, h⟩
  · exact ⟨_, _, execBpFlush_next h⟩
  · rcases execBpRinit_next h with ⟨_, h⟩ | ⟨_, _, h⟩ | ⟨_, _, h⟩ <;> exact ⟨_, _, h⟩
  · rcases execBpGet_next h with ⟨_, h⟩ | ⟨_, _, h⟩ | ⟨_, _, _, _, h⟩ <;> exact ⟨_, _, h⟩
  · rcases execHtCount_next h with ⟨_, h⟩ | ⟨_, _, h⟩ | ⟨_, _, h⟩ <;> exact ⟨_, _, h⟩
  · exact ⟨_, _, execHtBuild_next h⟩
  · rcases execHtLoadmeta_next h with ⟨_, h⟩ | ⟨_, _, h⟩ | ⟨_, _, _, h⟩ | ⟨_, _, _, _, h⟩ <;> exact ⟨_, _, h⟩
  · rcases execHtStoremeta_next h with ⟨_, h⟩ | ⟨_, _, h⟩ | ⟨_, _, h⟩ <;> exact ⟨_, _, h⟩
  · rcases execHeEncode_next h with ⟨_, h⟩ | ⟨_, _, _, h⟩ | ⟨_, _, h⟩ | ⟨_, _, _, h⟩ | ⟨_, _, _, ⟨_, _, h⟩ | ⟨_, _, h⟩⟩ <;>
      exact ⟨_, _, h⟩
  · rcases execHdDecode_next h with ⟨_, h⟩ | ⟨_, _, _, h⟩ | ⟨_, _, h⟩ | ⟨_, _, _, h⟩ | ⟨_, _, _, ⟨_, _, h⟩ | ⟨_, _, h⟩⟩ <;>
      exact ⟨_, _, h⟩
  · rcases execLzMatch_next h with ⟨_, h⟩ | ⟨_, _, _, h⟩ | ⟨_, _, h⟩ | ⟨_, _, _, ⟨_, h⟩ | ⟨_, h⟩⟩ <;> exact ⟨_, _, h⟩

/-- What a step does: the core performs the pending word, or the host its oldest operation, or nothing. -/
theorem step_next {s t : State} (h : step s = .next t) :
    (∃ w, s.pending = some w ∧ coreMoves s = true ∧ runWord w s = .next t) ∨
    (∃ op ops, s.hostOps = op :: ops ∧ hostOp op { s with hostOps := ops, delay := s.delay - 1 } = .next t) ∨
    (s.hostOps = [] ∧ s.pending = none ∧ t = s) := by
  unfold step at h
  split at h
  · rename_i w hp
    split at h
    · rename_i hm; exact .inl ⟨w, hp, hm, h⟩
    · rename_i hm
      unfold hostTurn at h
      split at h
      · rename_i ho; simp [coreMoves, ho] at hm
      · rename_i op ops ho; exact .inr (.inl ⟨op, ops, ho, h⟩)
  · rename_i hp
    unfold hostTurn at h
    split at h
    · rename_i ho
      exact .inr (.inr ⟨ho, hp, of_next h⟩)
    · rename_i op ops ho; exact .inr (.inl ⟨op, ops, ho, h⟩)

/-- What a host operation does when it answers `next`. -/
theorem hostOp_next {op : HostOp} {s t : State} (h : hostOp op s = .next t) :
    (∃ off v, op = .wr 32 off v ∧ off.toNat % 4 = 0 ∧ t = writeReg s (regAt off) v) ∨
    (∃ off, op = .rd 32 off ∧ off.toNat % 4 = 0 ∧ t = observeReg off s) ∨
    (∃ a b, op = .memw a b ∧ s.busy = false ∧ a < s.params.dmemSize ∧ t = { s with dmem := Memory.write s.dmem a b }) ∨
    (∃ a, op = .memr a ∧ s.busy = false ∧ a < s.params.dmemSize ∧ t = see (.mem a (Memory.read s.dmem a)) s) ∨
    (op = .wait ∧ s.busy = true ∧
      t = { observeReg statusOffset s with hostOps := .wait :: (observeReg statusOffset s).hostOps }) ∨
    (op = .wait ∧ s.busy = false ∧ t = observeReg statusOffset s) ∨
    (op = .powerOn ∧ t = powerOnReset s) := by
  cases op with
  | wr bits off v =>
    simp only [hostOp] at h
    split at h
    · rename_i hk
      obtain ⟨rfl, h4⟩ : bits = 32 ∧ off.toNat % 4 = 0 := by simpa [regAccessOk] using hk
      exact .inl ⟨off, v, rfl, h4, of_next h⟩
    · cases h
  | rd bits off =>
    simp only [hostOp] at h
    split at h
    · rename_i hk
      obtain ⟨rfl, h4⟩ : bits = 32 ∧ off.toNat % 4 = 0 := by simpa [regAccessOk] using hk
      exact .inr (.inl ⟨off, rfl, h4, of_next h⟩)
    · cases h
  | memw a b =>
    simp only [hostOp] at h
    split at h
    · cases h
    · rename_i hb
      split at h
      · cases h
      · exact .inr (.inr (.inl ⟨a, b, rfl, by simpa using hb, by omega, of_next h⟩))
  | memr a =>
    simp only [hostOp] at h
    split at h
    · cases h
    · rename_i hb
      split at h
      · cases h
      · exact .inr (.inr (.inr (.inl ⟨a, rfl, by simpa using hb, by omega, of_next h⟩)))
  | wait =>
    simp only [hostOp] at h
    split at h
    · rename_i hb
      exact .inr (.inr (.inr (.inr (.inl ⟨rfl, hb, of_next h⟩))))
    · rename_i hb
      exact .inr (.inr (.inr (.inr (.inr (.inl ⟨rfl, by simpa using hb, of_next h⟩)))))
  | powerOn => exact .inr (.inr (.inr (.inr (.inr (.inr ⟨rfl, of_next h⟩)))))

end Sys2Proof.Machine
end

