-- ==== Sys2Proof/Laws/PerInstr.lean ====
section
/-! SUPPORT. Statements made for each constructor of Instr. EncodeFields: the word of a command has RSV = 0, its N field and its
opcode at the places of R80. -/

namespace Sys2Proof.Laws.EncodeFields

/-- The three fields of the encoded word (R80, R82). -/
def Statement (i : Instr) : Prop :=
  rsvField (encode i) = 0 ∧ nField (encode i) = countField i ∧ opField (encode i) = opcode i

/-- The fields of a word made of three fields. -/
theorem fields_of_append (n op : Byte) :
    rsvField ((0 : BitVec 16) ++ (n ++ op : BitVec 16)) = 0 ∧
    nField ((0 : BitVec 16) ++ (n ++ op : BitVec 16)) = n ∧
    opField ((0 : BitVec 16) ++ (n ++ op : BitVec 16)) = op := by
  refine ⟨?_, ?_, ?_⟩ <;> apply BitVec.eq_of_getLsbD_eq <;> intro i hi <;>
    simp only [rsvField, nField, opField, BitVec.getLsbD_extractLsb', BitVec.getLsbD_append]
  · simp
  · simp [hi, show 8 + i < 16 by omega]
  · simp [hi, show i < 16 by omega]

theorem bpWinit : Statement .bpWinit := fields_of_append 0 _
theorem bpPut (n : Byte) : Statement (.bpPut n) := fields_of_append n _
theorem bpFlush : Statement .bpFlush := fields_of_append 0 _
theorem bpRinit : Statement .bpRinit := fields_of_append 0 _
theorem bpGet (n : Byte) : Statement (.bpGet n) := fields_of_append n _
theorem htCount : Statement .htCount := fields_of_append 0 _
theorem htBuild : Statement .htBuild := fields_of_append 0 _
theorem htLoadmeta : Statement .htLoadmeta := fields_of_append 0 _
theorem htStoremeta : Statement .htStoremeta := fields_of_append 0 _
theorem heEncode : Statement .heEncode := fields_of_append 0 _
theorem hdDecode : Statement .hdDecode := fields_of_append 0 _
theorem lzMatch : Statement .lzMatch := fields_of_append 0 _

end Sys2Proof.Laws.EncodeFields
end

