-- ==== Sys2Proof/Tests/Slice0.lean ====
section
/-! SUPPORT. Tests: the well-formedness smoke, the words of the opcode table, small steps with the results that
spec/95_test_vectors.md gives (each test names its vector), and for each statement a state that meets its hypotheses. -/

namespace Sys2Proof.Tests
open Sys2Proof Sys2Proof.Machine

set_option Elab.async false

/-! ### WellFormed: what the check refuses -/

theorem test_put_zero_is_ill_formed : (Instr.bpPut 0).wf = false := by decide
theorem test_put_33_is_ill_formed : (Instr.bpPut 33).wf = false := by decide
theorem test_get_zero_is_ill_formed : (Instr.bpGet 0).wf = false := by decide
theorem test_get_33_is_ill_formed : (Instr.bpGet 33).wf = false := by decide
theorem test_counts_1_and_32_are_well_formed : (Instr.bpPut 1).wf && (Instr.bpGet 32).wf = true := by decide
theorem test_ill_formed_word_is_refused :
    decode (encode (.bpPut 0)) = .illegal .bitCount ∧ decode (encode (.bpGet 33)) = .illegal .bitCount := by decide

/-! ### Decode: every opcode of the table, its word written out bit by bit (R80, R82) -/

theorem test_decode_bp_winit : decode 0b00000000000000000000000000000001 = .command .bpWinit := by decide
theorem test_decode_bp_put : decode 0b00000000000000000000001100000010 = .command (.bpPut 3) := by decide
theorem test_decode_bp_flush : decode 0b00000000000000000000000000000011 = .command .bpFlush := by decide
theorem test_decode_bp_rinit : decode 0b00000000000000000000000000000100 = .command .bpRinit := by decide
theorem test_decode_bp_get : decode 0b00000000000000000010000000000101 = .command (.bpGet 32) := by decide
theorem test_decode_ht_count : decode 0b00000000000000000000000000010000 = .command .htCount := by decide
theorem test_decode_ht_build : decode 0b00000000000000000000000000010001 = .command .htBuild := by decide
theorem test_decode_ht_loadmeta : decode 0b00000000000000000000000000010010 = .command .htLoadmeta := by decide
theorem test_decode_ht_storemeta : decode 0b00000000000000000000000000010011 = .command .htStoremeta := by decide
theorem test_decode_he_encode : decode 0b00000000000000000000000000100000 = .command .heEncode := by decide
theorem test_decode_hd_decode : decode 0b00000000000000000000000000110000 = .command .hdDecode := by decide
theorem test_decode_lz_match : decode 0b00000000000000000000000001000000 = .command .lzMatch := by decide

/-- The cases of R84, at the edges of their ranges. -/
theorem test_illegal_words :
    decode 0x00000000 = .illegal .opcode ∧ decode 0x00000006 = .illegal .opcode ∧ decode 0x0000000F = .illegal .opcode ∧
    decode 0x00000014 = .illegal .opcode ∧ decode 0x00000041 = .illegal .opcode ∧ decode 0x000000FF = .illegal .opcode ∧
    decode 0x00000002 = .illegal .bitCount ∧ decode 0x00002105 = .illegal .bitCount ∧
    decode 0x00000101 = .illegal .countField ∧ decode 0x0000FF40 = .illegal .countField ∧
    decode 0x00010001 = .illegal .reservedBits ∧ decode 0x80000302 = .illegal .reservedBits := by decide

theorem test_table_words :
    decodeTableWord 32 0x00000702 = some (.bpPut 7) ∧ decodeTableWord 32 0x00000040 = some .lzMatch ∧
    decodeTableWord 32 0x00000002 = none := by decide

/-! ### States for the tests -/

/-- The state after reset of an instance with 4096 bytes of DMEM. -/
def base : State := { State.reset with params := ⟨0x1000, 2048, 64⟩ }

/-- Bytes put in DMEM by the host. -/
def place (a : Nat) (bs : List Byte) (s : State) : State := { s with dmem := Memory.writeBytes s.dmem a bs }

/-- SRC set. -/
def src (a l : Word) (s : State) : State := { s with srcAddr := a, srcLen := l }

/-- DST set. -/
def dst (a c : Word) (s : State) : State := { s with dstAddr := a, dstCap := c }

/-- The state after a command, where there is one. -/
def after (i : Instr) (s : State) : State :=
  match exec i s with
  | .next t => t
  | .fault _ => s
  | .refused _ => s

/-- An answer is a next state. -/
def isNext : Result → Bool
  | .next _ => true
  | .fault _ => false
  | .refused _ => false

theorem exec_after {i : Instr} {s : State} (h : isNext (exec i s) = true) : exec i s = .next (after i s) := by
  unfold after
  cases e : exec i s with
  | next t => rfl
  | fault r => rw [e] at h; simp [isNext] at h
  | refused r => rw [e] at h; simp [isNext] at h

/-- "abracadabra" -/
def abraText : List Byte := [0x61, 0x62, 0x72, 0x61, 0x63, 0x61, 0x64, 0x61, 0x62, 0x72, 0x61]
/-- A state with a tree, as HT_COUNT and HT_BUILD leave it. -/
def withTree (freq : List (Byte × Word)) (tree : List Node) (root : Nat) (codes : List (Byte × List Bool)) (s : State) : State :=
  { s with
    freq := tableOf 0 freq
    nsym := BitVec.ofNat 32 freq.length
    tree := tree
    root := some root
    code := tableOf [] codes
    treeValid := true }

/-- HT1's frequencies. -/
def abraFreq : List (Byte × Word) := [(0x61, 5), (0x62, 2), (0x63, 1), (0x64, 1), (0x72, 2)]
/-- HT1's nodes. -/
def abraTree : List Node :=
  [.leaf 5 0x61, .leaf 2 0x62, .leaf 1 0x63, .leaf 1 0x64, .leaf 2 0x72, .internal 2 2 3, .internal 4 1 4, .internal 6 5 6,
   .internal 11 0 7]
/-- HT1's codes. -/
def abraCodes : List (Byte × List Bool) :=
  [(0x61, [false]), (0x63, [true, false, false]), (0x64, [true, false, true]), (0x62, [true, true, false]),
   (0x72, [true, true, true])]
/-- "abracadabra" in SRC, not yet counted. -/
def abraSrc : State := src 0 11 (place 0 abraText base)
/-- "abracadabra" counted and built (HT1). -/
def abra : State := withTree abraFreq abraTree 8 abraCodes abraSrc
/-- "aaaa" counted and built (HT2). -/
def four : State := withTree [(0x61, 4)] [.leaf 4 0x61] 0 [(0x61, [false])] (src 0 4 (place 0 [0x61, 0x61, 0x61, 0x61] base))
/-- BP1: ten bits in an open stream. -/
def ten : State :=
  after (.bpPut 7) { after (.bpPut 3) { after .bpWinit (dst 0x100 4 base) with arg := 5 } with arg := 0x7F }
/-- BP12: ten bits to read. -/
def reader : State := after .bpRinit { src 0x100 2 (place 0x100 [0xBF, 0xC0] base) with bitcnt := 10 }
/-- HD1's stream, with the tree of "abracadabra". -/
def coded : State := { dst 0x200 16 (src 0x100 3 (place 0x100 [0x6E, 0x8A, 0xDC] abra)) with bitcnt := 23 }
/-- "ABABABAB" to be tokenized (P3). -/
def abab : State := dst 0x020 30 (src 0 8 (place 0 [0x41, 0x42, 0x41, 0x42, 0x41, 0x42, 0x41, 0x42] base))
/-- HT_BUILD issued and not yet performed. -/
def busyState : State := latch 0x11 base

/-! ### Steps with the results of spec/95_test_vectors.md -/

/-- BP10, BP11 -/
theorem test_bp_winit : (after .bpWinit (dst 0x1000 0 base)).status.errcode = .none ∧
    (after .bpWinit (dst 0xFFFFFFFF 2 base)).status.errcode = .address := by decide +kernel

/-- BP1 -/
theorem test_bp_put : Memory.read ten.dmem 0x100 = 0xBF ∧ ten.wpos = 10 ∧ ten.bitcnt = 10 ∧ ten.pbuf = 3 ∧
    Memory.find ten.dmem 0x101 = none := by decide +kernel

/-- BP5: exactly at capacity, then CAPACITY with STATUS = 0x0002060E; LASTOP is of the issue. -/
theorem test_bp_put_capacity :
    let s := after (.bpPut 8) { after .bpWinit (dst 0x100 1 base) with arg := 0xA5 }
    let t := after (.bpPut 1) (latch 0x102 { s with arg := 1 })
    Memory.read s.dmem 0x100 = 0xA5 ∧ s.wpos = 8 ∧ statusWord t = 0x0002060E ∧ t.wpos = 8 ∧ t.bitcnt = 8 := by decide +kernel

/-- BP2 -/
theorem test_bp_flush :
    let t := after .bpFlush ten
    Memory.read t.dmem 0x101 = 0xC0 ∧ t.bitcnt = 10 ∧ t.outLen = 2 ∧ t.wpos = 10 ∧ t.pbuf = 3 := by decide +kernel

/-- BP12, BP14 -/
theorem test_bp_rinit : reader.rbase = 0x100 ∧ reader.rlim = 10 ∧ reader.rdpos = 0 ∧
    (after .bpRinit { src 0x100 2 base with bitcnt := 17 }).status.errcode = .format ∧
    (after .bpRinit { src 0x100 2 base with bitcnt := 16 }).status.errcode = .none := by decide +kernel

/-- BP13 -/
theorem test_bp_get :
    let s := after (.bpGet 4) reader
    let t := after (.bpGet 6) s
    let u := after (.bpGet 1) t
    s.result = 0xB ∧ t.result = 0x3F ∧ t.rdpos = 10 ∧ u.status.errcode = .format ∧ u.result = 0x3F ∧ u.rdpos = 10 := by
  decide +kernel

/-- HT1 -/
theorem test_ht_count :
    let t := after .htCount abraSrc
    entry t.freq 0x61 = 5 ∧ entry t.freq 0x62 = 2 ∧ entry t.freq 0x63 = 1 ∧ entry t.freq 0x64 = 1 ∧ entry t.freq 0x72 = 2 ∧
    entry t.freq 0x65 = 0 ∧ t.nsym = 5 := by decide +kernel

/-- HT1 -/
theorem test_ht_build_tree : (after .htBuild abra).tree = abraTree ∧ (after .htBuild abra).root = some 8 := by decide +kernel

/-- HT1 -/
theorem test_ht_build_codes : codePairs abraTree (some 8) = abraCodes ∧ treeStatusWord abra = 0x00000301 := by decide +kernel

/-- HT18 -/
theorem test_ht_loadmeta :
    let t := after .htLoadmeta (src 0x10 11 (place 0x10 [1, 0, 0, 0, 0x61, 4, 0, 0, 0, 0xFF, 0xFF] base))
    t.status.errcode = .none ∧ entry t.freq 0x61 = 4 ∧ entry t.freq 0xFF = 0 ∧ t.nsym = 1 := by decide +kernel

/-- HT16 -/
theorem test_ht_loadmeta_duplicate :
    (after .htLoadmeta (src 0x10 14 (place 0x10 [2, 0, 0, 0, 0x61, 1, 0, 0, 0, 0x61, 1, 0, 0, 0] base))).status.errcode
      = .format := by decide +kernel

/-- HT20 -/
theorem test_ht_storemeta :
    let t := after .htStoremeta (dst 0x100 29 abra)
    Memory.readBytes t.dmem 0x100 29 =
      [5, 0, 0, 0, 0x61, 5, 0, 0, 0, 0x62, 2, 0, 0, 0, 0x63, 1, 0, 0, 0, 0x64, 1, 0, 0, 0, 0x72, 2, 0, 0, 0] ∧
    t.outLen = 29 ∧ (after .htStoremeta (dst 0x100 28 abra)).status.errcode = .capacity := by decide +kernel

/-- HE1 -/
theorem test_he_encode :
    let t := after .heEncode (dst 0x100 16 abra)
    Memory.readBytes t.dmem 0x100 3 = [0x6E, 0x8A, 0xDC] ∧ t.bitcnt = 23 ∧ t.outLen = 3 ∧ t.wpos = 23 ∧ t.pbuf = 0x6E := by
  decide +kernel

/-- HE8, HE9, HE7 -/
theorem test_he_encode_errors : (after .heEncode (place 5 [0x7A] (dst 0x100 16 abra))).status.errcode = .nosym ∧
    (after .heEncode (dst 0x100 2 abra)).status.errcode = .capacity ∧
    (after .heEncode (dst 0x100 2 (src 0 4 base))).status.errcode = .state := by decide +kernel

/-- HD1 -/
theorem test_hd_decode :
    let t := after .hdDecode coded
    Memory.readBytes t.dmem 0x200 11 = abraText ∧ t.outLen = 11 ∧ t.rdpos = 23 ∧ t.rlim = 23 := by decide +kernel

/-- P4: a one-symbol tree rejects a 1 bit. -/
theorem test_hd_decode_one_symbol :
    (after .hdDecode { dst 0x20 8 (src 0x10 1 (place 0x10 [8] four)) with bitcnt := 5 }).status.errcode = .format ∧
    (after .hdDecode { dst 0x20 8 (src 0x10 1 (place 0x10 [8] four)) with bitcnt := 4 }).outLen = 4 := by decide +kernel

/-- P3 -/
theorem test_lz_match :
    let t := after .lzMatch abab
    Memory.readBytes t.dmem 0x20 30 =
      [0, 0, 0, 0, 0, 0, 0, 0, 1, 0x41, 0, 0, 0, 0, 0, 0, 0, 0, 1, 0x42, 2, 0, 0, 0, 6, 0, 0, 0, 0, 0] ∧
    t.tokcnt = 3 ∧ t.outLen = 30 := by decide +kernel

/-- One byte less than three records: CAPACITY; a window above WINDOW_MAX: VALIDATION. -/
theorem test_lz_match_errors : (after .lzMatch (dst 0x20 29 abab)).status.errcode = .capacity ∧
    (after .lzMatch { abab with lzWindow := 2049 }).status.errcode = .validation := by decide +kernel

/-- The STATUS that one step leaves, 0 where there is no next state. -/
def statusAfterStep (s : State) : Word :=
  match step s with
  | .next t => statusWord t
  | .fault _ => 0
  | .refused _ => 0

/-- LC2, LC1, P4: STATUS after the step that performs a word, from reset. -/
theorem test_step_from_reset : statusAfterStep (State.reset.withFetchWord 32 0x11) = 0x00110002 ∧
    statusAfterStep (State.reset.withFetchWord 32 0) = 0x0000010E ∧
    statusAfterStep (State.reset.withFetchWord 32 0x10) = 0x00100002 := by decide +kernel

/-- LC4: the second CMD write while the first command is pending sets OVR and is dropped. -/
theorem test_issue_while_busy : statusWord (writeReg (writeReg base .cmd 0x11) .cmd 0x10) = 0x00110011 := by decide +kernel

/-- U9: a word is stored by its bytes, the least significant first. -/
theorem test_wide_host_write : memwWideOps 0x10 4 0xDEADBEEF = [.memw 0x10 0xEF, .memw 0x11 0xBE, .memw 0x12 0xAD, .memw 0x13 0xDE]
    ∧ wideValue 2 [.mem 0x11 0xBE, .mem 0x10 0xEF, .reg 0x018 0] = 0xBEEF := by decide

/-- P2's encoding half is HUFFENC with the caller's writes where R88 puts them. -/
theorem test_huffenc : huffEncOps (setSrcOps 0 11 ++ setDstOps 0x040 0x40) (setDstOps 0x080 0x10) =
    [wrOp 0x020 0, wrOp 0x024 11, wrOp 0x028 0x040, wrOp 0x02C 0x40, wrOp 0x014 0x10, .wait, wrOp 0x014 0x11, .wait,
     wrOp 0x014 0x13, .wait, wrOp 0x028 0x080, wrOp 0x02C 0x10, wrOp 0x014 0x20, .wait] := by decide

/-- LC6, LC8, LC9 -/
theorem test_registers : readReg (writeReg base .ctrl 2) .ctrl = 2 ∧ readReg (writeReg base .lzWindow 0) .lzWindow = 0 ∧
    regAt 0x01C = .reserved ∧ regAt 0x7FC = .freq 0xFF ∧ regAt 0xBFC = .codelen 0xFF ∧ regAt 0xC00 = .reserved := by
  decide +kernel

/-! ### Witnesses: for each statement with premises, a state and operands that meet them all -/

theorem witness_DecodedWordIsTheEncoding : decode 0x00002002 = .command (.bpPut 32) := by decide

theorem witness_StepRunsTheDecodedCommand :
    (busyState.pending = some 0x11 ∧ decode 0x11 = .command .htBuild ∧ busyState.delay = 0) ∧
    ((latch 0 base).pending = some 0 ∧ decode 0 = .illegal .opcode ∧ (latch 0 base).hostOps = []) ∧
    ({ busyState with delay := 1, hostOps := [.wait] } : State).hostOps = .wait :: [] ∧
    0 < ({ busyState with delay := 1, hostOps := [.wait] } : State).delay := by decide +kernel

theorem witness_FetchedWordRunsNext : (Instr.bpGet 1).wf = true ∧ (Instr.lzMatch).wf = true := by decide

theorem witness_IllegalWordChangesOnlyStatus :
    (latch 0x3302 base).pending = some 0x3302 ∧ (∀ i, decode 0x3302 ≠ .command i) ∧ (latch 0x3302 base).delay = 0 := by
  refine ⟨by decide +kernel, fun i h => ?_, by decide +kernel⟩
  have e : decode 0x3302 = .illegal .bitCount := by decide
  rw [e] at h
  exact Decoded.noConfusion h

theorem witness_CompletionRecordsTheCode :
    (∃ t, exec .htBuild base = .next t) ∧ (∃ t, exec (.bpPut 1) base = .next t ∧ t.status.errcode = .capacity) :=
  ⟨⟨_, exec_after (by decide +kernel)⟩, ⟨_, exec_after (by decide +kernel), by decide +kernel⟩⟩

theorem witness_CmdWriteIssuesTheWord : base.busy = false := by decide +kernel

theorem witness_CmdWriteWhileBusySetsOvr : busyState.busy = true ∧
    ∃ s t : State, step s = .next t ∧ s.status.ovr = true ∧ s.status.anyerr = true ∧ s.hostOps = [] :=
  ⟨by decide +kernel,
    { base with status := ⟨true, false, true, true, .none, 0⟩ }, { base with status := ⟨true, false, true, true, .none, 0⟩ },
    rfl, rfl, rfl, rfl⟩

/-- Each clause of RegistersWhileBusy at the ends of its offsets. -/
theorem witness_RegistersWhileBusy : busyState.busy = true ∧
    ((0x010 : BitVec 12) ≠ 0x014 ∧ (2 : Word).getLsbD 0 = false) ∧
    (∀ o ∈ [(0x000 : BitVec 12), 0x050], o.toNat % 4 = 0 ∧
      o.toNat ∈ [0x000, 0x004, 0x008, 0x00C, 0x010, 0x018, 0x020, 0x024, 0x028, 0x02C, 0x044, 0x04C, 0x050]) ∧
    (∀ o ∈ [(0x030 : BitVec 12), 0x05C], o.toNat % 4 = 0 ∧
      o.toNat ∈ [0x030, 0x034, 0x038, 0x03C, 0x040, 0x048, 0x054, 0x058, 0x05C]) ∧
    (∀ o ∈ [(0x400 : BitVec 12), 0xBFC], o.toNat % 4 = 0 ∧ 0x400 ≤ o.toNat ∧ o.toNat < 0xC00) := by
  refine ⟨by decide +kernel, ?_⟩
  simp

theorem base_tables : TablesOk base := ⟨by unfold NsymOk; decide +kernel, nofun, fun _ => ⟨rfl, rfl, rfl⟩⟩

theorem abra_tables : TablesOk abra := by
  have tree : buildNodes (tableOf 0 abraFreq) = abraTree := by decide +kernel
  have codes : codePairs abraTree (some 8) = abraCodes := by decide +kernel
  refine ⟨by unfold NsymOk; decide +kernel, fun _ => ⟨tree.symm, rfl, ?_⟩, nofun⟩
  show tableOf [] abraCodes = codesOf abraTree (some 8)
  rw [codesOf, codes]

theorem base_meets_the_invariants : TablesOk base ∧ WriterOk base ∧ ReaderOk base ∧ DmemOk base :=
  ⟨base_tables, by unfold WriterOk ReaderOk DmemOk; decide +kernel⟩

theorem busyState_meets_the_invariants : TablesOk busyState ∧ WriterOk busyState ∧ ReaderOk busyState ∧ DmemOk busyState :=
  base_meets_the_invariants

theorem abra_meets_the_invariants : TablesOk abra ∧ WriterOk abra ∧ ReaderOk abra ∧ DmemOk abra :=
  ⟨abra_tables, by unfold WriterOk ReaderOk DmemOk; decide +kernel⟩

theorem witness_PolledCommandCompletes :
    let s := { busyState with hostOps := [.wait, rdOp 0x058], delay := 2 }
    s.pending = some 0x11 ∧ s.hostOps = .wait :: [rdOp 0x058] ∧ TablesOk s := ⟨rfl, rfl, base_tables⟩

theorem witness_SoftResetRestoresResetValues : (3 : Word).getLsbD 0 = true ∧ base.busy = false ∧
    ((latch 0x06 base).pending = some 0x06 ∧ ∀ i, decode 0x06 ≠ .command i) ∧
    (busyState.pending = some 0x11 ∧ decode 0x11 = .command .htBuild) := by
  refine ⟨by decide, by decide +kernel, ⟨by decide +kernel, fun i h => ?_⟩, by decide +kernel⟩
  have e : decode 0x06 = .illegal .opcode := by decide
  rw [e] at h
  exact Decoded.noConfusion h

theorem witness_CtrlWriteSetsEmptyErr : base.busy = false ∧ (0xFFFFFFFE : Word).getLsbD 0 = false := by decide +kernel

/-- Each clause of ReadOnlyAndReservedOffsets at the ends of its offsets. -/
theorem witness_ReadOnlyAndReservedOffsets :
    (∀ o ∈ [(0x000 : BitVec 12), 0x05C], o.toNat % 4 = 0 ∧
      o.toNat ∈ [0x000, 0x004, 0x008, 0x00C, 0x018, 0x01C, 0x030, 0x03C, 0x040, 0x048, 0x054, 0x058, 0x05C]) ∧
    (∀ o ∈ [(0x060 : BitVec 12), 0xFFC], o.toNat % 4 = 0 ∧ 0x060 ≤ o.toNat) ∧
    (∀ o ∈ [(0x014 : BitVec 12), 0x01C], o.toNat % 4 = 0 ∧ o.toNat ∈ [0x014, 0x01C]) ∧
    (∀ o ∈ [(0x060 : BitVec 12), 0x3FC], o.toNat % 4 = 0 ∧ 0x060 ≤ o.toNat ∧ o.toNat < 0x400) ∧
    (∀ o ∈ [(0xC00 : BitVec 12), 0xFFC], o.toNat % 4 = 0 ∧ 0xC00 ≤ o.toNat) := by simp

/-- The table windows at the ends of their offsets. -/
theorem witness_WrittenRegistersReadBack : base.busy = false ∧
    (0x400 : BitVec 12).toNat = 0x400 + 4 * (0 : Byte).toNat ∧ (0x7FC : BitVec 12).toNat = 0x400 + 4 * (0xFF : Byte).toNat ∧
    (0x800 : BitVec 12).toNat = 0x800 + 4 * (0 : Byte).toNat ∧
    (0xBFC : BitVec 12).toNat = 0x800 + 4 * (0xFF : Byte).toNat := by decide +kernel

theorem witness_HostDmemBytes : base.busy = false ∧ 0xFFF < base.params.dmemSize ∧ base.params.dmemSize ≤ 0x1000 ∧
    busyState.busy = true := by decide +kernel

theorem witness_CommandsNeverWriteHostRegisters : ∃ t, exec .heEncode (dst 0x100 16 abra) = .next t :=
  ⟨_, exec_after (by decide +kernel)⟩

theorem witness_OnlyTheListedCommandsWrite :
    (∃ s t, exec .htCount s = .next t ∧ t.nsym ≠ s.nsym) ∧
    (∃ s t, exec .htBuild s = .next t ∧ s.treeValid = false ∧ t.treeValid = true) ∧
    (∃ s t, exec .bpFlush s = .next t ∧ t.outLen ≠ s.outLen) ∧
    (∃ s t, exec (.bpGet 4) s = .next t ∧ t.result ≠ s.result ∧ t.rdpos ≠ s.rdpos) ∧
    (∃ s t, exec .lzMatch s = .next t ∧ t.tokcnt ≠ s.tokcnt) ∧
    (∃ s t, exec .heEncode s = .next t ∧ t.bitcnt ≠ s.bitcnt ∧ t.wbase ≠ s.wbase ∧ t.wpos ≠ s.wpos) ∧
    (∃ s t, exec .hdDecode s = .next t ∧ t.rbase ≠ s.rbase) :=
  ⟨⟨abraSrc, _, exec_after (by decide +kernel), by decide +kernel⟩,
   ⟨base, _, exec_after (by decide +kernel), by decide +kernel⟩,
   ⟨ten, _, exec_after (by decide +kernel), by decide +kernel⟩,
   ⟨reader, _, exec_after (by decide +kernel), by decide +kernel⟩,
   ⟨abab, _, exec_after (by decide +kernel), by decide +kernel⟩,
   ⟨dst 0x100 16 abra, _, exec_after (by decide +kernel), by decide +kernel⟩,
   ⟨coded, _, exec_after (by decide +kernel), by decide +kernel⟩⟩

/-- A start error of each kind (R183). -/
theorem witness_StartErrorsChangeOnlyStatus :
    (∃ t, exec .bpWinit (dst 0xFFE 3 base) = .next t ∧ t.status.errcode = .address) ∧
    (∃ t, exec .lzMatch (dst 7 30 abab) = .next t ∧ t.status.errcode = .validation) ∧
    (∃ t, exec .heEncode base = .next t ∧ t.status.errcode = .state) ∧
    (∃ t, exec .htCount { base with emptyErr := true } = .next t ∧ t.status.errcode = .empty) ∧
    (∃ t, exec .htLoadmeta (src 0 3 base) = .next t ∧ t.status.errcode = .format) ∧
    (∃ t, exec .hdDecode { coded with bitcnt := 25 } = .next t ∧ t.status.errcode = .format ∧
      DecodeStartFormat { coded with bitcnt := 25 }) ∧
    (∃ t, exec (.bpPut 32) base = .next t ∧ t.status.errcode = .capacity) ∧
    (∃ t, exec .htStoremeta (dst 0 3 base) = .next t ∧ t.status.errcode = .capacity) ∧
    (∃ t, exec (.bpGet 33) base = .next t ∧ t.status.errcode = .illegal) ∧
    (decode 0x0002 = .illegal .bitCount ∧ runWord 0x0002 base = .next (complete .illegal base)) :=
  ⟨⟨_, exec_after (by decide +kernel), by decide +kernel⟩, ⟨_, exec_after (by decide +kernel), by decide +kernel⟩,
   ⟨_, exec_after (by decide +kernel), by decide +kernel⟩, ⟨_, exec_after (by decide +kernel), by decide +kernel⟩,
   ⟨_, exec_after (by decide +kernel), by decide +kernel⟩, ⟨_, exec_after (by decide +kernel), by decide +kernel⟩,
   ⟨_, exec_after (by decide +kernel), by decide +kernel⟩, ⟨_, exec_after (by decide +kernel), by decide +kernel⟩,
   ⟨_, exec_after (by decide +kernel), by decide +kernel⟩, by decide, rfl⟩

theorem witness_RunErrorsKeepTheRest :
    (∃ s t, exec .heEncode s = .next t ∧ t.status.errcode = .nosym) ∧
    (∃ s t, exec .heEncode s = .next t ∧ t.status.errcode = .capacity) ∧
    (∃ s t, exec .hdDecode s = .next t ∧ t.status.errcode = .capacity) ∧
    (∃ s t, exec .hdDecode s = .next t ∧ t.status.errcode = .format ∧ ¬DecodeStartFormat s) ∧
    (∃ s t, exec .lzMatch s = .next t ∧ t.status.errcode = .capacity) :=
  ⟨⟨place 5 [0x7A] (dst 0x100 16 abra), _, exec_after (by decide +kernel), by decide +kernel⟩,
   ⟨dst 0x100 2 abra, _, exec_after (by decide +kernel), by decide +kernel⟩,
   ⟨dst 0x200 10 coded, _, exec_after (by decide +kernel), by decide +kernel⟩,
   ⟨{ coded with bitcnt := 21 }, _, exec_after (by decide +kernel), by decide +kernel⟩,
   ⟨dst 0x20 29 abab, _, exec_after (by decide +kernel), by decide +kernel⟩⟩

theorem witness_CommandsWriteOnlyTheirRange :
    (∃ t, exec .heEncode (dst 0x100 2 abra) = .next t ∧ t.status.errcode = .capacity) ∧
    (¬WriterOk { base with wpos := 9 } ∧ ∃ t, exec .bpFlush { base with wpos := 9 } = .next t) := by
  refine ⟨⟨_, exec_after (by decide +kernel), by decide +kernel⟩, ?_, _, exec_after (by decide +kernel)⟩
  unfold WriterOk; decide +kernel

theorem witness_CommandsReadOnlyTheirRange :
    let s := src 0 2 base
    (∃ t, exec .htCount s = .next t) ∧ s.dmem ≠ [(2, 7)] ∧
    SameInside s.dmem [(2, 7)] (readRange .htCount s).1 (readRange .htCount s).2 := by
  refine ⟨⟨_, exec_after (by decide +kernel)⟩, by decide +kernel, fun x _ h => ?_⟩
  have hx : x < 2 := by simpa [readRange, src] using h
  have h2 : ¬(2 = x) := by omega
  simp [src, base, State.reset, Memory.read, Memory.find, h2]

theorem witness_EveryStepKeeps : (DmemOk busyState ∧ TablesOk busyState) ∧ ∃ t, step busyState = .next t :=
  ⟨⟨busyState_meets_the_invariants.2.2.2, busyState_meets_the_invariants.1⟩, _, rfl⟩

theorem witness_CommandsKeepStreamInvariants :
    (∃ t, exec .heEncode (dst 0x100 16 abra) = .next t ∧ t.status.errcode ≠ .nosym ∧ t.status.errcode ≠ .capacity) ∧
    WriterOk (dst 0x100 16 abra) ∧
    (∃ t, exec .hdDecode coded = .next t ∧ t.status.errcode ≠ .capacity ∧ t.status.errcode ≠ .format) ∧ ReaderOk coded := by
  refine ⟨⟨_, exec_after (by decide +kernel), by decide +kernel⟩, ?_,
    ⟨_, exec_after (by decide +kernel), by decide +kernel⟩, ?_⟩
  · unfold WriterOk; decide +kernel
  · unfold ReaderOk; decide +kernel

theorem witness_EveryCommandCompletes : TablesOk abra ∧ Instr.bpFlush ≠ .hdDecode := ⟨abra_tables, by decide⟩

/-- LC5 and the last checks of each command: SRC at the end of DMEM, ranges that share one byte, no tree, an empty input, one
bit too many, a window one too large. -/
theorem witness_StartChecksInPriorityOrder :
    (abra.params.dmemSize < (src 0xFFF 2 abra).srcAddr.toNat + (src 0xFFF 2 abra).srcLen.toNat) ∧
    (srcOK (dst 10 1 abra) = true ∧ dstOK (dst 10 1 abra) = true ∧ srcDstOverlap (dst 10 1 abra) = true) ∧
    (srcOK base = true ∧ dstOK base = true ∧ srcDstOverlap base = false ∧ base.treeValid = false) ∧
    (let s := { src 0 0 abra with emptyErr := true }
     srcOK s = true ∧ dstOK s = true ∧ srcDstOverlap s = false ∧ s.treeValid = true ∧ s.srcLen = 0 ∧ s.emptyErr = true) ∧
    (let s := { coded with bitcnt := 25 }
     srcOK s = true ∧ dstOK s = true ∧ srcDstOverlap s = false ∧ s.treeValid = true ∧ DecodeStartFormat s) ∧
    (let s := { abab with lzWindow := 2049 }
     srcOK s = true ∧ dstOK s = true ∧ srcDstOverlap s = false ∧ s.params.windowMax < s.lzWindow.toNat) := by decide +kernel

theorem witness_BpWinitOpensAStream :
    (dst 0x1000 0 base).dstAddr.toNat + (dst 0x1000 0 base).dstCap.toNat ≤ base.params.dmemSize ∧
    base.params.dmemSize < (dst 0xFFFFFFFF 2 base).dstAddr.toNat + (dst 0xFFFFFFFF 2 base).dstCap.toNat := by decide +kernel

theorem ten_holds : StreamHolds ten [true, false, true, true, true, true, true, true, true, true] := by
  unfold StreamHolds; decide +kernel

/-- N = 22 fills the stream to the last bit of WCAP. -/
theorem witness_BpPutAppendsTheBits : 1 ≤ (22 : Byte).toNat ∧ (22 : Byte).toNat ≤ 32 ∧
    ten.wpos.toNat + (22 : Byte).toNat ≤ 8 * ten.wcap.toNat ∧ ten.wbase.toNat + ten.wcap.toNat ≤ ten.params.dmemSize ∧
    StreamHolds ten [true, false, true, true, true, true, true, true, true, true] :=
  ⟨by decide, by decide, by decide +kernel, by decide +kernel, ten_holds⟩

theorem witness_BpPutErrors : (0 : Byte).toNat = 0 ∧ 32 < (33 : Byte).toNat ∧
    8 * ten.wcap.toNat < ten.wpos.toNat + (23 : Byte).toNat ∧ 8 * base.wcap.toNat < base.wpos.toNat + (1 : Byte).toNat := by
  decide +kernel

theorem witness_BpFlushWritesThePaddedByte :
    (ten.wpos.toNat % 8 ≠ 0 ∧ ten.wpos.toNat / 8 < ten.wcap.toNat ∧ (ten.wpos.toNat + 7) / 8 < 2 ^ 32 ∧
      ten.wbase.toNat + ten.wpos.toNat / 8 < ten.params.dmemSize) ∧ base.wpos.toNat % 8 = 0 := by decide +kernel

/-- After a run error the stream may be any: BP_FLUSH, BP_PUT and BP_GET complete, and change no byte outside the stream's range
or outside DMEM (R71, R184, R214 (d)). -/
theorem test_broken_streams_complete :
    (after .bpFlush { base with wpos := 9, pbuf := 1 }).dmem = [] ∧
    (after .bpFlush { base with wpos := 9, pbuf := 1 }).outLen = 2 ∧
    (after (.bpPut 8) { base with wbase := 0x1000, wcap := 1 }).dmem = [] ∧
    (after (.bpPut 8) { base with wbase := 0x1000, wcap := 1 }).wpos = 8 ∧
    (after (.bpGet 8) { base with rbase := 0x1000, rlim := 9 }).rdpos = 8 := by decide +kernel

theorem witness_WriterLaw : ∃ s0 s1, exec .bpWinit (dst 0x100 4 base) = .next s0 ∧ s0.status.errcode = .none ∧
    runPuts [(3, 5), (7, 0x7F), (22, 1)] s0 = some s1 := by
  have h : (runPuts [(3, 5), (7, 0x7F), (22, 1)] (after .bpWinit (dst 0x100 4 base))).isSome = true := by decide +kernel
  exact ⟨_, _, exec_after (by decide +kernel), by decide +kernel, (Option.some_get h).symm⟩

theorem witness_BpRinitOpensAStream :
    let s := { src 0xFFE 2 base with bitcnt := 16 }
    (s.srcAddr.toNat + s.srcLen.toNat ≤ s.params.dmemSize ∧ (s.bitcnt.toNat + 7) / 8 ≤ s.srcLen.toNat) ∧
    (s.params.dmemSize < (src 0xFFF 2 s).srcAddr.toNat + (src 0xFFF 2 s).srcLen.toNat) ∧
    ((src 0 1 s).srcLen.toNat < (s.bitcnt.toNat + 7) / 8) := by decide +kernel

theorem witness_BpGetReadsTheBits : 1 ≤ (10 : Byte).toNat ∧ (10 : Byte).toNat ≤ 32 ∧
    reader.rdpos.toNat + (10 : Byte).toNat ≤ reader.rlim.toNat ∧
    reader.rbase.toNat + ceil8 (reader.rdpos.toNat + (10 : Byte).toNat) ≤ reader.params.dmemSize ∧
    reader.rbase.toNat + (reader.rdpos.toNat + 9) / 8 < reader.params.dmemSize := by decide +kernel

theorem witness_BpGetErrors : (0 : Byte).toNat = 0 ∧ 32 < (33 : Byte).toNat ∧
    reader.rlim.toNat < reader.rdpos.toNat + (11 : Byte).toNat := by decide +kernel

/-- BP12's bits and the counts 4 and 6; one more bit is too many. -/
theorem witness_ReaderLaw :
    let s := { src 0x100 2 (place 0x100 [0xBF, 0xC0] base) with bitcnt := 10 }
    let bits := [true, false, true, true, true, true, true, true, true, true]
    (∃ s0, exec .bpRinit s = .next s0 ∧ s0.status.errcode = .none) ∧ s.bitcnt.toNat = bits.length ∧
    Memory.readBytes s.dmem s.srcAddr.toNat (ceil8 bits.length) = pack bits ∧
    (∀ n ∈ [(4 : Byte), 6, 1], countOk n = true) ∧ ([(4 : Byte), 6].map BitVec.toNat).sum ≤ bits.length ∧
    bits.length < ([(4 : Byte), 6, 1].map BitVec.toNat).sum :=
  ⟨⟨_, exec_after (by decide +kernel), by decide +kernel⟩, by decide +kernel⟩

theorem witness_PutGetRoundTrip : ∃ s0 s1 t, exec .bpWinit (dst 0x100 4 base) = .next s0 ∧ s0.status.errcode = .none ∧
    runPuts [(3, 5), (7, 0x7F)] s0 = some s1 ∧ exec .bpFlush s1 = .next t := by
  have h : (runPuts [(3, 5), (7, 0x7F)] (after .bpWinit (dst 0x100 4 base))).isSome = true := by decide +kernel
  refine ⟨_, (runPuts [(3, 5), (7, 0x7F)] (after .bpWinit (dst 0x100 4 base))).getD base, _,
    exec_after (by decide +kernel), by decide +kernel, ?_, exec_after (by decide +kernel)⟩
  obtain ⟨u, hu⟩ := Option.isSome_iff_exists.mp h
  rw [hu, Option.getD_some]

theorem witness_HtCountCountsSrc :
    let s := src 0xFFC 4 base
    (s.srcAddr.toNat + s.srcLen.toNat ≤ s.params.dmemSize ∧ ¬(s.srcLen = 0 ∧ s.emptyErr = true)) ∧
    (s.params.dmemSize < (src 0xFFD 4 s).srcAddr.toNat + (src 0xFFD 4 s).srcLen.toNat) ∧
    (let e := { src 0x1000 0 base with emptyErr := true }
     e.srcAddr.toNat + e.srcLen.toNat ≤ e.params.dmemSize ∧ e.srcLen = 0 ∧ e.emptyErr = true) := by decide +kernel

/-- At HT1's node 5 the leaf a is no child yet, and comes after the two merged there. -/
theorem witness_TreeShape : (buildNodes abra.freq)[5]? = some (.internal 2 2 3) ∧ 0 < 5 ∧ 0 ≠ 2 ∧ 0 ≠ 3 ∧
    (buildNodes abra.freq)[3]? = some (.leaf 1 0x64) ∧ (buildNodes abra.freq)[0]? = some (.leaf 5 0x61) := by decide +kernel

theorem witness_CodesFormAPrefixFreeTable : ∃ t, exec .htBuild abra = .next t ∧ entry t.code 0x61 ≠ [] ∧
    entry t.code 0x62 ≠ [] := ⟨_, exec_after (by decide +kernel), by decide +kernel⟩

theorem witness_CodeLengthsSumToOne : (∃ t, exec .htBuild abra = .next t) ∧ 2 ≤ symbolCount abra.freq :=
  ⟨⟨_, exec_after (by decide +kernel)⟩, by decide +kernel⟩

/-- HT18 and HT19; an SRC too short for the count is no image. -/
theorem witness_HtLoadmetaLoadsTheImage :
    (let s := src 0x10 11 (place 0x10 [1, 0, 0, 0, 0x61, 4, 0, 0, 0, 0xFF, 0xFF] base)
     s.srcAddr.toNat + s.srcLen.toNat ≤ s.params.dmemSize ∧ ImageAtSrc s [(0x61, 4)]) ∧
    ImageAtSrc (src 0 4 (place 0 [0, 0, 0, 0] base)) [] ∧
    ((src 0 3 base).srcAddr.toNat + (src 0 3 base).srcLen.toNat ≤ base.params.dmemSize ∧
      ∀ ps, ¬ImageAtSrc (src 0 3 base) ps) ∧
    base.params.dmemSize < (src 0x1000 1 base).srcAddr.toNat + (src 0x1000 1 base).srcLen.toNat := by
  have one : imageOf [(0x61, 4)] = [1, 0, 0, 0, 0x61, 4, 0, 0, 0] := by decide
  have no : imageOf [] = [0, 0, 0, 0] := by decide
  refine ⟨⟨by decide +kernel, by simp, by simp, ?_, ?_⟩, ⟨by simp, by simp, ?_, ?_⟩,
    ⟨by decide +kernel, fun ps h => ?_⟩, by decide +kernel⟩
  · rw [one]; decide +kernel
  · rw [one]; decide +kernel
  · rw [no]; decide +kernel
  · rw [no]; decide +kernel
  · have h3 : (imageOf ps).length ≤ 3 := h.2.2.1
    simp [imageOf, leBytes] at h3
    omega

theorem witness_HtStoremetaStoresTheImage :
    (let s := dst 0x100 29 abra
     NsymOk s ∧ s.dstAddr.toNat + s.dstCap.toNat ≤ s.params.dmemSize ∧ 4 + 5 * s.nsym.toNat ≤ s.dstCap.toNat) ∧
    (abra.params.dmemSize < (dst 0xFFF 2 abra).dstAddr.toNat + (dst 0xFFF 2 abra).dstCap.toNat) ∧
    (dst 0x100 28 abra).dstCap.toNat < 4 + 5 * (dst 0x100 28 abra).nsym.toNat :=
  ⟨⟨abra_tables.1, by decide +kernel⟩, by decide +kernel⟩

theorem witness_MetadataRoundTrip : NsymOk (dst 0x100 29 abra) ∧
    ∃ t, exec .htStoremeta (dst 0x100 29 abra) = .next t ∧ t.status.errcode = .none :=
  ⟨abra_tables.1, _, exec_after (by decide +kernel), by decide +kernel⟩

/-- HE1 with exactly the three bytes it needs. -/
theorem witness_HeEncodeWritesThePackedCodes :
    let s := dst 0x100 3 abra
    let bits := (srcBytes s).flatMap (entry s.code)
    srcOK s = true ∧ dstOK s = true ∧ srcDstOverlap s = false ∧ s.treeValid = true ∧ ¬(s.srcLen = 0 ∧ s.emptyErr = true) ∧
    (∀ b ∈ srcBytes s, entry s.code b ≠ []) ∧ bits.length ≤ 8 * s.dstCap.toNat := by decide +kernel

/-- HE9 (the code of byte 8 does not fit) and a byte without a code. -/
theorem witness_HeEncodeStopsAtTheFirstBadByte :
    (let s := dst 0x100 2 abra
     srcOK s = true ∧ dstOK s = true ∧ srcDstOverlap s = false ∧ s.treeValid = true ∧
     srcBytes s = abraText.take 8 ++ 0x62 :: abraText.drop 9 ∧ (∀ x ∈ abraText.take 8, entry s.code x ≠ []) ∧
     ((abraText.take 8).flatMap (entry s.code)).length ≤ 8 * s.dstCap.toNat ∧ entry s.code 0x62 ≠ [] ∧
     8 * s.dstCap.toNat < ((abraText.take 8).flatMap (entry s.code)).length + (entry s.code 0x62).length) ∧
    (let s := place 0 [0x7A] (dst 0x100 2 abra)
     srcBytes s = [] ++ 0x7A :: abraText.drop 1 ∧ entry s.code 0x7A = []) := by decide +kernel

theorem witness_OneSymbolInputEncodesToZeros :
    let s := dst 0x100 1 (src 0 4 (place 0 [0x61, 0x61, 0x61, 0x61] base))
    srcOK s = true ∧ dstOK s = true ∧ srcDstOverlap s = false ∧ s.srcLen ≠ 0 ∧ s.srcLen.toNat ≤ 8 * s.dstCap.toNat ∧
    ∀ i, i < s.srcLen.toNat → srcByte s i = 0x61 := by decide +kernel

theorem witness_HdDecodeInvertsTheCodes : TablesOk coded ∧ coded.treeValid = true ∧ srcOK coded = true ∧ dstOK coded = true ∧
    srcDstOverlap coded = false ∧ (∀ b ∈ abraText, entry coded.code b ≠ []) ∧
    coded.bitcnt.toNat = (abraText.flatMap (entry coded.code)).length ∧ ceil8 coded.bitcnt.toNat ≤ coded.srcLen.toNat ∧
    Memory.readBytes coded.dmem coded.srcAddr.toNat (ceil8 coded.bitcnt.toNat) = pack (abraText.flatMap (entry coded.code)) ∧
    abraText.length ≤ coded.dstCap.toNat := by
  exact ⟨abra_tables, by decide +kernel⟩

theorem witness_HdDecodeConsumesExactlyTheBits : TablesOk coded ∧ ∃ t, exec .hdDecode coded = .next t ∧
    t.status.errcode = .none := ⟨witness_HdDecodeInvertsTheCodes.1, _, exec_after (by decide +kernel), by decide +kernel⟩

/-- P4: four zero bits, then a 1 bit; and the four zero bits alone. -/
theorem witness_OneSymbolTreeRejectsOnes :
    (let s := { dst 0x20 8 (src 0x10 1 (place 0x10 [8] four)) with bitcnt := 5 }
     s.treeValid = true ∧ s.root = some 0 ∧ s.tree[0]? = some (.leaf 4 0x61) ∧ srcOK s = true ∧ dstOK s = true ∧
     srcDstOverlap s = false ∧ ceil8 s.bitcnt.toNat ≤ s.srcLen.toNat ∧ 4 ≤ s.dstCap.toNat ∧ 4 < s.bitcnt.toNat ∧
     (∀ j, j < 4 → streamBit s.dmem s.srcAddr.toNat j = false) ∧ streamBit s.dmem s.srcAddr.toNat 4 = true) ∧
    (let s := { dst 0x20 4 (src 0x10 1 (place 0x10 [8] four)) with bitcnt := 4 }
     srcOK s = true ∧ dstOK s = true ∧ srcDstOverlap s = false ∧ ceil8 s.bitcnt.toNat ≤ s.srcLen.toNat ∧
     4 ≤ s.dstCap.toNat ∧ 4 = s.bitcnt.toNat ∧ ∀ j, j < 4 → streamBit s.dmem s.srcAddr.toNat j = false) := by decide +kernel

/-- HD1's stream with room for ten of its eleven symbols. -/
theorem witness_HdDecode_capacity :
    let s := dst 0x200 10 coded
    TablesOk s ∧ s.treeValid = true ∧ srcOK s = true ∧ dstOK s = true ∧ srcDstOverlap s = false ∧
    ceil8 s.bitcnt.toNat ≤ s.srcLen.toNat ∧ (∀ b ∈ abraText.take 10, entry s.code b ≠ []) ∧
    streamBits s.dmem s.srcAddr.toNat 0 s.bitcnt.toNat = (abraText.take 10).flatMap (entry s.code) ++ [false] ∧
    (abraText.take 10).length = s.dstCap.toNat ∧ entry s.code 0x61 = [false] := ⟨abra_tables, by decide +kernel⟩

/-- HD1's stream cut after two of the three bits of its tenth symbol. -/
theorem witness_HdDecode_format :
    let s := { coded with bitcnt := 21 }
    TablesOk s ∧ s.treeValid = true ∧ srcOK s = true ∧ dstOK s = true ∧ srcDstOverlap s = false ∧
    ceil8 s.bitcnt.toNat ≤ s.srcLen.toNat ∧ (∀ b ∈ abraText.take 9, entry s.code b ≠ []) ∧
    streamBits s.dmem s.srcAddr.toNat 0 s.bitcnt.toNat = (abraText.take 9).flatMap (entry s.code) ++ [true, true] ∧
    (abraText.take 9).length ≤ s.dstCap.toNat ∧ entry s.code 0x72 = [true, true] ++ [true] := ⟨abra_tables, by decide +kernel⟩

theorem witness_HuffmanRoundTrip :
    let s := dst 0x100 16 (src 0 11 (place 0 abraText base))
    ∃ a b c, exec .htCount s = .next a ∧ a.status.errcode = .none ∧ exec .htBuild a = .next b ∧
      exec .heEncode b = .next c ∧ c.status.errcode = .none ∧
      rangeOK s.params.dmemSize (0x103 : Word).toNat (11 : Word).toNat = true ∧
      overlap s.dstAddr.toNat c.outLen.toNat (0x103 : Word).toNat (11 : Word).toNat = false ∧
      s.srcLen.toNat ≤ (11 : Word).toNat :=
  ⟨_, _, _, exec_after (by decide +kernel), by decide +kernel, exec_after (by decide +kernel),
    exec_after (by decide +kernel), by decide +kernel⟩

/-- P3: exactly three records fit, and with one byte less they do not. -/
theorem witness_LzMatchWritesTheTokens :
    srcOK abab = true ∧ dstOK abab = true ∧ srcDstOverlap abab = false ∧ abab.lzWindow.toNat ≤ abab.params.windowMax ∧
    abab.lzLookahead.toNat ≤ abab.params.lookaheadMax ∧
    srcTokens abab = [⟨0, 0, some 0x41⟩, ⟨0, 0, some 0x42⟩, ⟨2, 6, none⟩] ∧
    10 * (srcTokens abab).length ≤ abab.dstCap.toNat ∧
    (dst 0x20 29 abab).dstCap.toNat < 10 * (srcTokens (dst 0x20 29 abab)).length := by decide +kernel

/-- The last token of "ABABABAB" has no literal, the first has one. -/
theorem witness_TokenInvariants :
    let toks := tokenize (srcByte abab) 8 2048 32
    toks[0]? = some ⟨0, 0, some 0x41⟩ ∧ toks[2]? = some ⟨2, 6, none⟩ := by decide +kernel

theorem witness_LongestMatchIsLongestAndNearest : 2 < 8 ∧ longestMatch (srcByte abab) 8 2048 32 2 = (2, 6) ∧
    longestMatch (srcByte abab) 8 2048 32 0 = (0, 0) ∧ IsMatch (srcByte abab) 8 32 2 2 6 := by
  unfold IsMatch; decide +kernel

theorem witness_WideHostAccessesAreLittleEndian :
    let s := { base with hostOps := memwWideOps 0xFFC 4 0xDEADBEEF ++ memrOps 0xFFC 4 ++ [HostOp.wait] }
    s.busy = false ∧ 0xFFC + 4 ≤ s.params.dmemSize ∧
    s.hostOps = memwWideOps 0xFFC 4 0xDEADBEEF ++ memrOps 0xFFC 4 ++ [HostOp.wait] := by decide +kernel

theorem witness_ReplayOfTheTokensIsTheInput : ∃ t, exec .lzMatch abab = .next t ∧ t.status.errcode = .none :=
  ⟨_, exec_after (by decide +kernel), by decide +kernel⟩

end Sys2Proof.Tests
end

section
/-! The state after reset (spec/70_reset_and_hazards.md R210): its parameters are legal, and it meets each invariant. -/

namespace Sys2Proof.Machine

open Sys2Proof

/-! ### The parameters -/

/-- The choices are opaque: a remainder by the size of R7's range plus its lower bound stays in the range for every choice. -/
theorem params_legal : Params.Legal Config.params := by
  unfold Params.Legal Config.params Config.dmemSize Config.windowMax Config.lookaheadMax
  dsimp only
  omega

/-! ### The invariants -/

/-- Where every frequency is 0, no symbol occurs. -/
@[simp] theorem symbolCount_replicate_zero : symbolCount (Vector.replicate 256 0) = 0 := by
  simp [symbolCount, symbols]

theorem reset_dmemOk : DmemOk State.reset := ⟨List.Pairwise.nil, List.forall_mem_nil _⟩

theorem reset_nsymOk : NsymOk State.reset := symbolCount_replicate_zero.symm

theorem reset_tablesOk : TablesOk State.reset := ⟨reset_nsymOk, nofun, fun _ => ⟨rfl, rfl, rfl⟩⟩

/-- The writer's stream is empty, so it fits whatever DMEM_SIZE is. -/
theorem reset_writerOk : WriterOk State.reset := ⟨Nat.zero_le _, Nat.le_refl 0, Nat.zero_lt_one⟩

/-- The reader's stream is empty, so it fits whatever DMEM_SIZE is. -/
theorem reset_readerOk : ReaderOk State.reset := ⟨Nat.zero_le _, Nat.le_refl 0⟩

/-- Settles O14: the parameters by the bounds of a remainder, each invariant by the value reset gives to its fields. -/
theorem resetMeetsTheInvariants : Obligations.ResetMeetsTheInvariants :=
  ⟨params_legal, reset_dmemOk, reset_tablesOk, reset_writerOk, reset_readerOk⟩

end Sys2Proof.Machine
end

section
/-! How each command completes, said once for all twelve: one case for a start error, one for each success, and one for each run
error (spec/60_exceptions.md R182 to R184). -/

namespace Sys2Proof.Machine

open Sys2Proof

/-! ### The encoder's loop (spec/42_huffman_encoder.md R140) -/

/-- The loop stops with one of the two run errors of R184. -/
theorem encodeLoop_error {xs : List Byte} {s : State} {c : ErrCode} (h : encodeLoop xs s = .error c) :
    c = .nosym ∨ c = .capacity := by
  induction xs generalizing s with
  | nil => cases h
  | cons x xs ih =>
    simp only [encodeLoop] at h
    split at h
    · exact .inl (Except.error.inj h).symm
    · split at h
      · exact .inr (Except.error.inj h).symm
      · exact ih h

/-- One round of the loop that goes on: the byte's code fits and is appended. -/
theorem encodeLoop_cons_ok {x : Byte} {xs : List Byte} {s u : State} (h : encodeLoop (x :: xs) s = .ok u) :
    s.wpos.toNat + (entry s.code x).length ≤ 8 * s.wcap.toNat ∧ encodeLoop xs (appendBits s (entry s.code x)) = .ok u := by
  simp only [encodeLoop] at h
  split at h
  · cases h
  · split at h
    · cases h
    · exact ⟨by omega, h⟩

/-- The loop writes DMEM, WPOS and PBUF only. -/
theorem encodeLoop_frame {xs : List Byte} {s u : State} (h : encodeLoop xs s = .ok u) :
    ∃ m p b, u = { s with dmem := m, wpos := p, pbuf := b } := by
  induction xs generalizing s with
  | nil => cases h; exact ⟨_, _, _, rfl⟩
  | cons x xs ih =>
    obtain ⟨m, p, b, rfl⟩ := ih (encodeLoop_cons_ok h).2
    rw [appendBits_frame]
    exact ⟨m, p, b, rfl⟩

/-! ### The decoder's walk (spec/43_huffman_decoder.md R150) -/

@[simp] theorem emit_eq_error {b : Byte} {w : WalkEnd} {c : ErrCode} : w.emit b = .error c ↔ w = .error c := by
  cases w <;> simp [WalkEnd.emit]

theorem walkLeaf_error {sym : Byte} {bits : List Bool} {room : Nat} {c : ErrCode} (h : walkLeaf sym bits room = .error c) :
    c = .format ∨ c = .capacity := by
  induction bits generalizing room with
  | nil => cases h
  | cons bit bits ih =>
    cases bit with
    | true => exact .inl (WalkEnd.error.inj h).symm
    | false =>
      cases room with
      | zero => exact .inr (WalkEnd.error.inj h).symm
      | succ room => exact ih (emit_eq_error.1 h)

theorem walkTree_error {nodes : List Node} {root cur room : Nat} {bits : List Bool} {c : ErrCode}
    (h : walkTree nodes root bits cur room = .error c) : c = .format ∨ c = .capacity := by
  induction bits generalizing cur room with
  | nil =>
    simp only [walkTree] at h
    split at h
    · cases h
    · exact .inl (WalkEnd.error.inj h).symm
  | cons bit bits ih =>
    simp only [walkTree] at h
    split at h
    · cases h
    · cases h
    · split at h
      · cases h
      · exact ih h
      · split at h
        · exact .inr (WalkEnd.error.inj h).symm
        · exact ih (emit_eq_error.1 h)

/-- The walk stops with one of the two run errors of R184. -/
theorem decodeBits_error {nodes : List Node} {root : Option Nat} {bits : List Bool} {room : Nat} {c : ErrCode}
    (h : decodeBits nodes root bits room = .error c) : c = .format ∨ c = .capacity := by
  unfold decodeBits at h
  split at h
  · cases h
  · split at h
    · split at h <;> cases h
    · exact walkLeaf_error h
    · exact walkTree_error h

/-! ### The cases -/

/-- How a command can complete in `s`, with what it checked on the way. An error at the start changes STATUS only (`stopped`,
R183); after a run error the values of R184 are free (`encodeFailed`, `decodeFailed`, `matchFailed`). -/
inductive Completion (s : State) : Instr → State → Prop where
  | stopped (i : Instr) (c : ErrCode) : Completion s i (complete c s)
  | writerOpened (h : dstOK s = true) :
      Completion s .bpWinit (complete .none { openWriter s.dstAddr s.dstCap s with bitcnt := 0 })
  | put (n : Byte) (h : s.wpos.toNat + n.toNat ≤ 8 * s.wcap.toNat) :
      Completion s (.bpPut n) (complete .none { appendBits s (argBits n.toNat s.arg) with
        bitcnt := (appendBits s (argBits n.toNat s.arg)).wpos })
  | flushed : Completion s .bpFlush (complete .none (flushWriter s))
  | readerOpened (hs : srcOK s = true) (hb : ceil8 s.bitcnt.toNat ≤ s.srcLen.toNat) :
      Completion s .bpRinit (complete .none (openReader s.srcAddr s.bitcnt s))
  | got (n : Byte) (r : Word) (k : Nat) (h : s.rdpos.toNat + n.toNat ≤ s.rlim.toNat) :
      Completion s (.bpGet n) (complete .none
        { s with result := r, rdpos := BitVec.ofNat 64 (s.rdpos.toNat + n.toNat), draws := k })
  | counted : Completion s .htCount (complete .none (setFreq (countBytes (srcBytes s))
      (BitVec.ofNat 32 (symbolCount (countBytes (srcBytes s)))) s))
  | built : Completion s .htBuild (complete .none { s with
      tree := buildNodes s.freq
      root := rootOf (buildNodes s.freq)
      code := codesOf (buildNodes s.freq) (rootOf (buildNodes s.freq))
      treeValid := true })
  | loaded (n a : Nat) (ps : List (Byte × Word)) (hn : n ≤ 256) (h : readPairs s.dmem n a 0 = some ps) :
      Completion s .htLoadmeta (complete .none (setFreq (tableOf 0 ps) (BitVec.ofNat 32 n) s))
  | stored (bs : List Byte) (l : Word) : Completion s .htStoremeta (complete .none (putOutput s.dstAddr.toNat bs l s))
  | encodeFailed (c : ErrCode) (h : c = .nosym ∨ c = .capacity) : Completion s .heEncode (complete c (havocEncode s))
  | encoded (u : State) (hd : dstOK s = true)
      (h : encodeLoop (srcBytes s) (openWriter s.dstAddr s.dstCap s) = .ok u) :
      Completion s .heEncode (complete .none (flushWriter u))
  | decodeFailed (c : ErrCode) (hc : c = .format ∨ c = .capacity) (hf : ¬DecodeStartFormat s) :
      Completion s .hdDecode (complete c (havocDecode s))
  | decoded (bs : List Byte) (hs : srcOK s = true) (hb : ceil8 s.bitcnt.toNat ≤ s.srcLen.toNat) :
      Completion s .hdDecode (complete .none { putOutput s.dstAddr.toNat bs (BitVec.ofNat 32 bs.length)
        (openReader s.srcAddr s.bitcnt s) with rdpos := s.bitcnt })
  | matchFailed : Completion s .lzMatch (complete .capacity (havocMatch s))
  | matched (bs : List Byte) (l n : Word) :
      Completion s .lzMatch (complete .none { putOutput s.dstAddr.toNat bs l s with tokcnt := n })

/-- A command that answers `next` completes in one of these ways. -/
theorem exec_completion {i : Instr} {s t : State} (h : exec i s = .next t) : Completion s i t := by
  cases i with
  | bpWinit =>
    rcases execBpWinit_next h with ⟨_, rfl⟩ | ⟨hd, rfl⟩
    · exact .stopped _ _
    · exact .writerOpened hd
  | bpPut n =>
    rcases execBpPut_next h with ⟨_, rfl⟩ | ⟨_, _, rfl⟩ | ⟨_, hn, rfl⟩
    · exact .stopped _ _
    · exact .stopped _ _
    · exact .put n hn
  | bpFlush =>
    obtain rfl := execBpFlush_next h
    exact .flushed
  | bpRinit =>
    rcases execBpRinit_next h with ⟨_, rfl⟩ | ⟨_, _, rfl⟩ | ⟨hs, hb, rfl⟩
    · exact .stopped _ _
    · exact .stopped _ _
    · exact .readerOpened hs hb
  | bpGet n =>
    rcases execBpGet_next h with ⟨_, rfl⟩ | ⟨_, _, rfl⟩ | ⟨_, hn, _, _, rfl⟩
    · exact .stopped _ _
    · exact .stopped _ _
    · exact .got n _ _ hn
  | htCount =>
    rcases execHtCount_next h with ⟨_, rfl⟩ | ⟨_, _, rfl⟩ | ⟨_, _, rfl⟩
    · exact .stopped _ _
    · exact .stopped _ _
    · exact .counted
  | htBuild =>
    obtain rfl := execHtBuild_next h
    exact .built
  | htLoadmeta =>
    rcases execHtLoadmeta_next h with ⟨_, rfl⟩ | ⟨_, _, rfl⟩ | ⟨_, _, _, rfl⟩ | ⟨_, hcut, ps, hps, rfl⟩
    · exact .stopped _ _
    · exact .stopped _ _
    · exact .stopped _ _
    · exact .loaded _ _ ps (Nat.le_of_not_lt fun hn => hcut (.inr (.inl hn))) hps
  | htStoremeta =>
    rcases execHtStoremeta_next h with ⟨_, rfl⟩ | ⟨_, _, rfl⟩ | ⟨_, _, rfl⟩
    · exact .stopped _ _
    · exact .stopped _ _
    · exact .stored _ _
  | heEncode =>
    rcases execHeEncode_next h with ⟨_, rfl⟩ | ⟨_, _, _, rfl⟩ | ⟨_, _, rfl⟩ | ⟨_, _, _, rfl⟩ |
      ⟨⟨_, hd, _⟩, _, _, ⟨c, hl, rfl⟩ | ⟨u, hl, rfl⟩⟩
    · exact .stopped _ _
    · exact .stopped _ _
    · exact .stopped _ _
    · exact .stopped _ _
    · exact .encodeFailed c (encodeLoop_error hl)
    · exact .encoded u hd hl
  | hdDecode =>
    rcases execHdDecode_next h with ⟨_, rfl⟩ | ⟨_, _, _, rfl⟩ | ⟨_, _, rfl⟩ | ⟨_, _, _, rfl⟩ |
      ⟨⟨hs, _, _⟩, _, hf, ⟨c, hw, rfl⟩ | ⟨bs, _, rfl⟩⟩
    · exact .stopped _ _
    · exact .stopped _ _
    · exact .stopped _ _
    · exact .stopped _ _
    · exact .decodeFailed c (decodeBits_error hw) hf
    · exact .decoded bs hs (Nat.le_of_not_lt fun hb => hf (.inl hb))
  | lzMatch =>
    rcases execLzMatch_next h with ⟨_, rfl⟩ | ⟨_, _, _, rfl⟩ | ⟨_, _, rfl⟩ | ⟨_, _, _, ⟨_, rfl⟩ | ⟨_, rfl⟩⟩
    · exact .stopped _ _
    · exact .stopped _ _
    · exact .stopped _ _
    · exact .matchFailed
    · exact .matched _ _ _

end Sys2Proof.Machine
end

section
/-! The invariant of the tables (spec/10_state.md R36, R42, R43): NSYM after the two commands that write FREQ, then every command,
every host operation and every step. -/

namespace Sys2Proof.Machine

open Sys2Proof

/-! ### The number of symbols of a table -/

theorem mem_symbols {freq : Vector Word 256} {b : Byte} : b ∈ symbols freq ↔ entry freq b ≠ 0 := by
  simp [symbols, mem_allBytes]

theorem symbols_nodup (freq : Vector Word 256) : (symbols freq).Nodup := allBytes_nodup.filter _

theorem symbolCount_le (freq : Vector Word 256) : symbolCount freq ≤ 256 :=
  (List.length_filter_le _ _).trans allBytes_length.le

/-- A list of the symbols that occur, each once, has NSYM elements. -/
theorem symbolCount_eq_length {freq : Vector Word 256} {bs : List Byte} (hd : bs.Nodup)
    (h : ∀ b, entry freq b ≠ 0 ↔ b ∈ bs) : symbolCount freq = bs.length :=
  ((List.perm_ext_iff_of_nodup (symbols_nodup freq) hd).2 fun b => mem_symbols.trans (h b)).length_eq

/-! ### The pairs of a metadata image (R124) -/

theorem memRead_lt (m : Memory) (a n : Nat) : memRead m a n < 256 ^ n := by
  simpa [memRead] using leValue_lt (Memory.readBytes m a n)

/-- The image gives `n` pairs with rising symbols, the first at least `low`, and no zero frequency. -/
theorem readPairs_spec {m : Memory} {n a low : Nat} {ps : List (Byte × Word)} (h : readPairs m n a low = some ps) :
    ps.length = n ∧ ps.Pairwise (fun p q => p.1.toNat < q.1.toNat) ∧ ∀ p ∈ ps, low ≤ p.1.toNat ∧ p.2 ≠ 0 := by
  induction n generalizing a low ps with
  | zero => cases h; simp
  | succ n ih =>
    simp only [readPairs] at h
    split at h
    · cases h
    · rename_i hlow
      split at h
      · cases h
      · rename_i hw
        obtain ⟨qs, hqs, rfl⟩ := Option.map_eq_some_iff.1 h
        obtain ⟨hlen, hrise, hall⟩ := ih hqs
        have hne : BitVec.ofNat 32 (memRead m (a + 1) 4) ≠ 0 := by
          intro he
          have h32 : memRead m (a + 1) 4 % 2 ^ 32 = 0 := by simpa using congrArg BitVec.toNat he
          exact hw ((Nat.mod_eq_of_lt (memRead_lt m (a + 1) 4)).symm.trans h32)
        refine ⟨congrArg (· + 1) hlen, List.pairwise_cons.2 ⟨fun q hq => (hall q hq).1, hrise⟩, fun p hp => ?_⟩
        rcases List.mem_cons.1 hp with rfl | hp
        · exact ⟨Nat.le_of_not_lt hlow, hne⟩
        · exact ⟨by have := (hall p hp).1; omega, (hall p hp).2⟩

/-- The frequency a list of pairs gives a symbol is nonzero exactly for the symbols listed. -/
theorem entry_tableOf_ne_zero {ps : List (Byte × Word)} (h : ∀ p ∈ ps, p.2 ≠ 0) (b : Byte) :
    entry (tableOf 0 ps) b ≠ 0 ↔ b ∈ ps.map Prod.fst := by
  rw [tableOf, entry_tabulate]
  induction ps with
  | nil => simp
  | cons p ps ih =>
    obtain ⟨c, w⟩ := p
    obtain ⟨hw, hps⟩ := List.forall_mem_cons.1 h
    by_cases hb : b = c
    · simpa [List.lookup_cons, hb] using hw
    · simpa [List.lookup_cons, beq_false_of_ne hb, hb] using ih hps

/-- NSYM of a loaded image is its number of pairs (R36, R124). -/
theorem symbolCount_of_readPairs {m : Memory} {n a low : Nat} {ps : List (Byte × Word)}
    (h : readPairs m n a low = some ps) : symbolCount (tableOf 0 ps) = n := by
  obtain ⟨hlen, hrise, hall⟩ := readPairs_spec h
  have hd : (ps.map Prod.fst).Nodup :=
    List.pairwise_map.2 (hrise.imp fun hlt he => hlt.ne (congrArg BitVec.toNat he))
  rw [symbolCount_eq_length hd (entry_tableOf_ne_zero fun p hp => (hall p hp).2), List.length_map, hlen]

/-! ### Every command -/

/-- Writing FREQ drops the tree and the codes, so only NSYM is left to be right. -/
theorem setFreq_tablesOk {freq : Vector Word 256} {n : Nat} (s : State) (h : symbolCount freq = n) :
    TablesOk (setFreq freq (BitVec.ofNat 32 n) s) := by
  refine ⟨?_, nofun, fun _ => ⟨rfl, rfl, rfl⟩⟩
  have hn : n < 2 ^ 32 := by have := symbolCount_le freq; omega
  simp only [NsymOk, setFreq_nsym, setFreq_freq, BitVec.toNat_ofNat, Nat.mod_eq_of_lt hn, h]

/-- No command but HT_COUNT, HT_BUILD and HT_LOADMETA writes a table, so the other cases keep the invariant as it is. -/
theorem completion_tablesOk {i : Instr} {s t : State} (h : Completion s i t) (hs : TablesOk s) : TablesOk t := by
  cases h with
  | counted => exact setFreq_tablesOk s rfl
  | loaded n a ps _ hps => exact setFreq_tablesOk s (symbolCount_of_readPairs hps)
  | built => exact ⟨hs.1, fun _ => ⟨rfl, rfl, rfl⟩, nofun⟩
  | put n => rw [appendBits_frame]; exact hs
  | encoded u _ hl =>
    obtain ⟨m, p, b, rfl⟩ := encodeLoop_frame hl
    exact hs
  | _ => exact hs

theorem runWord_tablesOk {w : Word} {s t : State} (h : runWord w s = .next t) (hs : TablesOk s) : TablesOk t := by
  unfold runWord at h
  split at h
  · exact completion_tablesOk (exec_completion h) hs
  · obtain rfl := of_next h
    exact hs

/-! ### Every host operation -/

theorem resetKeeping_tablesOk (s : State) : TablesOk (resetKeeping s) := reset_tablesOk

/-- The host writes no table: FREQ, NSYM and CODELEN are read-only, and a reset brings back the tables of R49. -/
theorem writeReg_tablesOk {s : State} (r : Reg) (v : Word) (hs : TablesOk s) : TablesOk (writeReg s r v) := by
  unfold writeReg
  split
  · unfold writeRegBusy
    split
    · exact hs
    · split
      · exact resetKeeping_tablesOk _
      · exact hs
  · cases r with
    | ctrl =>
      unfold writeRegIdle
      dsimp only
      split
      · exact resetKeeping_tablesOk _
      · exact hs
    | _ => exact hs

/-- A register read changes only the host's record and the count of the free values. -/
theorem observeReg_frame (off : BitVec 12) (s : State) :
    ∃ x k, observeReg off s = { see x s with draws := k } := by
  unfold observeReg
  dsimp only
  split
  · exact ⟨_, _, rfl⟩
  · exact ⟨_, _, rfl⟩

theorem hostOp_tablesOk {op : HostOp} {s t : State} (h : hostOp op s = .next t) (hs : TablesOk s) : TablesOk t := by
  have hread : ∀ off, TablesOk (observeReg off s) := fun off => by
    obtain ⟨x, k, he⟩ := observeReg_frame off s
    rw [he]
    exact hs
  rcases hostOp_next h with ⟨off, v, _, _, rfl⟩ | ⟨off, _, _, rfl⟩ | ⟨_, _, _, _, _, rfl⟩ | ⟨_, _, _, _, rfl⟩ |
    ⟨_, _, rfl⟩ | ⟨_, _, rfl⟩ | ⟨_, rfl⟩
  · exact writeReg_tablesOk _ v hs
  · exact hread off
  · exact hs
  · exact hs
  · exact hread statusOffset
  · exact hread statusOffset
  · exact resetKeeping_tablesOk _

/-- Settles O27: the core's step by the cases of a command's completion, the host's by the cases of an operation. -/
theorem everyStepKeepsTables : Obligations.EveryStepKeepsTables := by
  intro s t hs h
  rcases step_next h with ⟨w, _, _, hw⟩ | ⟨op, ops, _, hop⟩ | ⟨_, _, rfl⟩
  · exact runWord_tablesOk hw hs
  · exact hostOp_tablesOk hop hs
  · exact hs

end Sys2Proof.Machine
end

section
/-! What every command leaves alone or keeps: the registers that are the host's (spec/10_state.md R25, R28, R29, R33, R34), and the
invariants of the writer and the reader (R45, R46). -/

namespace Sys2Proof.Machine

open Sys2Proof

/-! ### The host's registers -/

/-- Settles O20: no case of a completion writes one of them. -/
theorem commandsNeverWriteHostRegisters : Obligations.CommandsNeverWriteHostRegisters := by
  intro i s t h
  cases exec_completion h with
  | put n => simp
  | encoded u _ hl =>
    obtain ⟨m, p, b, rfl⟩ := encodeLoop_frame hl
    simp
  | _ => exact ⟨rfl, rfl, rfl, rfl, rfl, rfl, rfl, rfl, rfl, rfl, rfl, rfl, rfl⟩

/-! ### The writer (R45) -/

theorem openWriter_writerOk {s : State} (h : dstOK s = true) : WriterOk (openWriter s.dstAddr s.dstCap s) :=
  ⟨of_decide_eq_true h, Nat.zero_le _, Nat.zero_lt_one⟩

/-- AppendBit with room for the bit moves WPOS on by one and keeps the invariant: PBUF takes the bit below the pending ones, and
is empty again when they fill a byte. -/
theorem appendBit_writerOk {s : State} (b : Bool) (h : WriterOk s) (hroom : s.wpos.toNat < 8 * s.wcap.toNat) :
    WriterOk (appendBit s b) ∧ (appendBit s b).wpos.toNat = s.wpos.toNat + 1 := by
  obtain ⟨hfit, _, hbuf⟩ := h
  have hw : (s.wpos.toNat + 1) % 2 ^ 64 = s.wpos.toNat + 1 := Nat.mod_eq_of_lt (by have := s.wcap.isLt; omega)
  unfold appendBit
  dsimp only
  split
  · simp only [WriterOk, BitVec.toNat_ofNat, hw]
    exact ⟨⟨hfit, hroom, Nat.two_pow_pos _⟩, trivial⟩
  · rename_i hbyte
    have hpow : 2 ^ ((s.wpos.toNat + 1) % 8) = 2 * 2 ^ (s.wpos.toNat % 8) := by
      rw [show (s.wpos.toNat + 1) % 8 = s.wpos.toNat % 8 + 1 by omega, pow_succ, Nat.mul_comm]
    have hb := b.toNat_le
    simp only [WriterOk, BitVec.toNat_ofNat, hw, hpow]
    refine ⟨⟨hfit, hroom, (Nat.mod_le _ _).trans_lt ?_⟩, trivial⟩
    omega

/-- A run of AppendBit with room for all its bits. -/
theorem appendBits_writerOk {s : State} {bs : List Bool} (h : WriterOk s)
    (hroom : s.wpos.toNat + bs.length ≤ 8 * s.wcap.toNat) : WriterOk (appendBits s bs) := by
  induction bs generalizing s with
  | nil => exact h
  | cons b bs ih =>
    rw [List.length_cons] at hroom
    obtain ⟨hok, hpos⟩ := appendBit_writerOk b h (by omega)
    exact ih hok (by rw [hpos, appendBit_wcap]; omega)

@[simp] theorem argBits_length (n : Nat) (arg : Word) : (argBits n arg).length = n := by simp [argBits]

theorem encodeLoop_writerOk {xs : List Byte} {s u : State} (h : encodeLoop xs s = .ok u) (hs : WriterOk s) :
    WriterOk u := by
  induction xs generalizing s with
  | nil => cases h; exact hs
  | cons x xs ih =>
    obtain ⟨hroom, hrest⟩ := encodeLoop_cons_ok h
    exact ih hrest (appendBits_writerOk hs hroom)

/-- Commands keep the writer's invariant: BP_WINIT and HE_ENCODE open a stream inside DMEM, BP_PUT appends what its check of the
room allows, and only a run error of HE_ENCODE leaves free values in the writer. -/
theorem completion_writerOk {i : Instr} {s t : State} (h : Completion s i t) (hs : WriterOk s)
    (hrun : i = .heEncode → t.status.errcode ≠ .nosym ∧ t.status.errcode ≠ .capacity) : WriterOk t := by
  cases h with
  | writerOpened hd => exact openWriter_writerOk hd
  | put n hroom => exact appendBits_writerOk hs (by simpa using hroom)
  | encodeFailed c hc => exact absurd hc (not_or.2 (hrun rfl))
  | encoded u hd hl =>
    have hu : WriterOk u := encodeLoop_writerOk hl (openWriter_writerOk hd)
    exact hu
  | _ => exact hs

/-! ### The reader (R46) -/

/-- A stream of BITCNT bits that fits SRC, which lies in DMEM, does not reach beyond DMEM. -/
theorem bitcnt_fits_dmem {s : State} (hs : srcOK s = true) (hb : ceil8 s.bitcnt.toNat ≤ s.srcLen.toNat) :
    s.srcAddr.toNat + ceil8 s.bitcnt.toNat ≤ s.params.dmemSize :=
  (Nat.add_le_add_left hb _).trans (of_decide_eq_true hs)

/-- Commands keep the reader's invariant: BP_RINIT and HD_DECODE open a stream inside DMEM, BP_GET moves within it, and only a
run error of HD_DECODE leaves free values in the reader. -/
theorem completion_readerOk {i : Instr} {s t : State} (h : Completion s i t) (hs : ReaderOk s)
    (hrun : i = .hdDecode →
      t.status.errcode ≠ .capacity ∧ (t.status.errcode ≠ .format ∨ DecodeStartFormat s)) : ReaderOk t := by
  cases h with
  | readerOpened hsrc hb => exact ⟨bitcnt_fits_dmem hsrc hb, Nat.zero_le _⟩
  | got n r k hlim => exact ⟨hs.1, (BitVec.toNat_ofNat _ _ ▸ Nat.mod_le _ _).trans hlim⟩
  | decodeFailed c hc hf =>
    obtain ⟨hcap, hfmt⟩ := hrun rfl
    exact absurd hc (not_or.2 ⟨hfmt.resolve_right hf, hcap⟩)
  | decoded bs hsrc hb => exact ⟨bitcnt_fits_dmem hsrc hb, Nat.le_refl _⟩
  | put n => rw [appendBits_frame]; exact hs
  | encoded u _ hl =>
    obtain ⟨m, p, b, rfl⟩ := encodeLoop_frame hl
    exact hs
  | _ => exact hs

/-- Settles O28: each invariant over the cases of a completion. -/
theorem commandsKeepStreamInvariants : Obligations.CommandsKeepStreamInvariants := fun _ _ _ h =>
  ⟨completion_writerOk (exec_completion h), completion_readerOk (exec_completion h)⟩

end Sys2Proof.Machine
end

section
/-! What the host reads and writes by offset while the core is idle or reset: the values after reset (spec/10_state.md R49), CTRL
(R25), the read-only and reserved offsets (R39), the read-write registers (R28 to R34) and the reads of every register. -/

namespace Sys2Proof.Machine

open Sys2Proof

/-! ### The values after reset (R49, R210) -/

theorem freeBytes_getElem (k n i : Nat) (h : i < (freeBytes k n).length) : (freeBytes k n)[i] = Config.freeByte (k + i) := by
  induction n generalizing k i with
  | zero => simp [freeBytes] at h
  | succ n ih =>
    cases i with
    | zero => rfl
    | succ i =>
      have hi : i < (freeBytes (k + 1) n).length := by simpa using h
      simpa [freeBytes, Nat.add_assoc, Nat.add_comm 1] using ih (k + 1) i hi

/-- A byte drawn for a range is the draw of its place in the range. -/
theorem read_havocDmem_inside {a n i : Nat} (s : State) (h : i < n) :
    Memory.read (havocDmem a n s).dmem (a + i) = Config.freeByte (s.draws + i) := by
  have hi : i < (freeBytes s.draws n).length := by simpa using h
  rw [havocDmem_dmem, read_writeBytes_inside _ _ _ _ hi, freeBytes_getElem]

/-- Where no symbol has a code, MAXLEN is 0 (R37). -/
theorem maxLen_replicate_nil : maxLen (Vector.replicate 256 []) = 0 := by
  have h : ∀ n, (List.replicate n ([] : List Bool)).foldl (fun m c => max m (codeLen c).toNat) 0 = 0 := by
    intro n
    induction n with
    | zero => rfl
    | succ n ih => exact ih
  exact h 256

theorem treeStatusWord_of_no_code {s : State} (hv : s.treeValid = false) (hc : s.code = Vector.replicate 256 []) :
    treeStatusWord s = 0 := by
  simp [treeStatusWord, hv, hc, maxLen_replicate_nil]

theorem readReg_codelen_of_no_code {s : State} (hc : s.code = Vector.replicate 256 []) (b : Byte) :
    readReg s (.codelen b) = 0 := by
  simp [readReg, hc, codeLen]

/-- Settles O13: the values of R49 by the fields of `State.reset`, and a power-on reset as the draw of all of DMEM. -/
theorem resetValues : Obligations.ResetValues := by
  refine ⟨fun p m b => ?_, fun s => ⟨powerOnReset s, rfl, rfl, fun x hx => ?_⟩⟩
  · exact ⟨rfl, rfl, rfl, rfl, rfl, rfl, rfl, rfl, rfl, rfl, rfl, rfl, rfl, rfl, rfl, rfl, rfl, rfl, rfl,
      treeStatusWord_of_no_code rfl rfl, entry_replicate 0 b, rfl, rfl, rfl, entry_replicate [] b,
      readReg_codelen_of_no_code rfl b, rfl, rfl, rfl, rfl, rfl, rfl, rfl⟩
  · have hread := read_havocDmem_inside (a := 0) { s with dmem := [] } hx
    rw [Nat.zero_add] at hread
    exact hread

/-! ### CTRL (R25) -/

/-- A register write while idle (R67(a)). -/
theorem hostOp_wr_idle {s : State} (off : BitVec 12) (v : Word) (h4 : off.toNat % 4 = 0) (hb : s.busy = false) :
    hostOp (.wr 32 off v) s = .next (writeRegIdle s (regAt off) v) := by
  simp [hostOp, regAccessOk, h4, writeReg, hb]

/-- CTRL reads the one bit of a written value that it keeps. -/
theorem ctrlWord_eq_and {s : State} {v : Word} (h : s.emptyErr = v.getLsbD 1) : ctrlWord s = v &&& 2 := by
  rw [ctrlWord, h, show (2 : Word) = BitVec.twoPow 32 1 from rfl, BitVec.and_twoPow]
  cases v.getLsbD 1 <;> rfl

/-- Settles O16: the write by the register at offset 0x010, the read by the bit CTRL keeps. -/
theorem ctrlWriteSetsEmptyErr : Obligations.CtrlWriteSetsEmptyErr := by
  intro s v hb h0
  have hw : writeRegIdle s .ctrl v = { s with emptyErr := v.getLsbD 1 } := if_neg (ne_true_of_eq_false h0)
  exact ⟨_, (hostOp_wr_idle 0x010 v rfl hb).trans (congrArg _ hw), rfl, ctrlWord_eq_and rfl⟩

/-! ### Read-only and reserved offsets (R39) -/

/-- The registers whose writes are not ignored while idle (R22): the read-write ones, CTRL and CMD. -/
def Reg.writable : Reg → Bool
  | .ctrl | .cmd | .srcAddr | .srcLen | .dstAddr | .dstCap | .bitcntLo | .bitcntHi | .arg | .lzWindow | .lzLookahead => true
  | _ => false

/-- A write to any other register changes nothing, busy or idle. -/
theorem writeReg_of_not_writable {r : Reg} (h : r.writable = false) (s : State) (v : Word) : writeReg s r v = s := by
  cases r with
  | ctrl | cmd | srcAddr | srcLen | dstAddr | dstCap | bitcntLo | bitcntHi | arg | lzWindow | lzLookahead => cases h
  | _ => simp [writeReg, writeRegBusy, writeRegIdle]

/-- A reserved register and CMD read 0, busy or idle. -/
theorem observeReg_eq_zero {off : BitVec 12} (h : regAt off = .cmd ∨ regAt off = .reserved) (s : State) :
    observeReg off s = see (.reg off 0) s := by
  rcases h with h | h <;> simp [observeReg, h, Reg.volatile, readReg]

theorem regAt_low {off : BitVec 12} (h : off.toNat < 0x400) : regAt off = lowRegs.getD (off.toNat / 4) .reserved := if_pos h

theorem regAt_reserved {off : BitVec 12} (h : (0x060 ≤ off.toNat ∧ off.toNat < 0x400) ∨ 0xC00 ≤ off.toNat) :
    regAt off = .reserved := by
  rcases h with ⟨hle, hlt⟩ | h
  · rw [regAt_low hlt]
    exact List.getD_eq_default _ _ (by simp only [lowRegs, List.length_cons, List.length_nil]; omega)
  · unfold regAt
    dsimp only
    rw [if_neg (by omega), if_neg (by omega), if_neg (by omega)]

theorem regAt_freq {off : BitVec 12} (h : 0x400 ≤ off.toNat) (h' : off.toNat < 0x800) :
    regAt off = .freq (BitVec.ofNat 8 ((off.toNat - 0x400) / 4)) := by
  unfold regAt
  dsimp only
  rw [if_neg (by omega), if_pos h']

theorem regAt_codelen {off : BitVec 12} (h : 0x800 ≤ off.toNat) (h' : off.toNat < 0xC00) :
    regAt off = .codelen (BitVec.ofNat 8 ((off.toNat - 0x800) / 4)) := by
  unfold regAt
  dsimp only
  rw [if_neg (by omega), if_neg (by omega), if_pos h']

/-- No offset from 0x060 on holds a register the host can write. -/
theorem regAt_not_writable_of_le {off : BitVec 12} (h : 0x060 ≤ off.toNat) : (regAt off).writable = false := by
  by_cases h1 : off.toNat < 0x400
  · rw [regAt_reserved (.inl ⟨h, h1⟩)]; rfl
  · by_cases h2 : off.toNat < 0x800
    · rw [regAt_freq (by omega) h2]; rfl
    · by_cases h3 : off.toNat < 0xC00
      · rw [regAt_codelen (by omega) h3]; rfl
      · rw [regAt_reserved (.inr (by omega))]; rfl

/-- The read-only offsets below 0x060, and the reserved one among them. -/
theorem regAt_not_writable_of_mem {off : BitVec 12}
    (h : off.toNat ∈ [0x000, 0x004, 0x008, 0x00C, 0x018, 0x01C, 0x030, 0x03C, 0x040, 0x048, 0x054, 0x058, 0x05C]) :
    (regAt off).writable = false := by
  have hlow : ∀ n ∈ [0x000, 0x004, 0x008, 0x00C, 0x018, 0x01C, 0x030, 0x03C, 0x040, 0x048, 0x054, 0x058, 0x05C],
      n < 0x400 ∧ (lowRegs.getD (n / 4) .reserved).writable = false := by decide
  obtain ⟨hlt, hw⟩ := hlow _ h
  rw [regAt_low hlt]
  exact hw

/-- CMD and the reserved offset below 0x060. -/
theorem regAt_cmd_or_reserved_of_mem {off : BitVec 12} (h : off.toNat ∈ [0x014, 0x01C]) :
    regAt off = .cmd ∨ regAt off = .reserved := by
  have hlow : ∀ n ∈ [0x014, 0x01C], n < 0x400 ∧
      (lowRegs.getD (n / 4) .reserved = .cmd ∨ lowRegs.getD (n / 4) .reserved = .reserved) := by decide
  obtain ⟨hlt, hr⟩ := hlow _ h
  rw [regAt_low hlt]
  exact hr

/-- Settles O17: each offset by the register it holds, each register by what a write and a read of it do. -/
theorem readOnlyAndReservedOffsets : Obligations.ReadOnlyAndReservedOffsets := by
  intro s off v h4
  have hok : regAccessOk 32 off = true := decide_eq_true ⟨rfl, h4⟩
  refine ⟨fun h => ?_, fun h => ?_⟩
  · have hw := h.elim regAt_not_writable_of_mem regAt_not_writable_of_le
    simp [hostOp, hok, writeReg_of_not_writable hw]
  · have hr := h.elim regAt_cmd_or_reserved_of_mem (fun h => .inr (regAt_reserved h))
    simp [hostOp, hok, observeReg_eq_zero hr]

/-! ### Read-write registers, and every read while idle (R22 to R38) -/

/-- The host reads `p.2` at offset `p.1`, and nothing of the core changes. -/
def Reads (s : State) (p : BitVec 12 × Word) : Prop := hostOp (.rd 32 p.1) s = .next (see (.reg p.1 p.2) s)

/-- While idle every register is current (R221). -/
theorem reads_of_idle {s : State} {off : BitVec 12} {w : Word} (hb : s.busy = false) (h4 : off.toNat % 4 = 0)
    (hw : readReg s (regAt off) = w) : Reads s (off, w) := by
  simp [Reads, hostOp, regAccessOk, h4, observeReg, hb, hw]

theorem ctrlWord_eq_ite (s : State) : ctrlWord s = if s.emptyErr then 2 else 0 := by
  unfold ctrlWord
  cases s.emptyErr <;> rfl

/-- The low half of a 64-bit register. -/
theorem extractLsb'_lo (x : DWord) : x.extractLsb' 0 32 = BitVec.ofNat 32 x.toNat := rfl

/-- The high half of a 64-bit register. -/
theorem extractLsb'_hi (x : DWord) : x.extractLsb' 32 32 = BitVec.ofNat 32 (x.toNat / 2 ^ 32) :=
  congrArg (BitVec.ofNat 32) (Nat.shiftRight_eq_div_pow x.toNat 32)

theorem reads_freq {s : State} {b : Byte} {off : BitVec 12} (hb : s.busy = false) (h : off.toNat = 0x400 + 4 * b.toNat) :
    Reads s (off, entry s.freq b) := by
  have hlt := b.isLt
  refine reads_of_idle hb (by omega) ?_
  rw [regAt_freq (by omega) (by omega), show (off.toNat - 0x400) / 4 = b.toNat by omega, BitVec.ofNat_toNat, BitVec.setWidth_eq]
  rfl

theorem reads_codelen {s : State} {b : Byte} {off : BitVec 12} (hb : s.busy = false) (h : off.toNat = 0x800 + 4 * b.toNat) :
    Reads s (off, BitVec.ofNat 32 ((entry s.code b).length % 2 ^ 8)) := by
  have hlt := b.isLt
  refine reads_of_idle hb (by omega) ?_
  rw [regAt_codelen (by omega) (by omega), show (off.toNat - 0x800) / 4 = b.toNat by omega, BitVec.ofNat_toNat,
    BitVec.setWidth_eq]
  exact (BitVec.ofNat_toNat 32 (codeLen (entry s.code b))).symm

/-- Settles O18: each write by the register at its offset, each half of BITCNT by what it keeps of the other, and each read by
the register at its offset. -/
theorem writtenRegistersReadBack : Obligations.WrittenRegistersReadBack := by
  intro s v hb
  have wr := fun (off : BitVec 12) (h4 : off.toNat % 4 = 0) => hostOp_wr_idle off v h4 hb
  have rd : ∀ {off w}, off.toNat % 4 = 0 → readReg s (regAt off) = w → Reads s (off, w) := reads_of_idle hb
  refine ⟨wr 0x020 rfl, wr 0x024 rfl, wr 0x028 rfl, wr 0x02C rfl, wr 0x044 rfl, wr 0x04C rfl, wr 0x050 rfl,
    ⟨_, wr 0x034 rfl, rfl, BitVec.extractLsb'_append_eq_right, BitVec.extractLsb'_append_eq_left⟩,
    ⟨_, wr 0x038 rfl, rfl, BitVec.extractLsb'_append_eq_left, BitVec.extractLsb'_append_eq_right⟩,
    fun off w hp => (show ∀ p ∈ _, Reads s p from ?_) (off, w) hp, fun _ _ => reads_freq hb, fun _ _ => reads_codelen hb⟩
  simp only [List.forall_mem_cons]
  exact ⟨rd rfl rfl, rd rfl rfl, rd rfl rfl, rd rfl rfl, rd rfl (ctrlWord_eq_ite s), rd rfl rfl, rd rfl rfl, rd rfl rfl,
    rd rfl rfl, rd rfl rfl, rd rfl rfl, rd rfl (extractLsb'_lo s.bitcnt), rd rfl (extractLsb'_hi s.bitcnt),
    rd rfl (extractLsb'_lo s.rdpos), rd rfl (extractLsb'_hi s.rdpos), rd rfl rfl, rd rfl rfl, rd rfl rfl, rd rfl rfl,
    rd rfl rfl, rd rfl rfl, rd rfl rfl, List.forall_mem_nil _⟩

end Sys2Proof.Machine
end

section
/-! DMEM under lists of cell writes, the bits and bytes that depend on a range of DMEM only, and the bounds on what a command
writes (spec/20_memory.md R60, R71). -/

namespace Sys2Proof.Machine

open Sys2Proof

/-! ### DMEM after a list of writes -/

/-- The cells of `ws` written one after the other. -/
def writeCells (m : Memory) (ws : List Host.Cell) : Memory := ws.foldl (fun m c => Memory.write m c.1 c.2) m

@[simp] theorem writeCells_nil (m : Memory) : writeCells m [] = m := rfl

@[simp] theorem writeCells_cons (m : Memory) (c : Host.Cell) (ws : List Host.Cell) :
    writeCells m (c :: ws) = writeCells (Memory.write m c.1 c.2) ws := rfl

theorem writeCells_append (m : Memory) (ws us : List Host.Cell) :
    writeCells m (ws ++ us) = writeCells (writeCells m ws) us := List.foldl_append

/-- Every cell is in the range `r`, an address and a length, and exists (R60). -/
def CellsIn (size : Nat) (r : Nat × Nat) (ws : List Host.Cell) : Prop :=
  ∀ c ∈ ws, r.1 ≤ c.1 ∧ c.1 < r.1 + r.2 ∧ c.1 < size

theorem cellsIn_nil (size : Nat) (r : Nat × Nat) : CellsIn size r [] := List.forall_mem_nil _

theorem CellsIn.append {size : Nat} {r : Nat × Nat} {ws us : List Host.Cell} (hw : CellsIn size r ws)
    (hu : CellsIn size r us) : CellsIn size r (ws ++ us) := List.forall_mem_append.2 ⟨hw, hu⟩

theorem writeCells_wf {m : Memory} (ws : List Host.Cell) (h : Memory.wf m) : Memory.wf (writeCells m ws) := by
  induction ws generalizing m with
  | nil => exact h
  | cons c ws ih => exact ih (write_wf c.1 c.2 h)

theorem writeCells_below {m : Memory} {size : Nat} {r : Nat × Nat} {ws : List Host.Cell} (h : Memory.below m size)
    (hws : CellsIn size r ws) : Memory.below (writeCells m ws) size := by
  induction ws generalizing m with
  | nil => exact h
  | cons c ws ih =>
    obtain ⟨⟨_, _, hc⟩, hws⟩ := List.forall_mem_cons.1 hws
    exact ih (write_below c.2 h hc) hws

theorem read_writeCells_outside {m : Memory} {size x : Nat} {r : Nat × Nat} {ws : List Host.Cell}
    (hws : CellsIn size r ws) (hx : x < r.1 ∨ r.1 + r.2 ≤ x) : Memory.read (writeCells m ws) x = Memory.read m x := by
  induction ws generalizing m with
  | nil => rfl
  | cons c ws ih =>
    obtain ⟨⟨hlo, hhi, _⟩, hws⟩ := List.forall_mem_cons.1 hws
    rw [writeCells_cons, ih hws, read_write_other m c.2 (by omega)]

/-- Each address is written, and then what it reads as does not depend on the memory before, or it is not. -/
theorem read_writeCells_cases (ws : List Host.Cell) (x : Nat) :
    (∀ m m', Memory.read (writeCells m' ws) x = Memory.read (writeCells m ws) x) ∨
    ∀ m, Memory.read (writeCells m ws) x = Memory.read m x := by
  induction ws with
  | nil => exact .inr fun _ => rfl
  | cons c ws ih =>
    rcases ih with ih | ih
    · exact .inl fun _ _ => ih _ _
    · by_cases hx : x = c.1
      · subst hx
        exact .inl fun m m' => by simp [ih]
      · exact .inr fun m => by rw [writeCells_cons, ih, read_write_other m c.2 hx]

/-- A write bounded by DMEM_SIZE is a list of at most one cell. -/
theorem writeExisting_eq_writeCells (size : Nat) (m : Memory) (a : Nat) (b : Byte) :
    Memory.writeExisting size m a b = writeCells m (if a < size then [(a, b)] else []) := by
  unfold Memory.writeExisting
  split <;> rfl

theorem cellsIn_existing {size a : Nat} {r : Nat × Nat} (b : Byte) (hlo : r.1 ≤ a) (hhi : a < r.1 + r.2) :
    CellsIn size r (if a < size then [(a, b)] else []) := by
  split
  · rename_i h
    exact List.forall_mem_singleton.2 ⟨hlo, hhi, h⟩
  · exact cellsIn_nil size r

/-- The cells of bytes at a, a+1, ... -/
def cellsAt (a : Nat) : List Byte → List Host.Cell
  | [] => []
  | b :: bs => (a, b) :: cellsAt (a + 1) bs

theorem writeBytes_eq_writeCells (m : Memory) (a : Nat) (bs : List Byte) :
    Memory.writeBytes m a bs = writeCells m (cellsAt a bs) := by
  induction bs generalizing m a with
  | nil => rfl
  | cons b bs ih => exact ih _ _

theorem mem_cellsAt {a : Nat} {bs : List Byte} {c : Host.Cell} (h : c ∈ cellsAt a bs) :
    a ≤ c.1 ∧ c.1 < a + bs.length := by
  induction bs generalizing a with
  | nil => cases h
  | cons b bs ih =>
    rw [List.length_cons]
    rcases List.mem_cons.1 h with rfl | h
    · exact ⟨Nat.le_refl a, by dsimp only; omega⟩
    · have := ih h
      omega

/-- Bytes that fit the range at their address, which lies in DMEM. -/
theorem cellsIn_cellsAt {size a n : Nat} {bs : List Byte} (hr : a + n ≤ size) (hb : bs.length ≤ n) :
    CellsIn size (a, n) (cellsAt a bs) := by
  intro c hc
  have := mem_cellsAt hc
  dsimp only
  omega

/-! ### What is read from a range -/

theorem memRead_congr {m m' : Memory} {a n : Nat} (h : SameInside m m' a n) : memRead m' a n = memRead m a n :=
  congrArg leValue (readBytes_congr h)

theorem SameInside.mono {m m' : Memory} {a n b k : Nat} (h : SameInside m m' a n) (hlo : a ≤ b) (hhi : b + k ≤ a + n) :
    SameInside m m' b k := fun x hx hx' => h x (by omega) (by omega)

/-- Stream bits before bit `lim` are bits of the ceil8(lim) bytes at the stream's base. -/
theorem streamBit_congr {m m' : Memory} {base k lim : Nat} (h : SameInside m m' base (ceil8 lim)) (hk : k < lim) :
    streamBit m' base k = streamBit m base k := by
  unfold ceil8 at h
  rw [streamBit, streamBit, h (base + k / 8) (by omega) (by omega)]

theorem streamBits_congr {m m' : Memory} {base k n lim : Nat} (h : SameInside m m' base (ceil8 lim)) (hk : k + n ≤ lim) :
    streamBits m' base k n = streamBits m base k n := by
  induction n generalizing k with
  | zero => rfl
  | succ n ih => rw [streamBits, streamBits, streamBit_congr h (by omega), ih (by omega)]

theorem readBits_congr {m m' : Memory} {base k n lim : Nat} (size d : Nat) (h : SameInside m m' base (ceil8 lim))
    (hk : k + n ≤ lim) : readBits size m' base k d n = readBits size m base k d n := by
  induction n generalizing k d with
  | zero => rfl
  | succ n ih => rw [readBits, readBits, streamBit_congr h (by omega), ih _ (by omega)]

/-- The pairs of an image are read from its 5 · n bytes (R64). -/
theorem readPairs_congr {m m' : Memory} {n a : Nat} (low : Nat) (h : SameInside m m' a (5 * n)) :
    readPairs m' n a low = readPairs m n a low := by
  induction n generalizing a low with
  | zero => rfl
  | succ n ih =>
    have hsym : Memory.read m' a = Memory.read m a := h a (by omega) (by omega)
    have hfreq : memRead m' (a + 1) 4 = memRead m (a + 1) 4 := memRead_congr (h.mono (by omega) (by omega))
    have hrest : SameInside m m' (a + 5) (5 * n) := h.mono (by omega) (by omega)
    simp only [readPairs, hsym, hfreq, ih _ hrest]

/-! ### The tokens depend on the input's bytes only (spec/44_lz77_matcher.md R164) -/

section Input

variable {byte byte' : Nat → Byte} {n : Nat} (h : ∀ i, i < n → byte' i = byte i)
include h

theorem matchFrom_congr {pos off fuel l : Nat} (hl : pos + l + fuel ≤ n) :
    matchFrom byte' pos off fuel l = matchFrom byte pos off fuel l := by
  induction fuel generalizing l with
  | zero => rfl
  | succ fuel ih => rw [matchFrom, matchFrom, h (pos - off + l) (by omega), h (pos + l) (by omega), ih (by omega)]

theorem longestUpTo_congr {k pos : Nat} (hp : pos ≤ n) (w : Nat) :
    longestUpTo byte' n k pos w = longestUpTo byte n k pos w := by
  induction w with
  | zero => rfl
  | succ w ih =>
    have hlen : matchLen byte' n k pos (w + 1) = matchLen byte n k pos (w + 1) := matchFrom_congr h (by omega)
    simp only [longestUpTo, ih, hlen]

theorem tokenizeFrom_congr (w k fuel pos : Nat) :
    tokenizeFrom byte' n w k fuel pos = tokenizeFrom byte n w k fuel pos := by
  induction fuel generalizing pos with
  | zero => rfl
  | succ fuel ih =>
    simp only [tokenizeFrom]
    split
    · rfl
    · have hbest : longestMatch byte' n w k pos = longestMatch byte n w k pos := longestUpTo_congr h (by omega) _
      rw [hbest, ih]
      split
      · rename_i hlit
        rw [h _ hlit]
      · rfl

end Input

@[simp] theorem record_length (t : Token) : t.record.length = 10 := by
  unfold Token.record
  split <;> simp

theorem flatMap_record_length (ts : List Token) : (ts.flatMap Token.record).length = 10 * ts.length := by
  simp [List.length_flatMap, Nat.mul_comm]

/-! ### The decoder emits no more bytes than DST takes (spec/43_huffman_decoder.md R150) -/

theorem emit_eq_out {b : Byte} {w : WalkEnd} {bs : List Byte} (h : w.emit b = .out bs) :
    ∃ cs, w = .out cs ∧ bs = b :: cs := by
  cases w with
  | out cs => exact ⟨cs, rfl, (WalkEnd.out.inj h).symm⟩
  | error c => cases h
  | noNode i => cases h

theorem walkLeaf_length {sym : Byte} {bits : List Bool} {room : Nat} {bs : List Byte}
    (h : walkLeaf sym bits room = .out bs) : bs.length ≤ room := by
  induction bits generalizing room bs with
  | nil => cases h; exact Nat.zero_le _
  | cons bit bits ih =>
    cases bit with
    | true => cases h
    | false =>
      cases room with
      | zero => cases h
      | succ room =>
        obtain ⟨cs, hcs, rfl⟩ := emit_eq_out h
        exact Nat.succ_le_succ (ih hcs)

theorem walkTree_length {nodes : List Node} {root cur room : Nat} {bits : List Bool} {bs : List Byte}
    (h : walkTree nodes root bits cur room = .out bs) : bs.length ≤ room := by
  induction bits generalizing cur room bs with
  | nil =>
    simp only [walkTree] at h
    split at h
    · cases h; exact Nat.zero_le _
    · cases h
  | cons bit bits ih =>
    simp only [walkTree] at h
    split at h
    · cases h
    · cases h
    · split at h
      · cases h
      · exact ih h
      · split at h
        · cases h
        · obtain ⟨cs, hcs, rfl⟩ := emit_eq_out h
          exact Nat.succ_le_succ (ih hcs)

theorem decodeBits_length {nodes : List Node} {root : Option Nat} {bits : List Bool} {room : Nat} {bs : List Byte}
    (h : decodeBits nodes root bits room = .out bs) : bs.length ≤ room := by
  unfold decodeBits at h
  split at h
  · cases h; exact Nat.zero_le _
  · split at h
    · split at h
      · cases h; exact Nat.zero_le _
      · cases h
    · exact walkLeaf_length h
    · exact walkTree_length h

end Sys2Proof.Machine
end

section
/-! The frame of every command in DMEM (spec/20_memory.md R71), said once for all twelve: a command writes cells of its destination
range, and answers the same from every memory that agrees on the range it reads. -/

namespace Sys2Proof.Machine

open Sys2Proof

/-! ### Confined answers -/

/-- `f m` stands for what a command answers in `s` with the memory `m` for DMEM. It is confined to the ranges `dst` and `src` when
its answer in `s` writes only cells of `dst`, and every memory that agrees with that of `s` on `src` gives the same answer with the
same cells written. -/
def Confined (s : State) (dst src : Nat × Nat) (f : Memory → Result) : Prop :=
  ∀ t, f s.dmem = .next t → ∃ ws, CellsIn s.params.dmemSize dst ws ∧
    ∀ m, SameInside s.dmem m src.1 src.2 → f m = .next { t with dmem := writeCells m ws }

section Rules

variable {s : State} {dst src : Nat × Nat} {f g : Memory → Result}

theorem confined_congr (hfg : ∀ m, SameInside s.dmem m src.1 src.2 → f m = g m) (hg : Confined s dst src g) :
    Confined s dst src f := by
  intro t ht
  obtain ⟨ws, hws, hrun⟩ := hg t ((hfg s.dmem fun _ _ _ => rfl).symm.trans ht)
  exact ⟨ws, hws, fun m hm => (hfg m hm).trans (hrun m hm)⟩

/-- A check that reads at most the range `src`. -/
theorem confined_ite {c : Memory → Prop} {inst : ∀ m, Decidable (c m)} (hf : c s.dmem → Confined s dst src f)
    (hg : ¬c s.dmem → Confined s dst src g)
    (hc : ∀ m, SameInside s.dmem m src.1 src.2 → (c m ↔ c s.dmem) := by exact fun _ _ => Iff.rfl) :
    Confined s dst src (fun m => if c m then f m else g m) := by
  by_cases h : c s.dmem
  · exact confined_congr (fun m hm => if_pos ((hc m hm).2 h)) (hf h)
  · exact confined_congr (fun m hm => if_neg (mt (hc m hm).1 h)) (hg h)

/-- A completion after the cells `ws` are written. -/
theorem confined_complete {v : Memory → State} (c : ErrCode) {ws : List Host.Cell}
    (hws : CellsIn s.params.dmemSize dst ws)
    (hv : ∀ m, SameInside s.dmem m src.1 src.2 → v m = { v s.dmem with dmem := writeCells m ws }) :
    Confined s dst src (fun m => raise c (v m)) := by
  intro t ht
  obtain rfl := of_next ht
  exact ⟨ws, hws, fun m hm => congrArg (raise c) (hv m hm)⟩

/-- A completion after bytes are written from the first address of `dst` on. -/
theorem confined_bytes {v : Memory → State} (c : ErrCode) {bs : List Byte} (hr : dst.1 + dst.2 ≤ s.params.dmemSize)
    (hb : bs.length ≤ dst.2)
    (hv : ∀ m, SameInside s.dmem m src.1 src.2 → v m = { v s.dmem with dmem := Memory.writeBytes m dst.1 bs }) :
    Confined s dst src (fun m => raise c (v m)) :=
  confined_complete c (cellsIn_cellsAt hr hb) fun m hm => by rw [hv m hm, writeBytes_eq_writeCells]

/-- A completion that writes no DMEM. -/
theorem confined_unwritten {v : Memory → State} (c : ErrCode)
    (hv : ∀ m, SameInside s.dmem m src.1 src.2 → v m = { v s.dmem with dmem := m }) :
    Confined s dst src (fun m => raise c (v m)) := confined_complete c (cellsIn_nil _ _) hv

/-- A start error (R183). -/
theorem confined_raise (c : ErrCode) : Confined s dst src (fun m => raise c { s with dmem := m }) :=
  confined_unwritten c fun _ _ => rfl

/-- A stop that leaves no state. -/
theorem confined_fault (r : Fault) : Confined s dst src (fun _ => .fault r) := fun _ h => nomatch h

end Rules

/-! ### The writer (spec/40_bitpacker.md R101, R103) -/

/-- The writer's range. -/
abbrev writerRange (s : State) : Nat × Nat := (s.wbase.toNat, s.wcap.toNat)

/-- AppendBit with room for the bit writes at most one cell of the writer's range; what else it does takes nothing from DMEM. -/
theorem appendBit_writes {s : State} (b : Bool) (hroom : s.wpos.toNat < 8 * s.wcap.toNat) :
    ∃ ws p q, p.toNat = s.wpos.toNat + 1 ∧ CellsIn s.params.dmemSize (writerRange s) ws ∧
      ∀ m, appendBit { s with dmem := m } b = { s with dmem := writeCells m ws, wpos := p, pbuf := q } := by
  have hp : (BitVec.ofNat 64 (s.wpos.toNat + 1)).toNat = s.wpos.toNat + 1 := by
    have := s.wcap.isLt
    rw [BitVec.toNat_ofNat]
    exact Nat.mod_eq_of_lt (by omega)
  by_cases hfull : (s.wpos.toNat + 1) % 8 = 0
  · refine ⟨_, _, 0, hp, cellsIn_existing (a := s.wbase.toNat + (s.wpos.toNat + 1) / 8 - 1)
      (BitVec.ofNat 8 (2 * s.pbuf.toNat + b.toNat)) ?_ ?_, fun m => ?_⟩
    · dsimp only; omega
    · dsimp only; omega
    · rw [← writeExisting_eq_writeCells]
      exact if_pos hfull
  · refine ⟨[], _, BitVec.ofNat 8 (2 * s.pbuf.toNat + b.toNat), hp, cellsIn_nil _ _, fun m => ?_⟩
    exact if_neg hfull

theorem appendBits_writes {s : State} {bs : List Bool} (hroom : s.wpos.toNat + bs.length ≤ 8 * s.wcap.toNat) :
    ∃ ws p q, CellsIn s.params.dmemSize (writerRange s) ws ∧
      ∀ m, appendBits { s with dmem := m } bs = { s with dmem := writeCells m ws, wpos := p, pbuf := q } := by
  induction bs generalizing s with
  | nil => exact ⟨[], _, _, cellsIn_nil _ _, fun _ => rfl⟩
  | cons b bs ih =>
    rw [List.length_cons] at hroom
    obtain ⟨ws, p, q, hp, hws, hone⟩ := appendBit_writes b (s := s) (by omega)
    obtain ⟨us, p', q', hus, hrest⟩ := ih (s := { s with wpos := p, pbuf := q }) (by dsimp only; omega)
    refine ⟨ws ++ us, p', q', hws.append hus, fun m => ?_⟩
    rw [appendBits_cons, hone, writeCells_append]
    exact hrest (writeCells m ws)

/-- The flush writes at most one cell of the writer's range. -/
theorem flushWriter_writes (s : State) :
    ∃ ws, CellsIn s.params.dmemSize (writerRange s) ws ∧
      ∀ m, flushWriter { s with dmem := m } = { flushWriter s with dmem := writeCells m ws } := by
  by_cases hskip : s.wpos.toNat % 8 = 0 ∨ s.wcap.toNat ≤ s.wpos.toNat / 8
  · refine ⟨[], cellsIn_nil _ _, fun m => ?_⟩
    unfold flushWriter
    dsimp only
    rw [if_pos hskip, writeCells_nil]
  · refine ⟨_, cellsIn_existing (a := s.wbase.toNat + s.wpos.toNat / 8)
      (BitVec.ofNat 8 (s.pbuf.toNat * 2 ^ (8 - s.wpos.toNat % 8))) (Nat.le_add_right _ _) ?_, fun m => ?_⟩
    · dsimp only; omega
    · unfold flushWriter
      dsimp only
      rw [if_neg hskip, writeExisting_eq_writeCells]

/-- The encoder's loop ends in the same way from every DMEM: in an error, or with cells of the writer's range written (R140). -/
theorem encodeLoop_writes (xs : List Byte) (s : State) :
    (∃ c, ∀ m, encodeLoop xs { s with dmem := m } = .error c) ∨
    ∃ u ws, u.params = s.params ∧ writerRange u = writerRange s ∧ CellsIn s.params.dmemSize (writerRange s) ws ∧
      ∀ m, encodeLoop xs { s with dmem := m } = .ok { u with dmem := writeCells m ws } := by
  induction xs generalizing s with
  | nil => exact .inr ⟨s, [], rfl, rfl, cellsIn_nil _ _, fun _ => rfl⟩
  | cons x xs ih =>
    by_cases hcode : entry s.code x = []
    · exact .inl ⟨_, fun m => if_pos hcode⟩
    by_cases hroom : 8 * s.wcap.toNat < s.wpos.toNat + (entry s.code x).length
    · exact .inl ⟨_, fun m => (if_neg hcode).trans (if_pos hroom)⟩
    obtain ⟨ws, p, q, hws, happ⟩ := appendBits_writes (Nat.le_of_not_lt hroom)
    have hround : ∀ m, encodeLoop (x :: xs) { s with dmem := m } =
        encodeLoop xs { s with dmem := writeCells m ws, wpos := p, pbuf := q } := fun m => by
      rw [← happ]
      exact (if_neg hcode).trans (if_neg hroom)
    rcases ih { s with wpos := p, pbuf := q } with ⟨c, hc⟩ | ⟨u, us, hparams, hrange, hus, hok⟩
    · exact .inl ⟨c, fun m => (hround m).trans (hc (writeCells m ws))⟩
    · refine .inr ⟨u, ws ++ us, hparams, hrange, hws.append hus, fun m => (hround m).trans ?_⟩
      rw [writeCells_append]
      exact hok (writeCells m ws)

/-! ### Every command -/

theorem execBpWinit_confined (s : State) (dst src : Nat × Nat) :
    Confined s dst src (fun m => execBpWinit { s with dmem := m }) :=
  confined_ite (fun _ => confined_raise .address) fun _ => confined_unwritten .none fun _ _ => rfl

theorem execBpPut_confined (n : Byte) (s : State) (src : Nat × Nat) :
    Confined s (writerRange s) src (fun m => execBpPut n { s with dmem := m }) := by
  refine confined_ite (fun _ => confined_raise .illegal) fun _ =>
    confined_ite (fun _ => confined_raise .capacity) fun hroom => ?_
  obtain ⟨ws, p, q, hws, happ⟩ := appendBits_writes (s := s) (bs := argBits n.toNat s.arg)
    (by rw [argBits_length]; exact Nat.le_of_not_lt hroom)
  refine confined_complete .none hws fun m _ => ?_
  simp only [happ]

theorem execBpFlush_confined (s : State) (src : Nat × Nat) :
    Confined s (writerRange s) src (fun m => execBpFlush { s with dmem := m }) := by
  obtain ⟨ws, hws, hflush⟩ := flushWriter_writes s
  exact confined_complete .none hws fun m _ => hflush m

theorem execBpRinit_confined (s : State) (dst src : Nat × Nat) :
    Confined s dst src (fun m => execBpRinit { s with dmem := m }) :=
  confined_ite (fun _ => confined_raise .address) fun _ =>
    confined_ite (fun _ => confined_raise .format) fun _ => confined_unwritten .none fun _ _ => rfl

theorem execBpGet_confined (n : Byte) (s : State) (dst : Nat × Nat) :
    Confined s dst (s.rbase.toNat, ceil8 s.rlim.toNat) (fun m => execBpGet n { s with dmem := m }) := by
  refine confined_ite (fun _ => confined_raise .illegal) fun _ =>
    confined_ite (fun _ => confined_raise .format) fun hlim => confined_unwritten .none fun m hm => ?_
  have hbits := readBits_congr s.params.dmemSize s.draws hm (Nat.le_of_not_lt hlim)
  simp only [hbits]

/-- SRC as a range. -/
abbrev srcRange (s : State) : Nat × Nat := (s.srcAddr.toNat, s.srcLen.toNat)

/-- DST as a range. -/
abbrev dstRange (s : State) : Nat × Nat := (s.dstAddr.toNat, s.dstCap.toNat)

theorem dstOK_fits {s : State} (h : dstOK s = true) : s.dstAddr.toNat + s.dstCap.toNat ≤ s.params.dmemSize :=
  of_decide_eq_true h

/-- The start check of the two ranges has passed (R70). -/
theorem dstOK_of_ranges {s : State} (h : ¬(!srcOK s || !dstOK s) = true) : dstOK s = true := by
  simp only [Bool.or_eq_true, Bool.not_eq_true', not_or, Bool.not_eq_false] at h
  exact h.2

theorem srcBytes_congr {s : State} {m : Memory} (h : SameInside s.dmem m s.srcAddr.toNat s.srcLen.toNat) :
    srcBytes { s with dmem := m } = srcBytes s := readBytes_congr h

theorem execHtCount_confined (s : State) (dst : Nat × Nat) :
    Confined s dst (srcRange s) (fun m => execHtCount { s with dmem := m }) := by
  refine confined_ite (fun _ => confined_raise .address) fun _ =>
    confined_ite (fun _ => confined_raise .empty) fun _ => confined_unwritten .none fun m hm => ?_
  simp only [srcBytes_congr hm]
  rfl

theorem execHtBuild_confined (s : State) (dst src : Nat × Nat) :
    Confined s dst src (fun m => execHtBuild { s with dmem := m }) := confined_unwritten .none fun _ _ => rfl

/-- The size word is read once SRC_LEN is known to hold it, the pairs once it is known to hold them (R124). -/
theorem execHtLoadmeta_confined (s : State) (dst : Nat × Nat) :
    Confined s dst (srcRange s) (fun m => execHtLoadmeta { s with dmem := m }) := by
  refine confined_ite (fun _ => confined_raise .address) fun _ =>
    confined_ite (fun _ => confined_raise .format) fun h4 => ?_
  replace h4 : 4 ≤ s.srcLen.toNat := Nat.le_of_not_lt h4
  have hn : ∀ m, SameInside s.dmem m s.srcAddr.toNat s.srcLen.toNat →
      memRead m s.srcAddr.toNat 4 = memRead s.dmem s.srcAddr.toNat 4 := fun m hm =>
    memRead_congr (hm.mono (Nat.le_refl _) (by omega))
  refine confined_ite (fun _ => confined_raise .format) (fun _ =>
    confined_ite (fun _ => confined_raise .format) (fun hlen => ?_) fun m hm => ?_) fun m hm => ?_
  · replace hlen : 4 + 5 * memRead s.dmem s.srcAddr.toNat 4 ≤ s.srcLen.toNat := Nat.le_of_not_lt hlen
    have hps : ∀ m, SameInside s.dmem m s.srcAddr.toNat s.srcLen.toNat →
        readPairs m (memRead s.dmem s.srcAddr.toNat 4) (s.srcAddr.toNat + 4) 0 =
          readPairs s.dmem (memRead s.dmem s.srcAddr.toNat 4) (s.srcAddr.toNat + 4) 0 := fun m hm =>
      readPairs_congr 0 (hm.mono (Nat.le_add_right _ _) (by omega))
    cases hpairs : readPairs s.dmem (memRead s.dmem s.srcAddr.toNat 4) (s.srcAddr.toNat + 4) 0 with
    | none => exact confined_congr (fun m hm => by simp only [hn m hm, hps m hm, hpairs]) (confined_raise .format)
    | some ps =>
      refine confined_congr (fun m hm => ?_) (confined_unwritten (v := fun m =>
        setFreq (tableOf 0 ps) (BitVec.ofNat 32 (memRead s.dmem s.srcAddr.toNat 4)) { s with dmem := m }) .none
        fun _ _ => rfl)
      simp only [hn m hm, hps m hm, hpairs, finish, raise]
  · simp only [hn m hm]
  · simp only [hn m hm]

theorem execHtStoremeta_confined (s : State) (src : Nat × Nat) :
    Confined s (dstRange s) src (fun m => execHtStoremeta { s with dmem := m }) :=
  confined_ite (fun _ => confined_raise .address) fun hd =>
    confined_ite (fun _ => confined_raise .capacity) fun _ =>
      confined_bytes .none (bs := (metaImage s.nsym s.freq).take s.dstCap.toNat) (dstOK_fits (by simpa using hd))
        (List.length_take_le _ _) fun _ _ => rfl

theorem execHeEncode_confined (s : State) :
    Confined s (dstRange s) (srcRange s) (fun m => execHeEncode { s with dmem := m }) := by
  refine confined_ite (fun _ => confined_raise .address) fun hr =>
    confined_ite (fun _ => confined_raise .validation) fun _ =>
    confined_ite (fun _ => confined_raise .state) fun _ =>
    confined_ite (fun _ => confined_raise .empty) fun _ => ?_
  rcases encodeLoop_writes (srcBytes s) (openWriter s.dstAddr s.dstCap s) with
    ⟨c, hl⟩ | ⟨u, ws, hparams, hrange, hws, hl⟩
  · refine confined_congr (fun m hm => ?_) (confined_bytes (v := fun m => havocEncode { s with dmem := m }) c
      (dstOK_fits (dstOK_of_ranges hr)) (freeBytes_length s.draws s.dstCap.toNat).le fun _ _ => rfl)
    have hlm : encodeLoop (srcBytes s) (openWriter s.dstAddr s.dstCap { s with dmem := m }) = .error c := hl m
    simp only [srcBytes_congr hm, hlm]
  · obtain ⟨us, hus, hflush⟩ := flushWriter_writes u
    rw [hparams, hrange] at hus
    refine confined_congr (fun m hm => ?_) (confined_complete
      (v := fun m => flushWriter { u with dmem := writeCells m ws }) .none (hws.append hus) fun m _ => ?_)
    · have hlm : encodeLoop (srcBytes s) (openWriter s.dstAddr s.dstCap { s with dmem := m }) =
        .ok { u with dmem := writeCells m ws } := hl m
      simp only [srcBytes_congr hm, hlm, finish, raise]
    · rw [hflush, hflush (writeCells s.dmem ws), writeCells_append]

/-- The walk's bits are the BITCNT bits at SRC, which lie in SRC once the start checks have passed (R150). -/
theorem execHdDecode_confined (s : State) :
    Confined s (dstRange s) (srcRange s) (fun m => execHdDecode { s with dmem := m }) := by
  refine confined_ite (fun _ => confined_raise .address) fun hr =>
    confined_ite (fun _ => confined_raise .validation) fun _ =>
    confined_ite (fun _ => confined_raise .state) fun _ =>
    confined_ite (fun _ => confined_raise .format) fun hlen =>
    confined_ite (fun _ => confined_raise .format) fun _ => ?_
  replace hlen : ceil8 s.bitcnt.toNat ≤ s.srcLen.toNat := Nat.le_of_not_lt hlen
  have hfit := dstOK_fits (dstOK_of_ranges hr)
  have hbits : ∀ m, SameInside s.dmem m s.srcAddr.toNat s.srcLen.toNat →
      streamBits m s.srcAddr.toNat 0 s.bitcnt.toNat = streamBits s.dmem s.srcAddr.toNat 0 s.bitcnt.toNat := fun m hm =>
    streamBits_congr (hm.mono (Nat.le_refl _) (Nat.add_le_add_left hlen _)) (Nat.zero_add _).le
  cases hwalk : srcWalk s with
  | out bytes =>
    refine confined_congr (fun m hm => ?_) (confined_bytes (v := fun m =>
      { putOutput s.dstAddr.toNat bytes (BitVec.ofNat 32 bytes.length) (openReader s.srcAddr s.bitcnt { s with dmem := m }) with
        rdpos := s.bitcnt }) .none (bs := bytes) hfit (decodeBits_length hwalk) fun _ _ => rfl)
    simp only [hbits m hm, hwalk, finish, raise]
  | error c =>
    refine confined_congr (fun m hm => ?_) (confined_bytes (v := fun m => havocDecode { s with dmem := m }) c hfit
      (freeBytes_length s.draws s.dstCap.toNat).le fun _ _ => rfl)
    simp only [hbits m hm, hwalk]
  | noNode i =>
    refine confined_congr (fun m hm => ?_) (confined_fault (.noSuchNode i))
    simp only [hbits m hm, hwalk]

theorem srcTokens_congr {s : State} {m : Memory} (h : SameInside s.dmem m s.srcAddr.toNat s.srcLen.toNat) :
    srcTokens { s with dmem := m } = srcTokens s :=
  tokenizeFrom_congr (fun _ hi => h _ (Nat.le_add_right _ _) (Nat.add_lt_add_left hi _)) _ _ _ _

theorem execLzMatch_confined (s : State) :
    Confined s (dstRange s) (srcRange s) (fun m => execLzMatch { s with dmem := m }) := by
  refine confined_ite (fun _ => confined_raise .address) fun hr =>
    confined_ite (fun _ => confined_raise .validation) fun _ =>
    confined_ite (fun _ => confined_raise .validation) fun _ => ?_
  have hfit := dstOK_fits (dstOK_of_ranges hr)
  refine confined_ite (fun _ => ?_) (fun hroom => ?_) fun m hm => ?_
  · exact confined_bytes .capacity hfit (freeBytes_length s.draws s.dstCap.toNat).le fun _ _ => rfl
  · refine confined_bytes .none (bs := (srcTokens s).flatMap Token.record) hfit ?_ fun m hm => ?_
    · rw [flatMap_record_length]
      exact Nat.le_of_not_lt hroom
    · simp only [srcTokens_congr hm]
      rfl
  · simp only [srcTokens_congr hm]

/-- Every command is confined to its destination range and to the range it reads (R71, R86). -/
theorem exec_confined (i : Instr) (s : State) :
    Confined s (destRange i s) (readRange i s) (fun m => exec i { s with dmem := m }) := by
  cases i with
  | bpWinit => exact execBpWinit_confined s _ _
  | bpPut n => exact execBpPut_confined n s _
  | bpFlush => exact execBpFlush_confined s _
  | bpRinit => exact execBpRinit_confined s _ _
  | bpGet n => exact execBpGet_confined n s _
  | htCount => exact execHtCount_confined s _
  | htBuild => exact execHtBuild_confined s _ _
  | htLoadmeta => exact execHtLoadmeta_confined s _
  | htStoremeta => exact execHtStoremeta_confined s _
  | heEncode => exact execHeEncode_confined s
  | hdDecode => exact execHdDecode_confined s
  | lzMatch => exact execLzMatch_confined s

/-- A command that answers `next t` writes cells of its destination range, the same from every memory that agrees with DMEM on the
range it reads. -/
theorem exec_writes {i : Instr} {s t : State} (h : exec i s = .next t) :
    ∃ ws, CellsIn s.params.dmemSize (destRange i s) ws ∧ t.dmem = writeCells s.dmem ws ∧
      ∀ m, SameInside s.dmem m (readRange i s).1 (readRange i s).2 →
        exec i { s with dmem := m } = .next { t with dmem := writeCells m ws } := by
  obtain ⟨ws, hws, hrun⟩ := exec_confined i s t h
  have hself : t = { t with dmem := writeCells s.dmem ws } :=
    (of_next (h.symm.trans (hrun s.dmem fun _ _ _ => rfl))).symm
  exact ⟨ws, hws, congrArg State.dmem hself, hrun⟩

/-- Settles O24: every cell a command writes is in its destination range. -/
theorem commandsWriteOnlyTheirRange : Obligations.CommandsWriteOnlyTheirRange := by
  intro i s t h x hx
  obtain ⟨ws, hws, hdmem, _⟩ := exec_writes h
  rw [hdmem, read_writeCells_outside hws hx]

/-- Settles O25: the second run writes the cells of the first, and each address is among them or is not. -/
theorem commandsReadOnlyTheirRange : Obligations.CommandsReadOnlyTheirRange := by
  intro i s t m hm h
  obtain ⟨ws, _, hdmem, hrun⟩ := exec_writes h
  refine ⟨writeCells m ws, hrun m hm, fun x => ?_⟩
  rw [hdmem]
  exact (read_writeCells_cases ws x).imp (fun hsame => hsame _ _) fun hkept => ⟨hkept _, hkept _⟩

end Sys2Proof.Machine
end

section
/-! The form of DMEM under every step (spec/20_memory.md R60): the canonical form, and only addresses that exist. -/

namespace Sys2Proof.Machine

open Sys2Proof

theorem exec_dmemOk {i : Instr} {s t : State} (h : exec i s = .next t) (hs : DmemOk s) :
    DmemOk t ∧ t.params = s.params := by
  obtain ⟨hparams, _⟩ := commandsNeverWriteHostRegisters i s t h
  obtain ⟨ws, hws, hdmem, _⟩ := exec_writes h
  obtain ⟨hwf, hbelow⟩ := hs
  refine ⟨?_, hparams⟩
  rw [DmemOk, hdmem, hparams]
  exact ⟨writeCells_wf ws hwf, writeCells_below hbelow hws⟩

theorem runWord_dmemOk {w : Word} {s t : State} (h : runWord w s = .next t) (hs : DmemOk s) :
    DmemOk t ∧ t.params = s.params := by
  unfold runWord at h
  split at h
  · exact exec_dmemOk h hs
  · obtain rfl := of_next h
    exact ⟨hs, rfl⟩

/-- Free values in a range of bytes that exist, which may be empty. -/
theorem havocDmem_dmemOk {s : State} {a n : Nat} (hr : n = 0 ∨ a + n ≤ s.params.dmemSize) (hs : DmemOk s) :
    DmemOk (havocDmem a n s) := by
  obtain ⟨hwf, hbelow⟩ := hs
  refine ⟨writeBytes_wf a _ hwf, writeBytes_below _ hbelow ?_⟩
  rw [freeBytes_length]
  exact hr.imp (fun h0 => by rw [h0]; rfl) id

theorem softReset_dmemOk {s : State} (hs : DmemOk s) : DmemOk (softReset s) :=
  havocDmem_dmemOk (by unfold bytesThatExist; omega) hs

theorem powerOnReset_dmemOk (s : State) : DmemOk (powerOnReset s) :=
  havocDmem_dmemOk (s := { s with dmem := [] }) (.inr (Nat.zero_add _).le) ⟨List.Pairwise.nil, List.forall_mem_nil _⟩

/-- Of the register writes, only a soft reset changes DMEM. -/
theorem writeReg_dmemOk {s : State} (r : Reg) (v : Word) (hs : DmemOk s) :
    DmemOk (writeReg s r v) ∧ (writeReg s r v).params = s.params := by
  unfold writeReg
  split
  · unfold writeRegBusy
    split
    · exact ⟨hs, rfl⟩
    · split
      · exact ⟨softReset_dmemOk hs, rfl⟩
      · exact ⟨hs, rfl⟩
  · cases r with
    | ctrl =>
      unfold writeRegIdle
      dsimp only
      split
      · exact ⟨softReset_dmemOk hs, rfl⟩
      · exact ⟨hs, rfl⟩
    | _ => exact ⟨hs, rfl⟩

theorem hostOp_dmemOk {op : HostOp} {s t : State} (h : hostOp op s = .next t) (hs : DmemOk s) :
    DmemOk t ∧ t.params = s.params := by
  have hread : ∀ off, DmemOk (observeReg off s) ∧ (observeReg off s).params = s.params := fun off => by
    obtain ⟨x, k, he⟩ := observeReg_frame off s
    rw [he]
    exact ⟨hs, rfl⟩
  rcases hostOp_next h with ⟨off, v, _, _, rfl⟩ | ⟨off, _, _, rfl⟩ | ⟨a, b, _, _, ha, rfl⟩ | ⟨_, _, _, _, rfl⟩ |
    ⟨_, _, rfl⟩ | ⟨_, _, rfl⟩ | ⟨_, rfl⟩
  · exact writeReg_dmemOk _ v hs
  · exact hread off
  · obtain ⟨hwf, hbelow⟩ := hs
    exact ⟨⟨write_wf a b hwf, write_below b hbelow ha⟩, rfl⟩
  · exact ⟨hs, rfl⟩
  · exact hread statusOffset
  · exact hread statusOffset
  · exact ⟨powerOnReset_dmemOk s, rfl⟩

/-- Settles O26: a command writes only cells that exist, and so does every host operation. -/
theorem everyStepKeepsDmemForm : Obligations.EveryStepKeepsDmemForm := by
  intro s t hs h
  rcases step_next h with ⟨w, _, _, hw⟩ | ⟨op, ops, _, hop⟩ | ⟨_, _, rfl⟩
  · exact runWord_dmemOk hw hs
  · have hkept := hostOp_dmemOk hop hs
    exact hkept
  · exact ⟨hs, rfl⟩

end Sys2Proof.Machine
end

section
/-! Host accesses to DMEM (spec/20_memory.md R60, R67(b)): one byte, and a run of the host's accesses to the bytes of a wider
value in little-endian order (R61). -/

namespace Sys2Proof.Machine

open Sys2Proof

/-! ### One byte -/

theorem hostOp_memw {s : State} {a : Nat} (b : Byte) (hb : s.busy = false) (ha : a < s.params.dmemSize) :
    hostOp (.memw a b) s = .next { s with dmem := Memory.write s.dmem a b } := by
  simp [hostOp, hb, ha]

theorem hostOp_memr {s : State} {a : Nat} (hb : s.busy = false) (ha : a < s.params.dmemSize) :
    hostOp (.memr a) s = .next (see (.mem a (Memory.read s.dmem a)) s) := by
  simp [hostOp, hb, ha]

/-- Settles O19: a written byte reads back and the others stay; while busy and outside DMEM both accesses stop. -/
theorem hostDmemBytes : Obligations.HostDmemBytes := by
  intro s a b
  refine ⟨fun hb ha => ?_, fun hb => ?_, fun hb ha => ?_⟩
  · refine ⟨_, hostOp_memw b hb ha, read_write_same _ _ _, fun x hx => read_write_other _ b (by omega), ?_⟩
    rw [hostOp_memr (s := { s with dmem := Memory.write s.dmem a b }) hb ha, read_write_same]
  · simp [hostOp, hb]
  · simp [hostOp, hb, ha]

/-! ### Runs of accesses while idle -/

/-- While the core is idle, a step is the host's oldest operation. -/
theorem step_idle {s : State} {op : HostOp} {ops : List HostOp} (hb : s.busy = false) (ho : s.hostOps = op :: ops) :
    step s = hostOp op { s with hostOps := ops, delay := s.delay - 1 } := by
  have hp : s.pending = none := Option.isNone_iff_eq_none.1 (by simpa [State.busy] using hb)
  simp only [step, hp, hostTurn, ho]

theorem run_succ {M : Host.Core} {s u : M.State} (h : M.step s = .next u) (k : Nat) : M.run (k + 1) s = M.run k u := by
  rw [Host.Core.run, h]

/-- A run goes on from where its first `j` steps lead. -/
theorem run_add {M : Host.Core} {s u : M.State} {j : Nat} (k : Nat) (h : M.run j s = .next u) :
    M.run (j + k) s = M.run k u := by
  induction j generalizing s with
  | zero =>
    rw [Host.Core.run] at h
    rw [Nat.zero_add, Host.Outcome.next.inj h]
  | succ j ih =>
    rw [Nat.succ_add]
    cases hstep : M.step s with
    | next v => rw [run_succ hstep] at h ⊢; exact ih h
    | fault r => rw [Host.Core.run, hstep] at h; cases h
    | refused r => rw [Host.Core.run, hstep] at h; cases h

/-- The host writes bytes at a, a+1, ... -/
theorem run_memwOps {s : State} {a : Nat} {bs : List Byte} {rest : List HostOp} (hb : s.busy = false)
    (hr : a + bs.length ≤ s.params.dmemSize) (ho : s.hostOps = memwOps a bs ++ rest) :
    ∃ d, core.run bs.length s = .next { s with dmem := Memory.writeBytes s.dmem a bs, hostOps := rest, delay := d } := by
  induction bs generalizing s a with
  | nil => exact ⟨s.delay, by rw [← show s.hostOps = rest from ho]; rfl⟩
  | cons b bs ih =>
    rw [List.length_cons] at hr ⊢
    have hstep := (step_idle hb ho).trans (hostOp_memw b hb (by dsimp only; omega))
    rw [run_succ (M := core) hstep]
    exact ih hb (by dsimp only; omega) rfl

/-- What reads of the n bytes at a return, oldest first. -/
def memReads (m : Memory) (a : Nat) : Nat → List HostRead
  | 0 => []
  | n + 1 => .mem a (Memory.read m a) :: memReads m (a + 1) n

@[simp] theorem memReads_length (m : Memory) (a n : Nat) : (memReads m a n).length = n := by
  induction n generalizing a with
  | zero => rfl
  | succ n ih => rw [memReads, List.length_cons, ih]

theorem filterMap_byte_memReads (m : Memory) (a n : Nat) :
    (memReads m a n).filterMap HostRead.byte = Memory.readBytes m a n := by
  induction n generalizing a with
  | zero => rfl
  | succ n ih => simp [memReads, Memory.readBytes, HostRead.byte, ih]

theorem memrOps_succ (a n : Nat) : memrOps a (n + 1) = .memr a :: memrOps (a + 1) n := by
  simp [memrOps, List.range_succ_eq_map, Nat.add_assoc, Nat.add_comm 1]

/-- The host reads the n bytes at a. -/
theorem run_memrOps {s : State} {a n : Nat} {rest : List HostOp} (hb : s.busy = false)
    (hr : a + n ≤ s.params.dmemSize) (ho : s.hostOps = memrOps a n ++ rest) :
    ∃ d, core.run n s =
      .next { s with hostOps := rest, delay := d, seen := (memReads s.dmem a n).reverse ++ s.seen } := by
  induction n generalizing s a with
  | zero => exact ⟨s.delay, by rw [← show s.hostOps = rest from ho]; rfl⟩
  | succ n ih =>
    rw [memrOps_succ] at ho
    have hstep := (step_idle hb ho).trans (hostOp_memr hb (by dsimp only; omega))
    rw [run_succ (M := core) hstep, memReads, List.reverse_cons, List.append_assoc]
    exact ih hb (by simp only [see_params]; omega) rfl

/-- The n newest reads, when they are those of the n bytes at a, are the value stored there (R61). -/
theorem wideValue_memReads (m : Memory) (a n : Nat) (seen : List HostRead) :
    wideValue n ((memReads m a n).reverse ++ seen) = memRead m a n := by
  rw [wideValue, List.take_left' (by simp), List.reverse_reverse, filterMap_byte_memReads, memRead]

/-- n little-endian bytes hold a value modulo 256^n. -/
theorem leValue_leBytes_mod (n v : Nat) : leValue (leBytes n v) = v % 256 ^ n := by
  induction n generalizing v with
  | zero => simp [leBytes, leValue, Nat.mod_one]
  | succ n ih => rw [leBytes, leValue, ih, BitVec.toNat_ofNat, show 2 ^ 8 = 256 from rfl, pow_succ', Nat.mod_mul]

/-- Settles O60: the n writes store the bytes, and the n reads return them. -/
theorem wideHostAccessesAreLittleEndian : Obligations.WideHostAccessesAreLittleEndian := by
  intro s a n v rest hb hr ho
  have hlen := leBytes_length n v
  obtain ⟨d, hwrite⟩ := run_memwOps (bs := leBytes n v) hb (by rw [hlen]; exact hr) (ho.trans (List.append_assoc _ _ _))
  rw [hlen] at hwrite
  obtain ⟨d', hread⟩ := run_memrOps (s := { s with dmem := Memory.writeBytes s.dmem a (leBytes n v), hostOps := _, delay := d })
    hb hr rfl
  have hvalue : memRead (Memory.writeBytes s.dmem a (leBytes n v)) a n = v % 256 ^ n := by
    have hback := readBytes_writeBytes s.dmem a (leBytes n v)
    rw [hlen] at hback
    rw [memRead, hback, leValue_leBytes_mod]
  refine ⟨_, (run_add n hwrite).trans hread, rfl, hvalue, fun x hx => ?_, ?_⟩
  · exact read_writeBytes_outside s.dmem _ (by rw [hlen]; exact hx)
  · exact (wideValue_memReads _ a n s.seen).trans hvalue

end Sys2Proof.Machine
end

section
/-! The encoding (spec/30_encoding.md R80 to R85): the three fields of a word, the opcode map said once as three kinds of row, and
from them both directions of decoding and the list of the illegal words. -/

namespace Sys2Proof

/-! ### The fields of a word (R80) -/

theorem opField_toNat (w : Word) : (opField w).toNat = w.toNat % 2 ^ 8 := by simp [opField]

theorem nField_toNat (w : Word) : (nField w).toNat = w.toNat / 2 ^ 8 % 2 ^ 8 := by
  simp [nField, Nat.shiftRight_eq_div_pow]

theorem rsvField_eq_zero_iff (w : Word) : rsvField w = 0 ↔ w.toNat / 2 ^ 16 = 0 := by
  have hfield : (rsvField w).toNat = w.toNat / 2 ^ 16 % 2 ^ 16 := by simp [rsvField, Nat.shiftRight_eq_div_pow]
  have hzero : rsvField w = 0 ↔ (rsvField w).toNat = 0 := BitVec.toNat_eq
  have hw := w.isLt
  rw [hzero, hfield]
  omega

/-- A word is its three fields. -/
theorem append_fields (w : Word) : rsvField w ++ (nField w ++ opField w : BitVec 16) = w := by
  apply BitVec.eq_of_getLsbD_eq
  intro i hi
  simp only [rsvField, nField, opField, BitVec.getLsbD_append, BitVec.getLsbD_extractLsb']
  by_cases h16 : i < 16
  · by_cases h8 : i < 8
    · simp [h16, h8]
    · simp [h16, h8, show 8 + (i - 8) = i by omega, show i - 8 < 8 by omega]
  · simp [h16, show 16 + (i - 16) = i by omega, show i - 16 < 16 by omega]

theorem encode_fields (i : Instr) : Laws.EncodeFields.Statement i :=
  Laws.EncodeFields.fields_of_append (countField i) (opcode i)

/-- The word with a command's fields is the command's word. -/
theorem encode_eq {i : Instr} {w : Word} (hrsv : rsvField w = 0) (hn : countField i = nField w)
    (hop : opcode i = opField w) : encode i = w := by
  rw [encode, hn, hop, ← hrsv, append_fields]

/-! ### The check of N (R83) -/

theorem withCount_eq_command {n : Byte} {i j : Instr} : withCount n i = .command j ↔ countOk n = true ∧ i = j := by
  cases h : countOk n <;> simp [withCount, h]

theorem withoutCount_eq_command {n : Byte} {i j : Instr} : withoutCount n i = .command j ↔ n = 0 ∧ i = j := by
  rw [withoutCount]
  split
  · simp_all
  · simp_all

theorem withCount_illegal {n : Byte} {i : Instr} :
    (∃ why, withCount n i = .illegal why) ↔ n.toNat = 0 ∨ 32 < n.toNat := by
  have hbad : countOk n = false ↔ n.toNat = 0 ∨ 32 < n.toNat := by
    simp only [countOk, decide_eq_false_iff_not]
    omega
  rw [← hbad]
  cases h : countOk n <;> simp [withCount, h]

theorem withoutCount_illegal {n : Byte} {i : Instr} : (∃ why, withoutCount n i = .illegal why) ↔ n.toNat ≠ 0 := by
  have hzero : n = 0 ↔ n.toNat = 0 := BitVec.toNat_eq
  rw [withoutCount, ne_eq, ← hzero]
  split
  · simp_all
  · simp_all

/-! ### The opcode map (R82) -/

/-- The opcodes of the commands with a bit count. -/
abbrev CountedOp (op : Nat) : Prop := op ∈ [0x02, 0x05]

/-- The opcodes of the commands whose N must be 0. -/
abbrev PlainOp (op : Nat) : Prop := op ∈ [0x01, 0x03, 0x04, 0x10, 0x11, 0x12, 0x13, 0x20, 0x30, 0x40]

theorem not_plainOp_of_countedOp {op : Nat} (h : CountedOp op) : ¬PlainOp op := by
  rcases List.mem_pair.1 h with rfl | rfl
  · decide
  · decide

/-- The twelve opcodes of R82 are those of the two kinds. -/
theorem mem_opcodes_iff (op : Nat) :
    op ∈ [0x01, 0x02, 0x03, 0x04, 0x05, 0x10, 0x11, 0x12, 0x13, 0x20, 0x30, 0x40] ↔ CountedOp op ∨ PlainOp op := by
  simp only [CountedOp, PlainOp, List.mem_cons, List.not_mem_nil, or_false]
  omega

/-- What the opcode map answers for `op` and `n`: one of three kinds of row. -/
inductive OpRow (op n : Byte) : Decoded → Prop where
  | counted (i : Instr) (h : CountedOp op.toNat) (hop : opcode i = op) (hn : countField i = n) (hwf : i.wf = countOk n) :
      OpRow op n (withCount n i)
  | plain (i : Instr) (h : PlainOp op.toNat) (hop : opcode i = op) (hn : countField i = 0) (hwf : i.wf = true) :
      OpRow op n (withoutCount n i)
  | unlisted (hc : ¬CountedOp op.toNat) (hp : ¬PlainOp op.toNat) : OpRow op n (.illegal .opcode)

section Rows

variable {op n : Byte} {rest : Decoded} (i : Instr)

/-- The row of a command with a bit count, before the rest of the map. -/
theorem OpRow.counted_or (h : CountedOp (opcode i).toNat) (hn : countField i = n) (hwf : i.wf = countOk n)
    (hrest : op ≠ opcode i → OpRow op n rest) : OpRow op n (if op = opcode i then withCount n i else rest) := by
  split
  · rename_i he; exact .counted i (he ▸ h) he.symm hn hwf
  · rename_i he; exact hrest he

/-- The row of a command without a bit count, before the rest of the map. -/
theorem OpRow.plain_or (h : PlainOp (opcode i).toNat) (hn : countField i = 0) (hwf : i.wf = true)
    (hrest : op ≠ opcode i → OpRow op n rest) : OpRow op n (if op = opcode i then withoutCount n i else rest) := by
  split
  · rename_i he; exact .plain i (he ▸ h) he.symm hn hwf
  · rename_i he; exact hrest he

end Rows

theorem decodeOp_row (op n : Byte) : OpRow op n (decodeOp op n) := by
  refine .plain_or .bpWinit (by decide) rfl rfl fun h01 => ?_
  refine .counted_or (.bpPut n) List.mem_cons_self rfl rfl fun h02 => ?_
  refine .plain_or .bpFlush (by decide) rfl rfl fun h03 => ?_
  refine .plain_or .bpRinit (by decide) rfl rfl fun h04 => ?_
  refine .counted_or (.bpGet n) (List.mem_cons_of_mem _ List.mem_cons_self) rfl rfl fun h05 => ?_
  refine .plain_or .htCount (by decide) rfl rfl fun h10 => ?_
  refine .plain_or .htBuild (by decide) rfl rfl fun h11 => ?_
  refine .plain_or .htLoadmeta (by decide) rfl rfl fun h12 => ?_
  refine .plain_or .htStoremeta (by decide) rfl rfl fun h13 => ?_
  refine .plain_or .heEncode (by decide) rfl rfl fun h20 => ?_
  refine .plain_or .hdDecode (by decide) rfl rfl fun h30 => ?_
  refine .plain_or .lzMatch (by decide) rfl rfl fun h40 => ?_
  have hno : ¬(CountedOp op.toNat ∨ PlainOp op.toNat) := by
    rw [← mem_opcodes_iff]
    simp_all [opcode, BitVec.toNat_eq]
  exact .unlisted (fun h => hno (.inl h)) (fun h => hno (.inr h))

/-- A command's own row, N included. -/
theorem decodeOp_opcode (i : Instr) :
    decodeOp (opcode i) (countField i) = if i.wf then .command i else .illegal .bitCount := by
  cases i <;> rfl

/-- A row gives a command only for the command's own opcode and N. -/
theorem decodeOp_eq_command {op n : Byte} {i : Instr} (h : decodeOp op n = .command i) :
    opcode i = op ∧ countField i = n ∧ i.wf = true := by
  have hrow := decodeOp_row op n
  generalize decodeOp op n = d at h hrow
  cases hrow with
  | counted j _ hop hn hwf =>
    obtain ⟨hok, rfl⟩ := withCount_eq_command.1 h
    exact ⟨hop, hn, hwf.trans hok⟩
  | plain j _ hop hn hwf =>
    obtain ⟨hz, rfl⟩ := withoutCount_eq_command.1 h
    exact ⟨hop, hn.trans hz.symm, hwf⟩
  | unlisted => cases h

/-- The rows without a command: the last three cases of R84. -/
theorem decodeOp_illegal_iff (op n : Byte) : (∃ why, decodeOp op n = .illegal why) ↔
    ¬(CountedOp op.toNat ∨ PlainOp op.toNat) ∨ (CountedOp op.toNat ∧ (n.toNat = 0 ∨ 32 < n.toNat)) ∨
    (PlainOp op.toNat ∧ n.toNat ≠ 0) := by
  have hrow := decodeOp_row op n
  generalize decodeOp op n = d at hrow ⊢
  cases hrow with
  | counted i h =>
    have hp := not_plainOp_of_countedOp h
    rw [withCount_illegal]
    tauto
  | plain i h =>
    have hc : ¬CountedOp op.toNat := fun hc => not_plainOp_of_countedOp hc h
    rw [withoutCount_illegal]
    tauto
  | unlisted hc hp => exact iff_of_true ⟨_, rfl⟩ (.inl (not_or.2 ⟨hc, hp⟩))

/-! ### Whole words -/

theorem decode_of_rsv {w : Word} (h : rsvField w = 0) : decode w = decodeOp (opField w) (nField w) := if_pos h

theorem decode_of_rsv_ne {w : Word} (h : rsvField w ≠ 0) : decode w = .illegal .reservedBits := if_neg h

/-- Settles O1: the three fields of the word are read back, and the opcode map has the command's row. -/
theorem decodeInvertsEncode : Obligations.DecodeInvertsEncode := by
  intro i
  obtain ⟨hrsv, hn, hop⟩ := encode_fields i
  rw [decode_of_rsv hrsv, hn, hop, decodeOp_opcode]

/-- Settles O2: the row that gave the command has its opcode and N, and these with RSV = 0 are the whole word. -/
theorem decodedWordIsTheEncoding : Obligations.DecodedWordIsTheEncoding := by
  intro w i h
  by_cases hrsv : rsvField w = 0
  · obtain ⟨hop, hn, hwf⟩ := decodeOp_eq_command ((decode_of_rsv hrsv).symm.trans h)
    exact ⟨encode_eq hrsv hn hop, hwf⟩
  · cases (decode_of_rsv_ne hrsv).symm.trans h

/-- Settles O3: the first case of R84 is about RSV, the other three are the rows without a command. -/
theorem illegalWordsAreThoseListed : Obligations.IllegalWordsAreThoseListed := by
  intro w
  rw [← opField_toNat, ← nField_toNat, ne_eq, ← rsvField_eq_zero_iff, mem_opcodes_iff]
  by_cases hrsv : rsvField w = 0
  · rw [decode_of_rsv hrsv, decodeOp_illegal_iff, or_iff_right (not_not.2 hrsv)]
  · rw [decode_of_rsv_ne hrsv]
    exact iff_of_true ⟨_, rfl⟩ (.inl hrsv)

/-- Settles O4: the eight closed words are decoded by computation. -/
theorem tableWordsDecode : Obligations.TableWordsDecode := by
  unfold Obligations.TableWordsDecode
  decide

end Sys2Proof
end

section
/-! A busy step (spec/60_exceptions.md R180 to R183, spec/70_reset_and_hazards.md R225): the core performs the pending word, or the
host goes first; and which commands write which register or table (spec/30_encoding.md R86). -/

namespace Sys2Proof.Machine

open Sys2Proof

/-! ### The step while BUSY = 1 -/

theorem coreMoves_iff (s : State) : coreMoves s = true ↔ s.delay = 0 ∨ s.hostOps = [] := by simp [coreMoves]

/-- The core goes next: the step performs the pending word. -/
theorem step_core {s : State} {w : Word} (hp : s.pending = some w) (hm : s.delay = 0 ∨ s.hostOps = []) :
    step s = runWord w s := by
  simp only [step, hp, (coreMoves_iff s).2 hm, if_true]

/-- The host goes first: the step is its oldest operation. -/
theorem step_host_first {s : State} {w : Word} {op : HostOp} {ops : List HostOp} (hp : s.pending = some w)
    (ho : s.hostOps = op :: ops) (hd : 0 < s.delay) : step s = hostOp op { s with hostOps := ops, delay := s.delay - 1 } := by
  have hm : coreMoves s = false := by simp [coreMoves, ho, hd.ne']
  simp [step, hp, hm, hostTurn, ho]

theorem runWord_command {w : Word} {i : Instr} (h : decode w = .command i) (s : State) : runWord w s = exec i s := by
  rw [runWord, h]

theorem runWord_illegal {w : Word} {why : IllegalReason} (h : decode w = .illegal why) (s : State) :
    runWord w s = .next (complete .illegal s) := by
  rw [runWord, h, raise]

/-- Settles O5: who goes next, and for the core what its word decodes to. -/
theorem stepRunsTheDecodedCommand : Obligations.StepRunsTheDecodedCommand := by
  intro s w hp
  refine ⟨fun i hd hm => ?_, fun why hd hm => ?_, fun op ops ho hdelay => ?_⟩
  · exact (step_core hp hm).trans (runWord_command hd s)
  · exact (step_core hp hm).trans (runWord_illegal hd s)
  · exact step_host_first hp ho hdelay

/-- Settles O7: the step is the completion with ILLEGAL, which writes STATUS and PENDING only. -/
theorem illegalWordChangesOnlyStatus : Obligations.IllegalWordChangesOnlyStatus := by
  intro s w hp hno hm
  cases hd : decode w with
  | command i => exact absurd hd (hno i)
  | illegal why =>
    exact ⟨_, (step_core hp hm).trans (runWord_illegal hd s), rfl, rfl, rfl, rfl, rfl, Bool.or_true _, rfl, rfl⟩

/-! ### The writers of each register and table (R86, R42) -/

/-- Settles O21: in each case of a completion the fields that differ are those the command is listed for. -/
theorem onlyTheListedCommandsWrite : Obligations.OnlyTheListedCommandsWrite := by
  intro i s t h
  cases exec_completion h with
  | encoded u _ hl =>
    obtain ⟨m, p, b, rfl⟩ := encodeLoop_frame hl
    simp
  | encodeFailed => simp [havocEncode]
  | decodeFailed => simp [havocDecode]
  | matchFailed => simp [havocMatch]
  | _ => simp +contextual

end Sys2Proof.Machine
end

section
/-! The value of a sequence of bits (spec/40_bitpacker.md R105) and the bytes of Pack (R107), bit by bit and as values. -/

namespace Sys2Proof.Machine

open Sys2Proof

/-! ### The value of bits -/

/-- The last bit of a sequence is bit 0 of its value. -/
theorem bitsValue_testBit (bs : List Bool) (j : Nat) : (bitsValue bs).testBit j = bs.reverse.getD j false := by
  induction bs using List.reverseRecOn generalizing j with
  | nil => simp [bitsValue]
  | append_singleton bs b ih =>
    have hbit : bitsValue (bs ++ [b]) = Nat.bit b (bitsValue bs) := by
      rw [bitsValue_append, Nat.bit_val]
    rw [hbit, List.reverse_append, List.reverse_singleton, List.singleton_append]
    cases j with
    | zero => simp
    | succ j => rw [Nat.testBit_bit_succ, ih, List.getD_cons_succ]

/-- Bit j of a sequence of n bits is bit n-1-j of its value. -/
theorem bitsValue_testBit_getElem {bs : List Bool} {n j : Nat} (hn : bs.length = n) (h : j < bs.length) :
    (bitsValue bs).testBit (n - 1 - j) = bs[j] := by
  subst hn
  have hj : bs.length - 1 - j < bs.reverse.length := by rw [List.length_reverse]; omega
  rw [bitsValue_testBit, List.getD_eq_getElem _ _ hj, List.getElem_reverse]
  congr 1
  omega

/-- Zeros after the bits double their value, each one. -/
theorem bitsValue_append_zeros (bs : List Bool) (k : Nat) :
    bitsValue (bs ++ List.replicate k false) = bitsValue bs * 2 ^ k := by
  induction k with
  | zero => simp
  | succ k ih =>
    rw [List.replicate_succ', ← List.append_assoc, bitsValue_append, ih, Bool.toNat_false, pow_succ]
    ring

/-- The bits BP_PUT N appends have the value of the low N bits of ARG (R102, R110). -/
theorem bitsValue_argBits (n : Nat) (arg : Word) : bitsValue (argBits n arg) = arg.toNat % 2 ^ n := by
  refine Nat.eq_of_testBit_eq fun j => ?_
  rw [bitsValue_testBit, Nat.testBit_mod_two_pow]
  by_cases hj : j < n
  · have hr : j < (argBits n arg).reverse.length := by simpa using hj
    rw [List.getD_eq_getElem _ _ hr, List.getElem_reverse]
    simp only [argBits, List.getElem_map, List.getElem_range, List.length_map, List.length_range, hj, decide_true,
      Bool.true_and, BitVec.getLsbD]
    congr 1
    omega
  · rw [List.getD_eq_default _ _ (by simpa using hj)]
    simp [hj]

/-! ### The bytes of Pack -/

/-- The bits of byte i of Pack: eight of the sequence, with zeros past its end (R107). -/
def byteBits (bits : List Bool) (i : Nat) : List Bool := (List.range 8).map (fun p => bits.getD (8 * i + p) false)

@[simp] theorem byteBits_length (bits : List Bool) (i : Nat) : (byteBits bits i).length = 8 := by simp [byteBits]

theorem packByte_toNat (bits : List Bool) (i : Nat) : (packByte bits i).toNat = bitsValue (byteBits bits i) := by
  have hlt : bitsValue (byteBits bits i) < 2 ^ 8 := byteBits_length bits i ▸ bitsValue_lt _
  have hval : packByte bits i = BitVec.ofNat 8 (bitsValue (byteBits bits i)) := by
    unfold packByte byteBits bitsValue
    congr 1
    simp only [List.range_succ, List.range_zero, List.nil_append, List.cons_append, List.map_cons, List.map_nil,
      List.sum_cons, List.sum_nil, List.foldl_cons, List.foldl_nil]
    ring
  rw [hval, BitVec.toNat_ofNat, Nat.mod_eq_of_lt hlt]

/-- Bit p of byte i of Pack, counted from the most significant one, is bit 8i + p of the sequence (R62, R107). -/
theorem packByte_getLsbD (bits : List Bool) {i p : Nat} (hp : p < 8) :
    (packByte bits i).getLsbD (7 - p) = bits.getD (8 * i + p) false := by
  have hb := bitsValue_testBit_getElem (byteBits_length bits i) (j := p) (by simpa using hp)
  rw [BitVec.getLsbD, packByte_toNat, hb]
  simp [byteBits]

/-- A byte that the sequence fills does not depend on the bits that come after. -/
theorem packByte_append {bits : List Bool} (cs : List Bool) {i : Nat} (h : i < bits.length / 8) :
    packByte (bits ++ cs) i = packByte bits i := by
  have hbits : byteBits (bits ++ cs) i = byteBits bits i := by
    refine List.map_congr_left fun p hp => ?_
    rw [List.mem_range] at hp
    exact List.getD_append _ _ _ _ (by omega)
  exact BitVec.eq_of_toNat_eq (by rw [packByte_toNat, packByte_toNat, hbits])

/-- The last byte of Pack: the bits the bytes before it leave, high, and pad bits 0 (R63, R107). -/
theorem packByte_last {bits : List Bool} {i : Nat} (h : bits.length ≤ 8 * i + 8) :
    (packByte bits i).toNat = bitsValue (bits.drop (8 * i)) * 2 ^ (8 - (bits.length - 8 * i)) := by
  have hbits : byteBits bits i = bits.drop (8 * i) ++ List.replicate (8 - (bits.length - 8 * i)) false := by
    refine List.ext_getElem (by simp; omega) fun p hp _ => ?_
    by_cases hin : p < (bits.drop (8 * i)).length
    · rw [List.getElem_append_left hin]
      rw [List.length_drop] at hin
      simp [byteBits, List.getElem?_eq_getElem (show 8 * i + p < bits.length by omega)]
    · rw [List.getElem_append_right (by omega)]
      rw [List.length_drop] at hin
      simp [byteBits, List.getElem?_eq_none (show bits.length ≤ 8 * i + p by omega)]
  rw [packByte_toNat, hbits, bitsValue_append_zeros]

/-- A memory that holds the bytes of Pack reads as Pack. -/
theorem readBytes_eq_pack_iff {m : Memory} {a : Nat} {bits : List Bool} :
    Memory.readBytes m a (ceil8 bits.length) = pack bits ↔
      ∀ i, i < ceil8 bits.length → Memory.read m (a + i) = packByte bits i := by
  have hlen : (pack bits).length = ceil8 bits.length := by simp [pack]
  constructor
  · intro h i hi
    have hget := readBytes_getElem m a (ceil8 bits.length) i (by simpa using hi)
    rw [← hget]
    simp [h, pack]
  · intro h
    refine List.ext_getElem (by rw [readBytes_length, hlen]) fun i hi _ => ?_
    rw [readBytes_getElem, h i (by simpa using hi)]
    simp [pack]

/-! ### The bits of a stream (R62) -/

/-- A stream cut in two. -/
theorem streamBits_add (m : Memory) (base k a b : Nat) :
    streamBits m base k (a + b) = streamBits m base k a ++ streamBits m base (k + a) b := by
  induction a generalizing k with
  | zero => simp [streamBits]
  | succ a ih => rw [Nat.add_right_comm, streamBits, streamBits, ih, List.cons_append, Nat.add_right_comm k, Nat.add_assoc k]

/-- The stream over Pack(bits) is `bits`. -/
theorem streamBits_of_pack {m : Memory} {base : Nat} {bits : List Bool}
    (h : ∀ i, i < ceil8 bits.length → Memory.read m (base + i) = packByte bits i) :
    streamBits m base 0 bits.length = bits := by
  refine List.ext_getElem (streamBits_length _ _ _ _) fun k _ hk => ?_
  have hbyte := h (k / 8) (by unfold ceil8; omega)
  rw [streamBits_getElem, Nat.zero_add, streamBit, hbyte, packByte_getLsbD bits (Nat.mod_lt k (by decide)),
    Nat.div_add_mod, List.getD_eq_getElem _ _ hk]

/-- One bit that ReadBit gives: the stream's where its byte exists, else a free one (R106, log entry 8). -/
theorem readBits_getElem {size : Nat} {m : Memory} {base k d n j : Nat} (h : j < (readBits size m base k d n).length) :
    (readBits size m base k d n)[j] =
      if base + (k + j) / 8 < size then streamBit m base (k + j) else (Config.freeByte (d + j)).getLsbD 0 := by
  induction n generalizing k d j with
  | zero => simp at h
  | succ n ih =>
    cases j with
    | zero => simp [readBits]
    | succ j =>
      simp only [readBits, List.getElem_cons_succ]
      rw [ih (by simpa using h), Nat.add_right_comm k, Nat.add_right_comm d, Nat.add_assoc k, Nat.add_assoc d]

end Sys2Proof.Machine
end

section
/-! The writer's stream under AppendBit and the flush (spec/10_state.md R45, spec/40_bitpacker.md R101, R103): where the stream lies
in DMEM, the bits appended stand at its end, and the flush completes Pack of them. -/

namespace Sys2Proof.Machine

open Sys2Proof

/-! ### AppendBit -/

theorem appendBit_wpos (s : State) (b : Bool) : (appendBit s b).wpos = BitVec.ofNat 64 (s.wpos.toNat + 1) := by
  unfold appendBit
  dsimp only
  split <;> rfl

theorem appendBit_pbuf (s : State) (b : Bool) :
    (appendBit s b).pbuf =
      if (s.wpos.toNat + 1) % 8 = 0 then 0 else BitVec.ofNat 8 (2 * s.pbuf.toNat + b.toNat) := by
  unfold appendBit
  dsimp only
  split <;> rfl

/-- PBUF after one more bit holds the bits after the last full byte. -/
theorem appendBit_pbuf_of_streamHolds {s : State} {bits : List Bool} (h : StreamHolds s bits) (b : Bool) :
    (appendBit s b).pbuf.toNat = bitsValue ((bits ++ [b]).drop (8 * ((bits.length + 1) / 8))) := by
  obtain ⟨hpos, _, hbuf⟩ := h
  rw [appendBit_pbuf]
  by_cases hbyte : (s.wpos.toNat + 1) % 8 = 0
  · rw [if_pos hbyte, List.drop_eq_nil_of_le (by simp; omega)]
    rfl
  · have hval : bitsValue ((bits ++ [b]).drop (8 * ((bits.length + 1) / 8))) = 2 * s.pbuf.toNat + b.toNat := by
      rw [List.drop_append_of_le_length (by omega), bitsValue_append, hbuf,
        show (bits.length + 1) / 8 = bits.length / 8 by omega]
    have hlt : bitsValue ((bits ++ [b]).drop (8 * ((bits.length + 1) / 8))) < 2 ^ 8 :=
      (bitsValue_lt _).trans_le (Nat.pow_le_pow_right (by decide) (by simp; omega))
    rw [if_neg hbyte, BitVec.toNat_ofNat, ← hval, Nat.mod_eq_of_lt hlt]

section Room

variable {s : State} (hroom : s.wpos.toNat < 8 * s.wcap.toNat)

include hroom

/-- A position within the capacity does not wrap. -/
theorem appendBit_wpos_toNat (b : Bool) : (appendBit s b).wpos.toNat = s.wpos.toNat + 1 := by
  have := s.wcap.isLt
  rw [appendBit_wpos, BitVec.toNat_ofNat, Nat.mod_eq_of_lt (by omega)]

variable {bits : List Bool} (hfit : s.wbase.toNat + s.wcap.toNat ≤ s.params.dmemSize) (h : StreamHolds s bits)

include hfit h

/-- The bytes that are full after one more bit: those that were full, and the one that bit fills. -/
theorem read_appendBit_of_streamHolds (b : Bool) {i : Nat} (hi : i < (bits.length + 1) / 8) :
    Memory.read (appendBit s b).dmem (s.wbase.toNat + i) = packByte (bits ++ [b]) i := by
  obtain ⟨hpos, hfull, hbuf⟩ := h
  rw [read_appendBit]
  by_cases hold : i < bits.length / 8
  · rw [if_neg (by omega), hfull i hold, packByte_append _ hold]
  · have hlast : (packByte (bits ++ [b]) i).toNat = 2 * s.pbuf.toNat + b.toNat := by
      rw [packByte_last (by simp; omega), List.drop_append_of_le_length (by omega), bitsValue_append, hbuf,
        show bits.length / 8 = i by omega, List.length_append, List.length_singleton,
        show 8 - (bits.length + 1 - 8 * i) = 0 by omega, pow_zero, Nat.mul_one]
    rw [if_pos (by omega), ← hlast, BitVec.ofNat_toNat, BitVec.setWidth_eq]

/-- AppendBit with room for the bit puts it at the end of the stream. -/
theorem appendBit_streamHolds (b : Bool) : StreamHolds (appendBit s b) (bits ++ [b]) := by
  have hlen : (bits ++ [b]).length = bits.length + 1 := by simp
  refine ⟨?_, ?_, ?_⟩
  · rw [appendBit_wpos_toNat hroom, hlen, h.1]
  · intro i hi
    rw [appendBit_wbase]
    exact read_appendBit_of_streamHolds hroom hfit h b (hlen ▸ hi)
  · rw [hlen]
    exact appendBit_pbuf_of_streamHolds h b

end Room

/-! ### A run of AppendBit -/

theorem appendBits_wpos_toNat {s : State} {bs : List Bool} (hroom : s.wpos.toNat + bs.length ≤ 8 * s.wcap.toNat) :
    (appendBits s bs).wpos.toNat = s.wpos.toNat + bs.length := by
  induction bs generalizing s with
  | nil => rfl
  | cons b bs ih =>
    rw [List.length_cons] at hroom
    have hpos := appendBit_wpos_toNat (s := s) (by omega) b
    rw [appendBits_cons, ih (by rw [hpos, appendBit_wcap]; omega), hpos, List.length_cons]
    omega

/-- A run of AppendBit writes the bytes that it fills, and no other (R101). -/
theorem appendBits_sameOutside {s : State} {bs : List Bool} (hroom : s.wpos.toNat + bs.length ≤ 8 * s.wcap.toNat) :
    SameOutside s.dmem (appendBits s bs).dmem (s.wbase.toNat + s.wpos.toNat / 8)
      ((s.wpos.toNat + bs.length) / 8 - s.wpos.toNat / 8) := by
  induction bs generalizing s with
  | nil => exact fun _ _ => rfl
  | cons b bs ih =>
    intro x hx
    rw [List.length_cons] at hroom hx
    have hpos := appendBit_wpos_toNat (s := s) (by omega) b
    have hrest := ih (s := appendBit s b) (by rw [hpos, appendBit_wcap]; omega) x
      (by rw [hpos, appendBit_wbase]; omega)
    rw [appendBits_cons, hrest, read_appendBit, if_neg (by omega)]

/-- A run of AppendBit with room for its bits puts them at the end of the stream. -/
theorem appendBits_streamHolds {s : State} {bits bs : List Bool}
    (hroom : s.wpos.toNat + bs.length ≤ 8 * s.wcap.toNat) (hfit : s.wbase.toNat + s.wcap.toNat ≤ s.params.dmemSize)
    (h : StreamHolds s bits) : StreamHolds (appendBits s bs) (bits ++ bs) := by
  induction bs generalizing s bits with
  | nil => simpa using h
  | cons b bs ih =>
    rw [List.length_cons] at hroom
    have hone : s.wpos.toNat < 8 * s.wcap.toNat := by omega
    have hpos := appendBit_wpos_toNat hone b
    have hrest := ih (by rw [hpos, appendBit_wcap]; omega) (by simpa using hfit) (appendBit_streamHolds hone hfit h b)
    rwa [List.append_assoc] at hrest

/-- An opened writer holds no bits. -/
theorem openWriter_streamHolds (base cap : Word) (s : State) : StreamHolds (openWriter base cap s) [] :=
  ⟨rfl, fun _ hi => absurd hi (Nat.not_lt_zero _), rfl⟩

/-! ### The flush -/

/-- The flush writes no byte but the incomplete one (R103). -/
theorem flushWriter_sameOutside_byte (s : State) :
    SameOutside s.dmem (flushWriter s).dmem (s.wbase.toNat + s.wpos.toNat / 8) 1 := by
  intro x hx
  rw [read_flushWriter, if_neg (by omega)]

/-- The flush writes no byte outside the writer's range (R71). -/
theorem flushWriter_sameOutside_range (s : State) :
    SameOutside s.dmem (flushWriter s).dmem s.wbase.toNat s.wcap.toNat := by
  intro x hx
  rw [read_flushWriter, if_neg (by omega)]

/-- After the flush DMEM holds Pack of the stream (R103, R107). -/
theorem read_flushWriter_of_streamHolds {s : State} {bits : List Bool} (hroom : s.wpos.toNat ≤ 8 * s.wcap.toNat)
    (hfit : s.wbase.toNat + s.wcap.toNat ≤ s.params.dmemSize) (h : StreamHolds s bits) {i : Nat}
    (hi : i < ceil8 bits.length) : Memory.read (flushWriter s).dmem (s.wbase.toNat + i) = packByte bits i := by
  obtain ⟨hpos, hfull, hbuf⟩ := h
  unfold ceil8 at hi
  rw [read_flushWriter]
  by_cases hold : i < bits.length / 8
  · rw [if_neg (by omega), hfull i hold]
  · have hlast : (packByte bits i).toNat = s.pbuf.toNat * 2 ^ (8 - s.wpos.toNat % 8) := by
      rw [packByte_last (by omega), hbuf, hpos, show bits.length / 8 = i by omega,
        show bits.length - 8 * i = bits.length % 8 by omega]
    rw [if_pos (by omega), ← hlast, BitVec.ofNat_toNat, BitVec.setWidth_eq]

theorem flushWriter_outLen_toNat {s : State} (h : ceil8 s.wpos.toNat < 2 ^ 32) :
    (flushWriter s).outLen.toNat = ceil8 s.wpos.toNat := by
  rw [(flushWriter_outLen_of_fits h).1, BitVec.toNat_ofNat, Nat.mod_eq_of_lt h]

/-- The bytes of a stream within its capacity are no more than WCAP. -/
theorem ceil8_wpos_le_wcap {s : State} (hroom : s.wpos.toNat ≤ 8 * s.wcap.toNat) : ceil8 s.wpos.toNat ≤ s.wcap.toNat := by
  unfold ceil8
  omega

end Sys2Proof.Machine
end

section
/-! The BitPacker's commands (spec/40_bitpacker.md R100 to R106): what each answers when its checks pass and when one fails, and its
whole effect. -/

namespace Sys2Proof.Machine

open Sys2Proof

/-! ### The check of N (R80, R83) -/

theorem countOk_iff {n : Byte} : countOk n = true ↔ 1 ≤ n.toNat ∧ n.toNat ≤ 32 := decide_eq_true_iff

theorem countOk_eq_false_iff {n : Byte} : countOk n = false ↔ n.toNat = 0 ∨ 32 < n.toNat := by
  rw [← Bool.not_eq_true, countOk_iff]
  omega

/-! ### BP_WINIT (R100) -/

theorem exec_bpWinit_of_dstOK {s : State} (h : dstOK s = true) :
    exec .bpWinit s = .next (complete .none { openWriter s.dstAddr s.dstCap s with bitcnt := 0 }) := by
  simp [exec, execBpWinit, h, finish]

theorem exec_bpWinit_of_not_dstOK {s : State} (h : dstOK s = false) :
    exec .bpWinit s = .next (complete .address s) := by
  simp [exec, execBpWinit, h, raise]

/-- Settles O31: the two outcomes of the one check, that of DST. -/
theorem bpWinitOpensAStream : Obligations.BpWinitOpensAStream :=
  ⟨tableWordsDecode.1, fun _ =>
    ⟨fun h => exec_bpWinit_of_dstOK (decide_eq_true h),
      fun h => exec_bpWinit_of_not_dstOK (decide_eq_false (Nat.not_le_of_lt h))⟩⟩

/-! ### BP_PUT (R102) -/

/-- The state in which BP_PUT N leaves the machine when it succeeds. -/
def afterPut (n : Byte) (s : State) : State :=
  complete .none { appendBits s (argBits n.toNat s.arg) with bitcnt := (appendBits s (argBits n.toNat s.arg)).wpos }

theorem exec_bpPut_of_room {s : State} {n : Byte} (hn : countOk n = true)
    (h : s.wpos.toNat + n.toNat ≤ 8 * s.wcap.toNat) : exec (.bpPut n) s = .next (afterPut n s) := by
  simp [exec, execBpPut, hn, Nat.not_lt.2 h, finish, afterPut]

theorem exec_bpPut_of_no_room {s : State} {n : Byte} (hn : countOk n = true)
    (h : 8 * s.wcap.toNat < s.wpos.toNat + n.toNat) : exec (.bpPut n) s = .next (complete .capacity s) := by
  simp [exec, execBpPut, hn, h, raise]

theorem exec_bpPut_of_not_countOk {n : Byte} (s : State) (hn : countOk n = false) :
    exec (.bpPut n) s = .next (complete .illegal s) := by
  simp [exec, execBpPut, hn, raise]

/-- A BP_PUT that succeeds has a legal N and room for its bits. -/
theorem exec_bpPut_success {s t : State} {n : Byte} (h : exec (.bpPut n) s = .next t) (hc : t.status.errcode = .none) :
    countOk n = true ∧ s.wpos.toNat + n.toNat ≤ 8 * s.wcap.toNat ∧ t = afterPut n s := by
  rcases execBpPut_next h with ⟨_, rfl⟩ | ⟨_, _, rfl⟩ | ⟨hn, hroom, rfl⟩
  · cases hc
  · cases hc
  · exact ⟨hn, hroom, rfl⟩

/-- Settles O33: ILLEGAL is checked before CAPACITY. -/
theorem bpPutErrors : Obligations.BpPutErrors := fun s _ =>
  ⟨fun h => exec_bpPut_of_not_countOk s (countOk_eq_false_iff.2 h),
    fun hlo hhi => exec_bpPut_of_no_room (countOk_iff.2 ⟨hlo, hhi⟩)⟩

theorem afterPut_wpos_toNat {s : State} {n : Byte} (hroom : s.wpos.toNat + n.toNat ≤ 8 * s.wcap.toNat) :
    (afterPut n s).wpos.toNat = s.wpos.toNat + n.toNat := by
  have h := appendBits_wpos_toNat (s := s) (bs := argBits n.toNat s.arg) (by rwa [argBits_length])
  rwa [argBits_length] at h

theorem afterPut_sameOutside {s : State} {n : Byte} (hroom : s.wpos.toNat + n.toNat ≤ 8 * s.wcap.toNat) :
    SameOutside s.dmem (afterPut n s).dmem (s.wbase.toNat + s.wpos.toNat / 8)
      ((s.wpos.toNat + n.toNat) / 8 - s.wpos.toNat / 8) := by
  have h := appendBits_sameOutside (s := s) (bs := argBits n.toNat s.arg) (by rwa [argBits_length])
  rwa [argBits_length] at h

theorem afterPut_streamHolds {s : State} {n : Byte} {bits : List Bool}
    (hroom : s.wpos.toNat + n.toNat ≤ 8 * s.wcap.toNat) (hfit : s.wbase.toNat + s.wcap.toNat ≤ s.params.dmemSize)
    (h : StreamHolds s bits) : StreamHolds (afterPut n s) (bits ++ argBits n.toNat s.arg) :=
  appendBits_streamHolds (by rwa [argBits_length]) hfit h

theorem afterPut_frame (n : Byte) (s : State) :
    afterPut n s = complete .none { s with
      dmem := (afterPut n s).dmem, wpos := (afterPut n s).wpos, pbuf := (afterPut n s).pbuf,
      bitcnt := (afterPut n s).wpos } := by
  unfold afterPut
  rw [appendBits_frame]
  rfl

@[simp] theorem afterPut_params (n : Byte) (s : State) : (afterPut n s).params = s.params := by simp [afterPut]
@[simp] theorem afterPut_wbase (n : Byte) (s : State) : (afterPut n s).wbase = s.wbase := by simp [afterPut]
@[simp] theorem afterPut_wcap (n : Byte) (s : State) : (afterPut n s).wcap = s.wcap := by simp [afterPut]

/-- Settles O32: BP_PUT is a run of AppendBit over the bits of ARG. -/
theorem bpPutAppendsTheBits : Obligations.BpPutAppendsTheBits := by
  intro s n hlo hhi hroom
  exact ⟨afterPut n s, exec_bpPut_of_room (countOk_iff.2 ⟨hlo, hhi⟩) hroom, afterPut_frame n s,
    afterPut_wpos_toNat hroom, afterPut_sameOutside hroom, fun _ => afterPut_streamHolds hroom⟩

/-! ### BP_FLUSH (R103) -/

theorem exec_bpFlush (s : State) : exec .bpFlush s = .next (complete .none (flushWriter s)) := rfl

/-- Settles O34: the one byte the flush can write, and the registers it sets. -/
theorem bpFlushWritesThePaddedByte : Obligations.BpFlushWritesThePaddedByte := by
  intro s
  refine ⟨_, exec_bpFlush s, rfl, fun hlen => ⟨flushWriter_outLen_toNat hlen, (flushWriter_outLen_of_fits hlen).2⟩,
    fun hfull x => ?_, fun hpart hcap hfit => ?_, flushWriter_sameOutside_byte s, flushWriter_sameOutside_range s⟩
  · rw [complete_dmem, read_flushWriter, if_neg (fun hx => hx.1.1 hfull)]
  · rw [complete_dmem, read_flushWriter, if_pos ⟨⟨hpart, hcap⟩, rfl, hfit⟩, BitVec.toNat_ofNat]

/-! ### BP_RINIT (R104) -/

theorem exec_bpRinit_of_fits {s : State} (hs : srcOK s = true) (hb : ceil8 s.bitcnt.toNat ≤ s.srcLen.toNat) :
    exec .bpRinit s = .next (complete .none (openReader s.srcAddr s.bitcnt s)) := by
  simp [exec, execBpRinit, hs, Nat.not_lt.2 hb, finish]

theorem exec_bpRinit_of_not_srcOK {s : State} (hs : srcOK s = false) :
    exec .bpRinit s = .next (complete .address s) := by
  simp [exec, execBpRinit, hs, raise]

theorem exec_bpRinit_of_short {s : State} (hs : srcOK s = true) (hb : s.srcLen.toNat < ceil8 s.bitcnt.toNat) :
    exec .bpRinit s = .next (complete .format s) := by
  simp [exec, execBpRinit, hs, hb, raise]

/-- A BP_RINIT that succeeds has its bits inside SRC, and SRC inside DMEM. -/
theorem exec_bpRinit_success {s t : State} (h : exec .bpRinit s = .next t) (hc : t.status.errcode = .none) :
    srcOK s = true ∧ ceil8 s.bitcnt.toNat ≤ s.srcLen.toNat ∧
      t = complete .none (openReader s.srcAddr s.bitcnt s) := by
  rcases execBpRinit_next h with ⟨_, rfl⟩ | ⟨_, _, rfl⟩ | h
  · cases hc
  · cases hc
  · exact h

/-- Settles O36: the three outcomes of the two checks, ADDRESS before FORMAT. -/
theorem bpRinitOpensAStream : Obligations.BpRinitOpensAStream :=
  ⟨by decide, fun _ =>
    ⟨fun hs hb => exec_bpRinit_of_fits (decide_eq_true hs) hb,
      fun hs => exec_bpRinit_of_not_srcOK (decide_eq_false (Nat.not_le_of_lt hs)),
      fun hs hb => exec_bpRinit_of_short (decide_eq_true hs) hb⟩⟩

/-! ### BP_GET (R105) -/

theorem exec_bpGet_of_short {s : State} {n : Byte} (hn : countOk n = true)
    (h : s.rlim.toNat < s.rdpos.toNat + n.toNat) : exec (.bpGet n) s = .next (complete .format s) := by
  simp [exec, execBpGet, hn, h, raise]

theorem exec_bpGet_of_not_countOk {n : Byte} (s : State) (hn : countOk n = false) :
    exec (.bpGet n) s = .next (complete .illegal s) := by
  simp [exec, execBpGet, hn, raise]

/-- The bits that BP_GET N reads from where the reader stands. -/
def bitsRead (n : Byte) (s : State) : List Bool :=
  readBits s.params.dmemSize s.dmem s.rbase.toNat s.rdpos.toNat s.draws n.toNat

@[simp] theorem bitsRead_length (n : Byte) (s : State) : (bitsRead n s).length = n.toNat := readBits_length _ _ _ _ _ _

/-- A BP_GET within the bits that remain answers their value and moves RDPOS on. -/
theorem exec_bpGet_of_enough {s : State} {n : Byte} (hn : countOk n = true)
    (h : s.rdpos.toNat + n.toNat ≤ s.rlim.toNat) :
    ∃ k, (s.rbase.toNat + ceil8 (s.rdpos.toNat + n.toNat) ≤ s.params.dmemSize → k = s.draws) ∧
      exec (.bpGet n) s = .next (complete .none { s with
        result := BitVec.ofNat 32 (bitsValue (bitsRead n s))
        rdpos := BitVec.ofNat 64 (s.rdpos.toNat + n.toNat)
        draws := k }) := by
  simp only [exec, execBpGet, hn, Nat.not_lt.2 h, finish, Bool.not_true, Bool.false_eq_true, if_false]
  exact ⟨_, fun hk => if_pos hk, rfl⟩

/-- A position within the reader's limit does not wrap. -/
theorem rdpos_add_toNat {s : State} {n : Byte} (h : s.rdpos.toNat + n.toNat ≤ s.rlim.toNat) :
    (BitVec.ofNat 64 (s.rdpos.toNat + n.toNat)).toNat = s.rdpos.toNat + n.toNat := by
  rw [BitVec.toNat_ofNat, Nat.mod_eq_of_lt (h.trans_lt s.rlim.isLt)]

/-- Settles O38: ILLEGAL is checked before FORMAT. -/
theorem bpGetErrors : Obligations.BpGetErrors := fun s _ =>
  ⟨fun h => exec_bpGet_of_not_countOk s (countOk_eq_false_iff.2 h),
    fun hlo hhi => exec_bpGet_of_short (countOk_iff.2 ⟨hlo, hhi⟩)⟩

/-- RESULT of at most 32 bits has their value bit by bit. -/
theorem result_getLsbD {bs : List Bool} (h : bs.length ≤ 32) (j : Nat) :
    (BitVec.ofNat 32 (bitsValue bs) : Word).getLsbD j = (bitsValue bs).testBit j := by
  have hlt : bitsValue bs < 2 ^ 32 := (bitsValue_lt bs).trans_le (Nat.pow_le_pow_right (by decide) h)
  rw [BitVec.getLsbD, BitVec.toNat_ofNat, Nat.mod_eq_of_lt hlt]

/-- Settles O37: RESULT is the value of the bits read, and each of them is the stream's where its byte exists. -/
theorem bpGetReadsTheBits : Obligations.BpGetReadsTheBits := by
  intro s n hlo hhi hlim
  obtain ⟨k, hk, hexec⟩ := exec_bpGet_of_enough (countOk_iff.2 ⟨hlo, hhi⟩) hlim
  have hlen : (bitsRead n s).length ≤ 32 := by rwa [bitsRead_length]
  refine ⟨_, hexec, rfl, hk, rdpos_add_toNat hlim, fun j hj hexists => ?_, fun j hj => ?_⟩
  · have hin : j < (bitsRead n s).length := by rwa [bitsRead_length]
    have hbit : (bitsRead n s)[j] = streamBit s.dmem s.rbase.toNat (s.rdpos.toNat + j) :=
      (readBits_getElem hin).trans (if_pos hexists)
    rw [complete_result, result_getLsbD hlen, bitsValue_testBit_getElem (bitsRead_length n s) hin, hbit, streamBit]
  · rw [complete_result, result_getLsbD hlen, bitsValue_testBit]
    exact List.getD_eq_default _ _ (by simpa using hj)

end Sys2Proof.Machine
end

section
/-! The laws of the BitPacker (spec/40_bitpacker.md R108 to R110): a sequence of PUTs and a flush write Pack of the bits put, a sequence
of GETs returns the bits of a packed stream, and the two are inverse. -/

namespace Sys2Proof.Machine

open Sys2Proof

/-! ### A sequence of PUTs -/

/-- `t` comes from `s`, where a stream was opened, by appending `bits`: the stream still lies where it was opened, holds those bits
within its capacity, and only the bytes they fill have changed. -/
structure Appended (s : State) (bits : List Bool) (t : State) : Prop where
  params : t.params = s.params
  wbase : t.wbase = s.wbase
  wcap : t.wcap = s.wcap
  room : t.wpos.toNat ≤ 8 * t.wcap.toNat
  holds : StreamHolds t bits
  outside : SameOutside s.dmem t.dmem s.wbase.toNat (bits.length / 8)

/-- BP_PUT N appends the low N bits of ARG, whatever ARG the host has written. -/
theorem Appended.put {s t : State} {bits : List Bool} (h : Appended s bits t)
    (hfit : s.wbase.toNat + s.wcap.toNat ≤ s.params.dmemSize) {n : Byte} {v : Word}
    (hroom : t.wpos.toNat + n.toNat ≤ 8 * t.wcap.toNat) :
    Appended s (bits ++ argBits n.toNat v) (afterPut n { t with arg := v }) := by
  have hpos := afterPut_wpos_toNat (s := { t with arg := v }) hroom
  have hout := afterPut_sameOutside (s := { t with arg := v }) hroom
  have hfit' : t.wbase.toNat + t.wcap.toNat ≤ t.params.dmemSize := by rwa [h.wbase, h.wcap, h.params]
  refine ⟨(afterPut_params _ _).trans h.params, (afterPut_wbase _ _).trans h.wbase, (afterPut_wcap _ _).trans h.wcap, ?_,
    afterPut_streamHolds (s := { t with arg := v }) hroom hfit' h.holds, ?_⟩
  · rw [hpos, afterPut_wcap]
    exact hroom
  · intro x hx
    have hlen := h.holds.1
    rw [List.length_append, argBits_length] at hx
    rw [hout x (by dsimp only; rw [h.wbase]; omega)]
    exact h.outside x (by omega)

/-- A sequence of PUTs that succeeds begins with a PUT that succeeds. -/
theorem runPuts_cons_some {p : Byte × Word} {ps : List (Byte × Word)} {s u : State} (h : runPuts (p :: ps) s = some u) :
    countOk p.1 = true ∧ s.wpos.toNat + p.1.toNat ≤ 8 * s.wcap.toNat ∧
      runPuts ps (afterPut p.1 { s with arg := p.2 }) = some u := by
  rw [runPuts] at h
  split at h
  · rename_i t ht
    split at h
    · rename_i hc
      obtain ⟨hn, hroom, rfl⟩ := exec_bpPut_success ht hc
      exact ⟨hn, hroom, h⟩
    · cases h
  · cases h
  · cases h

/-- The PUTs of a sequence that succeeds append their bits in order, and have legal counts. -/
theorem Appended.puts {ps : List (Byte × Word)} {s t u : State} {bits : List Bool} (h : Appended s bits t)
    (hfit : s.wbase.toNat + s.wcap.toNat ≤ s.params.dmemSize) (hrun : runPuts ps t = some u) :
    Appended s (bits ++ putBits ps) u ∧ ∀ p ∈ ps, countOk p.1 = true := by
  induction ps generalizing bits t with
  | nil =>
    cases hrun
    exact ⟨by simpa [putBits] using h, List.forall_mem_nil _⟩
  | cons p ps ih =>
    obtain ⟨hn, hroom, hrest⟩ := runPuts_cons_some hrun
    obtain ⟨happ, hns⟩ := ih (h.put hfit hroom) hrest
    rw [List.append_assoc] at happ
    exact ⟨happ, List.forall_mem_cons.2 ⟨hn, hns⟩⟩

/-- What BP_WINIT and a sequence of successful PUTs leave: the bits put stand at DST, which lies in DMEM. -/
theorem winit_puts {s s0 s1 : State} {ps : List (Byte × Word)} (hw : exec .bpWinit s = .next s0)
    (hc : s0.status.errcode = .none) (hp : runPuts ps s0 = some s1) :
    s.dstAddr.toNat + s.dstCap.toNat ≤ s.params.dmemSize ∧
      Appended (openWriter s.dstAddr s.dstCap s) (putBits ps) s1 ∧ ∀ p ∈ ps, countOk p.1 = true := by
  rcases execBpWinit_next hw with ⟨_, rfl⟩ | ⟨hd, rfl⟩
  · cases hc
  · have hfit : s.dstAddr.toNat + s.dstCap.toNat ≤ s.params.dmemSize := of_decide_eq_true hd
    have hopen : Appended (openWriter s.dstAddr s.dstCap s) []
        (complete .none { openWriter s.dstAddr s.dstCap s with bitcnt := 0 }) :=
      ⟨rfl, rfl, rfl, Nat.zero_le _, openWriter_streamHolds s.dstAddr s.dstCap s, fun _ _ => rfl⟩
    exact ⟨hfit, hopen.puts hfit hp⟩

section Flush

variable {s t : State} {bits : List Bool} (h : Appended s bits t)

include h

theorem Appended.ceil8_le_wcap : ceil8 bits.length ≤ s.wcap.toNat := by
  rw [← h.holds.1, ← h.wcap]
  exact ceil8_wpos_le_wcap h.room

theorem Appended.flush_outLen : (flushWriter t).outLen.toNat = ceil8 bits.length := by
  have hlt : ceil8 t.wpos.toNat < 2 ^ 32 := (ceil8_wpos_le_wcap h.room).trans_lt t.wcap.isLt
  rw [flushWriter_outLen_toNat hlt, h.holds.1]

/-- The flush completes Pack of the bits appended (R107). -/
theorem Appended.flush_read (hfit : s.wbase.toNat + s.wcap.toNat ≤ s.params.dmemSize) {i : Nat}
    (hi : i < ceil8 bits.length) : Memory.read (flushWriter t).dmem (s.wbase.toNat + i) = packByte bits i := by
  rw [← h.wbase]
  exact read_flushWriter_of_streamHolds h.room (by rwa [h.wbase, h.wcap, h.params]) h.holds hi

/-- The appended bits and the flush change no byte outside those of Pack. -/
theorem Appended.flush_outside :
    SameOutside s.dmem (flushWriter t).dmem s.wbase.toNat (ceil8 bits.length) := by
  intro x hx
  have hpos := h.holds.1
  unfold ceil8 at hx
  rw [read_flushWriter, h.wbase, if_neg (by omega)]
  exact h.outside x (by omega)

end Flush

/-- Settles O35: the PUTs append their bits to the stream BP_WINIT opened, and the flush completes Pack of them. -/
theorem writerLaw : Obligations.WriterLaw := by
  intro s s0 s1 ps hw hc hp
  obtain ⟨hfit, happ, _⟩ := winit_puts hw hc hp
  exact ⟨_, exec_bpFlush s1, rfl, fun i hi => happ.flush_read hfit hi, happ.holds.1, happ.flush_outLen, happ.flush_outside⟩

/-! ### A sequence of GETs -/

/-- The bits that the reader has still to return are `bits`, all of them in DMEM. -/
structure Unread (s : State) (bits : List Bool) : Prop where
  fits : s.rbase.toNat + ceil8 s.rlim.toNat ≤ s.params.dmemSize
  limit : s.rlim.toNat = s.rdpos.toNat + bits.length
  stream : streamBits s.dmem s.rbase.toNat s.rdpos.toNat bits.length = bits

/-- A GET of no more bits than are unread returns the first of them and leaves the others. -/
theorem Unread.get {s : State} {bits : List Bool} (h : Unread s bits) {n : Byte} (hn : countOk n = true)
    (hle : n.toNat ≤ bits.length) :
    ∃ t, exec (.bpGet n) s = .next t ∧ t.status.errcode = .none ∧
      t.result = BitVec.ofNat 32 (bitsValue (bits.take n.toNat)) ∧ t.rdpos.toNat = s.rdpos.toNat + n.toNat ∧
      Unread t (bits.drop n.toNat) := by
  have hlim : s.rdpos.toNat + n.toNat ≤ s.rlim.toNat := by rw [h.limit]; omega
  have hpos := rdpos_add_toNat hlim
  have hfit : s.rbase.toNat + ceil8 (s.rdpos.toNat + n.toNat) ≤ s.params.dmemSize := by
    have hfits := h.fits
    unfold ceil8 at hfits ⊢
    omega
  have hcut : bits = streamBits s.dmem s.rbase.toNat s.rdpos.toNat n.toNat ++
      streamBits s.dmem s.rbase.toNat (s.rdpos.toNat + n.toNat) (bits.length - n.toNat) := by
    rw [← streamBits_add, Nat.add_sub_cancel' hle, h.stream]
  have htake : bitsRead n s = bits.take n.toNat := by
    rw [bitsRead, readBits_eq_streamBits _ _ hfit, hcut, List.take_left' (streamBits_length _ _ _ _)]
  have hdrop : streamBits s.dmem s.rbase.toNat (s.rdpos.toNat + n.toNat) (bits.drop n.toNat).length = bits.drop n.toNat := by
    conv_rhs => rw [hcut, List.drop_left' (streamBits_length _ _ _ _)]
    rw [List.length_drop]
  obtain ⟨k, _, hexec⟩ := exec_bpGet_of_enough hn hlim
  refine ⟨_, hexec, rfl, ?_, hpos, h.fits, ?_, ?_⟩
  · rw [complete_result, htake]
  · rw [complete_rlim, complete_rdpos, hpos, h.limit, List.length_drop]
    omega
  · rw [complete_dmem, complete_rbase, complete_rdpos, hpos]
    exact hdrop

/-- GETs of no more bits than are unread return the values of consecutive groups of them. -/
theorem Unread.runGets_some {ns : List Byte} {s : State} {bits : List Bool} (h : Unread s bits)
    (hns : ∀ n ∈ ns, countOk n = true) (hle : (ns.map BitVec.toNat).sum ≤ bits.length) :
    ∃ t, runGets ns s = some (chunkValues ns bits, t) ∧ t.rdpos.toNat = s.rdpos.toNat + (ns.map BitVec.toNat).sum := by
  induction ns generalizing s bits with
  | nil => exact ⟨s, rfl, rfl⟩
  | cons n ns ih =>
    obtain ⟨hn, hns⟩ := List.forall_mem_cons.1 hns
    rw [List.map_cons, List.sum_cons] at hle ⊢
    obtain ⟨t, hexec, hc, hres, hpos, hunread⟩ := h.get hn (by omega)
    obtain ⟨u, hrest, hpos'⟩ := ih hunread hns (by rw [List.length_drop]; omega)
    refine ⟨u, ?_, by rw [hpos', hpos]; omega⟩
    simp [runGets, hexec, hc, hrest, hres, chunkValues]

/-- GETs of more bits than are unread do not all succeed. -/
theorem Unread.runGets_none {ns : List Byte} {s : State} {bits : List Bool} (h : Unread s bits)
    (hns : ∀ n ∈ ns, countOk n = true) (hlt : bits.length < (ns.map BitVec.toNat).sum) : runGets ns s = none := by
  induction ns generalizing s bits with
  | nil => exact absurd hlt (Nat.not_lt_zero _)
  | cons n ns ih =>
    obtain ⟨hn, hns⟩ := List.forall_mem_cons.1 hns
    rw [List.map_cons, List.sum_cons] at hlt
    by_cases hle : n.toNat ≤ bits.length
    · obtain ⟨t, hexec, hc, _, _, hunread⟩ := h.get hn hle
      have hrest := ih hunread hns (by rw [List.length_drop]; omega)
      simp [runGets, hexec, hc, hrest]
    · have hshort := exec_bpGet_of_short (s := s) hn (by rw [h.limit]; omega)
      simp [runGets, hshort]

/-- A BP_RINIT over Pack(bits) leaves all of `bits` unread. -/
theorem rinit_unread {s t : State} {bits : List Bool} (h : exec .bpRinit s = .next t) (hc : t.status.errcode = .none)
    (hcnt : s.bitcnt.toNat = bits.length)
    (hpack : Memory.readBytes s.dmem s.srcAddr.toNat (ceil8 bits.length) = pack bits) :
    Unread t bits ∧ t.rdpos = 0 := by
  obtain ⟨hs, hb, rfl⟩ := exec_bpRinit_success h hc
  have hstream := streamBits_of_pack (readBytes_eq_pack_iff.1 hpack)
  exact ⟨⟨bitcnt_fits_dmem hs hb, hcnt.trans (Nat.zero_add _).symm, hstream⟩, rfl⟩

/-- Settles O39: BP_RINIT leaves all the bits unread, and each GET takes its own from their front. -/
theorem readerLaw : Obligations.ReaderLaw := by
  intro s s0 bits ns hr hc hcnt hpack hns
  obtain ⟨hunread, hzero⟩ := rinit_unread hr hc hcnt hpack
  refine ⟨fun hle => ?_, hunread.runGets_none hns⟩
  obtain ⟨t, hrun, hpos⟩ := hunread.runGets_some hns hle
  exact ⟨t, hrun, by simpa [hzero] using hpos⟩

/-! ### PUTs and GETs of the same widths -/

@[simp] theorem putBits_cons (p : Byte × Word) (ps : List (Byte × Word)) :
    putBits (p :: ps) = argBits p.1.toNat p.2 ++ putBits ps := rfl

theorem putBits_length (ps : List (Byte × Word)) :
    (putBits ps).length = ((ps.map (fun p => p.1)).map BitVec.toNat).sum := by
  induction ps with
  | nil => rfl
  | cons p ps ih => simp [ih]

/-- The groups of the bits put, cut by the widths of the PUTs, have the values put. -/
theorem chunkValues_putBits (ps : List (Byte × Word)) :
    chunkValues (ps.map (fun p => p.1)) (putBits ps) =
      ps.map (fun p => BitVec.ofNat 32 (p.2.toNat % 2 ^ p.1.toNat)) := by
  induction ps with
  | nil => rfl
  | cons p ps ih =>
    have hlen := argBits_length p.1.toNat p.2
    rw [List.map_cons, List.map_cons, putBits_cons, chunkValues, List.take_left' hlen, List.drop_left' hlen,
      bitsValue_argBits, ih]

/-- The flushed stream that lies at `base`, taken as the input: SRC is its bytes (R110). -/
def reread (base : Word) (t : State) : State :=
  { complete .none (flushWriter t) with srcAddr := base, srcLen := (flushWriter t).outLen }

section Reread

variable {s t : State} {bits : List Bool} (h : Appended s bits t)
  (hfit : s.wbase.toNat + s.wcap.toNat ≤ s.params.dmemSize)

include h

theorem Appended.reread_bitcnt : (reread s.wbase t).bitcnt.toNat = bits.length := h.holds.1

theorem Appended.reread_srcLen : (reread s.wbase t).srcLen.toNat = ceil8 bits.length := h.flush_outLen

include hfit

theorem Appended.reread_srcOK : srcOK (reread s.wbase t) = true := by
  have hparams : (reread s.wbase t).params = s.params := h.params
  refine decide_eq_true ?_
  rw [h.reread_srcLen, hparams]
  exact (Nat.add_le_add_left h.ceil8_le_wcap _).trans hfit

theorem Appended.reread_pack :
    Memory.readBytes (reread s.wbase t).dmem s.wbase.toNat (ceil8 bits.length) = pack bits :=
  readBytes_eq_pack_iff.2 fun _ => h.flush_read hfit

/-- BP_RINIT over the flushed stream succeeds. -/
theorem Appended.reread_rinit :
    exec .bpRinit (reread s.wbase t) =
      .next (complete .none (openReader s.wbase (reread s.wbase t).bitcnt (reread s.wbase t))) :=
  exec_bpRinit_of_fits (h.reread_srcOK hfit) (by rw [h.reread_bitcnt, h.reread_srcLen])

end Reread

/-- Settles O40: what the flush leaves is Pack of the bits put, so the reader's law gives them back. -/
theorem putGetRoundTrip : Obligations.PutGetRoundTrip := by
  intro s s0 s1 t ps hw hc hp hf
  obtain ⟨hfit, happ, hns⟩ := winit_puts hw hc hp
  obtain rfl := of_next hf
  obtain ⟨u, hrun, _⟩ := (readerLaw _ _ (putBits ps) _ (happ.reread_rinit hfit) rfl happ.reread_bitcnt (happ.reread_pack hfit)
    (List.forall_mem_map.2 hns)).1 (putBits_length ps).ge
  exact ⟨_, u, happ.reread_rinit hfit, rfl, by rw [hrun, chunkValues_putBits]⟩

end Sys2Proof.Machine
end

section
/-! The tables of the tree builder (spec/10_state.md R40): the symbols that occur, in order, and the table that a list of pairs
describes. -/

namespace Sys2Proof.Machine

open Sys2Proof

/-! ### The symbols that occur (spec/41_huffman_tree_builder.md R122) -/

theorem symbols_eq_filter (freq : Vector Word 256) : symbols freq = allBytes.filter (fun b => entry freq b ≠ 0) :=
  List.filter_congr fun _ _ => Bool.eq_iff_iff.2 (by simp)

/-- `allBytes` lists the bytes in ascending order. -/
theorem allBytes_ascending : allBytes.Pairwise (fun b c => b.toNat < c.toNat) := by decide +kernel

theorem symbols_ascending (freq : Vector Word 256) : (symbols freq).Pairwise (fun b c => b.toNat < c.toNat) :=
  allBytes_ascending.filter _

/-- NSYM fits its register. -/
theorem symbolCount_toWord (freq : Vector Word 256) : (BitVec.ofNat 32 (symbolCount freq)).toNat = symbolCount freq := by
  have := symbolCount_le freq
  rw [BitVec.toNat_ofNat, Nat.mod_eq_of_lt (by omega)]

/-! ### The table of a list of pairs -/

section Pairs

variable {α : Type} {ps : List (Byte × α)}

/-- Where each symbol is listed once, its entry is the value listed with it. -/
theorem entry_tableOf_of_mem (hd : (ps.map Prod.fst).Nodup) (other : α) {p : Byte × α} (hp : p ∈ ps) :
    entry (tableOf other ps) p.1 = p.2 := by
  obtain ⟨b, x⟩ := p
  have hl : ps.lookup b = some x := by
    obtain ⟨qs, rs, rfl⟩ := List.append_of_mem hp
    refine List.lookup_eq_some_iff.2 ⟨qs, rs, rfl, fun q hq => bne_iff_ne.2 fun he => ?_⟩
    rw [List.map_append, List.map_cons, List.nodup_middle, List.nodup_cons] at hd
    exact hd.1 (List.mem_append_left _ (List.mem_map.2 ⟨q, hq, he.symm⟩))
  rw [tableOf, entry_tabulate, hl, Option.getD_some]

/-- A symbol that is not listed has the other value. -/
theorem entry_tableOf_of_not_mem (other : α) {b : Byte} (hb : b ∉ ps.map Prod.fst) : entry (tableOf other ps) b = other := by
  have hl : ps.lookup b = none :=
    List.lookup_eq_none_iff.2 fun p hp => bne_iff_ne.2 fun he => hb (he ▸ List.mem_map_of_mem hp)
  rw [tableOf, entry_tabulate, hl, Option.getD_none]

end Pairs

/-- Symbols that rise are listed once each. -/
theorem nodup_fst_of_ascending {α : Type} {ps : List (Byte × α)} (h : ps.Pairwise (fun p q => p.1.toNat < q.1.toNat)) :
    (ps.map Prod.fst).Nodup :=
  List.pairwise_map.2 (h.imp fun hlt he => hlt.ne (congrArg BitVec.toNat he))

/-- The (symbol, frequency) pairs of a table, as its metadata image lists them (R125). -/
def freqPairs (freq : Vector Word 256) : List (Byte × Word) := (symbols freq).map (fun b => (b, entry freq b))

@[simp] theorem freqPairs_length (freq : Vector Word 256) : (freqPairs freq).length = symbolCount freq := List.length_map _

theorem freqPairs_fst (freq : Vector Word 256) : (freqPairs freq).map Prod.fst = symbols freq := by
  simp [freqPairs, Function.comp_def]

theorem freqPairs_ascending (freq : Vector Word 256) :
    (freqPairs freq).Pairwise (fun p q => p.1.toNat < q.1.toNat) := List.pairwise_map.2 (symbols_ascending freq)

theorem freqPairs_ne_zero {freq : Vector Word 256} {p : Byte × Word} (hp : p ∈ freqPairs freq) : p.2 ≠ 0 := by
  obtain ⟨b, hb, rfl⟩ := List.mem_map.1 hp
  exact mem_symbols.1 hb

/-- A table is the table of its pairs. -/
theorem tableOf_freqPairs (freq : Vector Word 256) : tableOf 0 (freqPairs freq) = freq := by
  refine table_ext fun b => ?_
  by_cases hb : b ∈ symbols freq
  · exact entry_tableOf_of_mem (nodup_fst_of_ascending (freqPairs_ascending freq)) 0 (List.mem_map_of_mem hb)
  · rw [entry_tableOf_of_not_mem 0 (freqPairs_fst freq ▸ hb)]
    exact (not_not.1 (mt mem_symbols.2 hb)).symm

end Sys2Proof.Machine
end

section
/-! The metadata image (spec/20_memory.md R64): HT_LOADMETA takes exactly an image (spec/41_huffman_tree_builder.md R124),
HT_STOREMETA writes one (R125), and the two undo each other (R127). -/

namespace Sys2Proof.Machine

open Sys2Proof

/-! ### Ranges read in parts -/

theorem readBytes_append (m : Memory) (a j k : Nat) :
    Memory.readBytes m a (j + k) = Memory.readBytes m a j ++ Memory.readBytes m (a + j) k := by
  induction j generalizing a with
  | zero => simp [Memory.readBytes]
  | succ j ih => rw [Nat.add_right_comm, Memory.readBytes, Memory.readBytes, ih, List.cons_append, Nat.add_assoc,
      Nat.add_comm 1 j]

/-- The bytes read are those of a value exactly where the value read is that one. -/
theorem readBytes_eq_leBytes_iff {m : Memory} {a n v : Nat} (hv : v < 256 ^ n) :
    Memory.readBytes m a n = leBytes n v ↔ memRead m a n = v := by
  constructor
  · intro h
    rw [memRead, h, leValue_leBytes n v hv]
  · rintro rfl
    have h := leBytes_leValue (Memory.readBytes m a n)
    rw [readBytes_length] at h
    exact h.symm

/-! ### The pairs of an image (R64, R124) -/

/-- The bytes of the pairs of an image. -/
def pairBytes (ps : List (Byte × Word)) : List Byte := ps.flatMap (fun p => p.1 :: leBytes 4 p.2.toNat)

theorem pairBytes_cons (p : Byte × Word) (ps : List (Byte × Word)) :
    pairBytes (p :: ps) = p.1 :: (leBytes 4 p.2.toNat ++ pairBytes ps) := by simp [pairBytes]

@[simp] theorem pairBytes_length (ps : List (Byte × Word)) : (pairBytes ps).length = 5 * ps.length := by
  induction ps with
  | nil => rfl
  | cons p ps ih => simp only [pairBytes_cons, List.length_cons, List.length_append, leBytes_length, ih]; omega

theorem imageOf_eq (ps : List (Byte × Word)) : imageOf ps = leBytes 4 ps.length ++ pairBytes ps := rfl

@[simp] theorem imageOf_length (ps : List (Byte × Word)) : (imageOf ps).length = 4 + 5 * ps.length := by simp [imageOf_eq]

/-- One pair in memory: its symbol, its frequency, and the pairs after it. -/
theorem readBytes_eq_pairBytes_cons {m : Memory} {a : Nat} {p : Byte × Word} {ps : List (Byte × Word)} :
    Memory.readBytes m a (5 * (p :: ps).length) = pairBytes (p :: ps) ↔
      Memory.read m a = p.1 ∧ memRead m (a + 1) 4 = p.2.toNat ∧
        Memory.readBytes m (a + 5) (5 * ps.length) = pairBytes ps := by
  have hlen : 5 * (p :: ps).length = 4 + 5 * ps.length + 1 := by rw [List.length_cons]; omega
  have hsplit : ∀ bs cs : List Byte, bs.length = 4 →
      (bs ++ cs = leBytes 4 p.2.toNat ++ pairBytes ps ↔ bs = leBytes 4 p.2.toNat ∧ cs = pairBytes ps) := fun bs cs hb =>
    ⟨fun h => List.append_inj h (by simp [hb]), fun ⟨h, h'⟩ => h ▸ h' ▸ rfl⟩
  rw [hlen, Memory.readBytes, readBytes_append, pairBytes_cons, List.cons.injEq, hsplit _ _ (readBytes_length _ _ _),
    readBytes_eq_leBytes_iff p.2.isLt]

/-- One round of HT_LOADMETA's loop (R124): the pair in memory passes both checks, and the loop goes on above its symbol. -/
theorem readPairs_cons_iff {m : Memory} {n a low : Nat} {p : Byte × Word} {ps : List (Byte × Word)} :
    readPairs m (n + 1) a low = some (p :: ps) ↔
      Memory.read m a = p.1 ∧ memRead m (a + 1) 4 = p.2.toNat ∧ low ≤ p.1.toNat ∧ p.2 ≠ 0 ∧
        readPairs m n (a + 5) (p.1.toNat + 1) = some ps := by
  obtain ⟨b, w⟩ := p
  have hfreq : BitVec.ofNat 32 (memRead m (a + 1) 4) = w ↔ memRead m (a + 1) 4 = w.toNat := by
    rw [← BitVec.toNat_inj, BitVec.toNat_ofNat, Nat.mod_eq_of_lt (show _ < 2 ^ 32 from memRead_lt m (a + 1) 4)]
  have hzero : w ≠ 0 ↔ w.toNat ≠ 0 := by simp [← BitVec.toNat_inj]
  rw [readPairs]
  dsimp only
  split
  · rename_i hlow
    refine iff_of_false nofun ?_
    rintro ⟨rfl, _, hle, _⟩
    omega
  · rename_i hlow
    split
    · rename_i hw
      refine iff_of_false nofun ?_
      rintro ⟨_, he, _, hne, _⟩
      exact hzero.1 hne (he ▸ hw)
    · rename_i hw
      simp only [Option.map_eq_some_iff, List.cons.injEq, Prod.mk.injEq, hfreq]
      constructor
      · rintro ⟨_, hps, ⟨rfl, he⟩, rfl⟩
        exact ⟨rfl, he, Nat.le_of_not_lt hlow, hzero.2 (he ▸ hw), hps⟩
      · rintro ⟨rfl, he, _, _, hps⟩
        exact ⟨ps, hps, ⟨rfl, he⟩, rfl⟩

/-- HT_LOADMETA's loop gives the pairs whose bytes stand in memory, where they rise from `low` without a zero frequency. -/
theorem readPairs_eq_some_iff {m : Memory} {a low : Nat} {ps : List (Byte × Word)} :
    readPairs m ps.length a low = some ps ↔
      ps.Pairwise (fun p q => p.1.toNat < q.1.toNat) ∧ (∀ p ∈ ps, low ≤ p.1.toNat ∧ p.2 ≠ 0) ∧
        Memory.readBytes m a (5 * ps.length) = pairBytes ps := by
  induction ps generalizing a low with
  | nil => exact iff_of_true rfl ⟨.nil, nofun, rfl⟩
  | cons p ps ih =>
    rw [List.length_cons, readPairs_cons_iff, ih, ← List.length_cons, readBytes_eq_pairBytes_cons, List.pairwise_cons,
      List.forall_mem_cons]
    constructor
    · rintro ⟨hb, hw, hlow, hne, hrise, hall, hrest⟩
      exact ⟨⟨fun q hq => (hall q hq).1, hrise⟩, ⟨⟨hlow, hne⟩, fun q hq =>
        ⟨hlow.trans (Nat.le_of_succ_le (hall q hq).1), (hall q hq).2⟩⟩, hb, hw, hrest⟩
    · rintro ⟨⟨hfirst, hrise⟩, ⟨⟨hlow, hne⟩, hall⟩, hb, hw, hrest⟩
      exact ⟨hb, hw, hlow, hne, hrise, fun q hq => ⟨hfirst q hq, (hall q hq).2⟩, hrest⟩

/-! ### An image at SRC -/

/-- Symbols that rise are at most 256. -/
theorem length_le_of_ascending {ps : List (Byte × Word)} (h : ps.Pairwise (fun p q => p.1.toNat < q.1.toNat)) :
    ps.length ≤ 256 := by
  have hle := ((nodup_fst_of_ascending h).subperm fun b _ => mem_allBytes b).length_le
  rwa [List.length_map, allBytes_length] at hle

/-- SRC begins with the image of `ps` exactly where HT_LOADMETA's checks pass and its loop gives `ps` (R64, R124). -/
theorem imageAtSrc_iff {s : State} {ps : List (Byte × Word)} :
    ImageAtSrc s ps ↔ ¬MetaCut s ∧ memRead s.dmem s.srcAddr.toNat 4 = ps.length ∧
      readPairs s.dmem ps.length (s.srcAddr.toNat + 4) 0 = some ps := by
  have hsplit (hlen : ps.length ≤ 256) : Memory.readBytes s.dmem s.srcAddr.toNat (imageOf ps).length = imageOf ps ↔
      memRead s.dmem s.srcAddr.toNat 4 = ps.length ∧
        Memory.readBytes s.dmem (s.srcAddr.toNat + 4) (5 * ps.length) = pairBytes ps := by
    rw [imageOf_length, readBytes_append, imageOf_eq, ← readBytes_eq_leBytes_iff (by omega)]
    exact ⟨fun h => List.append_inj h (by simp), fun ⟨h, h'⟩ => h ▸ h' ▸ rfl⟩
  rw [readPairs_eq_some_iff]
  unfold ImageAtSrc
  constructor
  · rintro ⟨hrise, hne, hfits, himage⟩
    have hlen := length_le_of_ascending hrise
    obtain ⟨hn, hpairs⟩ := (hsplit hlen).1 himage
    rw [imageOf_length] at hfits
    exact ⟨by unfold MetaCut; omega, hn, hrise, fun p hp => ⟨Nat.zero_le _, hne p hp⟩, hpairs⟩
  · rintro ⟨hcut, hn, hrise, hall, hpairs⟩
    have hlen := length_le_of_ascending hrise
    exact ⟨hrise, fun p hp => (hall p hp).2, by rw [imageOf_length]; unfold MetaCut at hcut; omega,
      (hsplit hlen).2 ⟨hn, hpairs⟩⟩

/-! ### HT_LOADMETA (R124) -/

theorem exec_htLoadmeta_of_image {s : State} {ps : List (Byte × Word)} (hs : srcOK s = true) (h : ImageAtSrc s ps) :
    exec .htLoadmeta s = .next (complete .none (setFreq (tableOf 0 ps) (BitVec.ofNat 32 ps.length) s)) := by
  obtain ⟨hcut, hn, hps⟩ := imageAtSrc_iff.1 h
  simp only [MetaCut, not_or, hn] at hcut
  obtain ⟨h4, h256, hfits⟩ := hcut
  simp [exec, execHtLoadmeta, hs, hn, h4, h256, hfits, hps, finish]

theorem execHtLoadmeta_completes (s : State) : ∃ t, execHtLoadmeta s = .next t := by
  simp only [execHtLoadmeta, raise, finish]
  repeat' split
  all_goals exact ⟨_, rfl⟩

theorem exec_htLoadmeta_of_no_image {s : State} (hs : srcOK s = true) (h : ∀ ps, ¬ImageAtSrc s ps) :
    exec .htLoadmeta s = .next (complete .format s) := by
  obtain ⟨t, ht⟩ := execHtLoadmeta_completes s
  rcases execHtLoadmeta_next ht with ⟨hs', _⟩ | ⟨_, _, rfl⟩ | ⟨_, _, _, rfl⟩ | ⟨_, hcut, ps, hps, _⟩
  · exact absurd hs (by simp [hs'])
  · exact ht
  · exact ht
  · have hn := (readPairs_spec hps).1
    exact absurd (imageAtSrc_iff.2 ⟨hcut, hn.symm, hn ▸ hps⟩) (h ps)

/-- Settles O46: an image at SRC is what the loop gives, and a loop that gives something has found an image. -/
theorem htLoadmetaLoadsTheImage : Obligations.HtLoadmetaLoadsTheImage := by
  refine fun s => ⟨fun ps hs himage => ?_, fun hs h => exec_htLoadmeta_of_no_image (decide_eq_true hs) h, fun hs => ?_⟩
  · have hrise := himage.1
    have hlen := length_le_of_ascending hrise
    refine ⟨_, exec_htLoadmeta_of_image (decide_eq_true hs) himage, rfl, ?_, fun p hp => ?_, fun b hb => ?_⟩
    · simp only [complete_nsym, setFreq_nsym, BitVec.toNat_ofNat]
      omega
    · exact entry_tableOf_of_mem (nodup_fst_of_ascending hrise) 0 hp
    · exact entry_tableOf_of_not_mem 0 (by simpa using fun c hc => hb (b, c) hc rfl)
  · have hs' : srcOK s = false := decide_eq_false (Nat.not_le_of_lt hs)
    simp [exec, execHtLoadmeta, hs', raise]

/-! ### HT_STOREMETA (R125) -/

/-- With NSYM right, the image that HT_STOREMETA writes is that of the table's pairs. -/
theorem metaImage_eq_imageOf {s : State} (h : NsymOk s) : metaImage s.nsym s.freq = imageOf (freqPairs s.freq) := by
  rw [metaImage, metaPairs, imageOf_eq, freqPairs_length, pairBytes, freqPairs, List.flatMap_map, show s.nsym.toNat = _ from h]

/-- The state in which HT_STOREMETA leaves the machine when it succeeds. -/
def afterStore (s : State) : State :=
  complete .none (putOutput s.dstAddr.toNat (imageOf (freqPairs s.freq)) (BitVec.ofNat 32 (4 + 5 * s.nsym.toNat)) s)

theorem exec_htStoremeta_of_room {s : State} (hn : NsymOk s) (hd : dstOK s = true)
    (hc : 4 + 5 * s.nsym.toNat ≤ s.dstCap.toNat) : exec .htStoremeta s = .next (afterStore s) := by
  have himage := (metaImage_take hn hc).trans (metaImage_eq_imageOf hn)
  simp [exec, execHtStoremeta, hd, Nat.not_lt_of_le hc, himage, finish, afterStore]

section Stored

variable {s : State} (hn : NsymOk s)

include hn

theorem imageOf_freqPairs_length : (imageOf (freqPairs s.freq)).length = 4 + 5 * s.nsym.toNat := by
  rw [imageOf_length, freqPairs_length, hn]

theorem afterStore_outLen : (afterStore s).outLen.toNat = 4 + 5 * s.nsym.toNat := by
  have h256 := symbolCount_le s.freq
  have hcount : s.nsym.toNat = symbolCount s.freq := hn
  simp only [afterStore, complete_outLen, putOutput_outLen, BitVec.toNat_ofNat]
  omega

theorem afterStore_readBytes : Memory.readBytes (afterStore s).dmem s.dstAddr.toNat (4 + 5 * s.nsym.toNat) =
    imageOf (freqPairs s.freq) := by
  rw [← imageOf_freqPairs_length hn]
  exact readBytes_writeBytes _ _ _

theorem afterStore_sameOutside : SameOutside s.dmem (afterStore s).dmem s.dstAddr.toNat (4 + 5 * s.nsym.toNat) := by
  rw [← imageOf_freqPairs_length hn]
  exact fun x hx => read_writeBytes_outside _ _ hx

end Stored

/-- Settles O47: the image of the table's pairs is written whole, as NSYM counts them. -/
theorem htStoremetaStoresTheImage : Obligations.HtStoremetaStoresTheImage := by
  refine fun s => ⟨fun hn hd hc => ?_, fun hd => ?_, fun hd hc => ?_⟩
  · exact ⟨_, exec_htStoremeta_of_room hn (decide_eq_true hd) hc, rfl, afterStore_outLen hn,
      symbols_eq_filter s.freq ▸ afterStore_readBytes hn, afterStore_sameOutside hn⟩
  · have hd' : dstOK s = false := decide_eq_false (Nat.not_le_of_lt hd)
    simp [exec, execHtStoremeta, hd', raise]
  · have hd' : dstOK s = true := decide_eq_true hd
    simp [exec, execHtStoremeta, hd', hc, raise]

/-! ### The round trip (R127) -/

theorem execHtStoremeta_success {s t : State} (hn : NsymOk s) (h : exec .htStoremeta s = .next t)
    (hc : t.status.errcode = .none) :
    s.dstAddr.toNat + s.dstCap.toNat ≤ s.params.dmemSize ∧ 4 + 5 * s.nsym.toNat ≤ s.dstCap.toNat ∧ t = afterStore s := by
  rcases execHtStoremeta_next h with ⟨_, rfl⟩ | ⟨_, _, rfl⟩ | ⟨hd, hroom, _⟩
  · cases hc
  · cases hc
  · exact ⟨of_decide_eq_true hd, hroom, of_next (exec_htStoremeta_of_room hn hd hroom ▸ h)⟩

/-- The stored image taken as the input. -/
def stored (s : State) : State := { afterStore s with srcAddr := s.dstAddr, srcLen := (afterStore s).outLen }

theorem stored_image {s : State} (hn : NsymOk s) : ImageAtSrc (stored s) (freqPairs s.freq) := by
  refine ⟨freqPairs_ascending _, fun _ => freqPairs_ne_zero, ?_, ?_⟩
  · exact ((imageOf_freqPairs_length hn).trans (afterStore_outLen hn).symm).le
  · rw [imageOf_freqPairs_length hn]
    exact afterStore_readBytes hn

/-- Settles O48: the stored bytes are the image of the table's pairs, whose table is FREQ again; HT_BUILD depends on FREQ
alone. -/
theorem metadataRoundTrip : Obligations.MetadataRoundTrip := by
  intro s t hn h hc
  obtain ⟨hd, hroom, rfl⟩ := execHtStoremeta_success hn h hc
  have hs : srcOK (stored s) = true := by
    refine decide_eq_true ?_
    show s.dstAddr.toNat + (afterStore s).outLen.toNat ≤ s.params.dmemSize
    rw [afterStore_outLen hn]
    omega
  have hload := exec_htLoadmeta_of_image hs (stored_image hn)
  rw [tableOf_freqPairs, freqPairs_length, ← show s.nsym.toNat = _ from hn, BitVec.ofNat_toNat, BitVec.setWidth_eq] at hload
  exact ⟨_, _, _, hload, rfl, rfl, rfl, rfl, rfl, rfl, rfl, rfl⟩

end Sys2Proof.Machine
end

section
/-! HT_COUNT and HT_BUILD (spec/41_huffman_tree_builder.md R120, R121): their whole effect and their errors. -/

namespace Sys2Proof.Machine

open Sys2Proof

/-! ### HT_COUNT (R120) -/

theorem readBytes_eq_map (m : Memory) (a n : Nat) :
    Memory.readBytes m a n = (List.range n).map (fun i => Memory.read m (a + i)) :=
  List.ext_getElem (by simp) fun i h _ => by simp [readBytes_getElem m a n i h]

theorem count_srcBytes (s : State) (b : Byte) : (srcBytes s).count b =
    ((List.range s.srcLen.toNat).filter (fun i => Memory.read s.dmem (s.srcAddr.toNat + i) = b)).length := by
  rw [srcBytes, readBytes_eq_map, List.count, List.countP_map, List.countP_eq_length_filter]
  exact congrArg List.length (List.filter_congr fun _ _ => Bool.eq_iff_iff.2 (by simp))

/-- No count overflows, as SRC_LEN fits a word. -/
theorem entry_countBytes_srcBytes (s : State) (b : Byte) :
    (entry (countBytes (srcBytes s)) b).toNat = (srcBytes s).count b := by
  have hlen : (srcBytes s).length = s.srcLen.toNat := readBytes_length _ _ _
  have hcount : (srcBytes s).count b < 2 ^ 32 := (List.count_le_length.trans hlen.le).trans_lt s.srcLen.isLt
  rw [countBytes, entry_tabulate, BitVec.toNat_ofNat, Nat.mod_eq_of_lt hcount]

theorem emptyInput_iff (s : State) : emptyInput s = true ↔ s.srcLen = 0 ∧ s.emptyErr = true := by simp [emptyInput]

theorem exec_htCount_of_srcOK {s : State} (hs : srcOK s = true) (he : emptyInput s = false) :
    exec .htCount s = .next (complete .none (setFreq (countBytes (srcBytes s))
      (BitVec.ofNat 32 (symbolCount (countBytes (srcBytes s)))) s)) := by
  simp [exec, execHtCount, hs, he, finish]

/-- Settles O41: the three outcomes of HT_COUNT's two checks. -/
theorem htCountCountsSrc : Obligations.HtCountCountsSrc := by
  refine fun s => ⟨fun hs he => ?_, fun hs => ?_, fun hs hl he => ?_⟩
  · have he' : emptyInput s = false := Bool.eq_false_iff.2 (mt (emptyInput_iff s).1 he)
    refine ⟨_, exec_htCount_of_srcOK (decide_eq_true hs) he', rfl, fun b => ?_, ?_⟩
    · exact (entry_countBytes_srcBytes s b).trans (count_srcBytes s b)
    · exact (symbolCount_toWord _).trans (congrArg List.length (symbols_eq_filter _))
  · have hs' : srcOK s = false := decide_eq_false (Nat.not_le_of_lt hs)
    simp [exec, execHtCount, hs', raise]
  · have hs' : srcOK s = true := decide_eq_true hs
    have he' : emptyInput s = true := (emptyInput_iff s).2 ⟨hl, he⟩
    simp [exec, execHtCount, hs', he', raise]

/-! ### HT_BUILD (R121) -/

/-- The state in which HT_BUILD leaves the machine. -/
def afterBuild (s : State) : State :=
  complete .none { s with
    tree := buildNodes s.freq
    root := rootOf (buildNodes s.freq)
    code := codesOf (buildNodes s.freq) (rootOf (buildNodes s.freq))
    treeValid := true }

theorem exec_htBuild (s : State) : exec .htBuild s = .next (afterBuild s) := rfl

/-- Building leaves FREQ alone, so building again writes the same; STATUS is that of one completion, as a completion without
error keeps ANYERR. -/
theorem afterBuild_afterBuild (s : State) : afterBuild (afterBuild s) = afterBuild s := by
  simp [afterBuild, complete, ErrCode.isError]

/-- Settles O42. -/
theorem htBuildWritesTheTree : Obligations.HtBuildWritesTheTree := fun s =>
  ⟨afterBuild s, exec_htBuild s, rfl, congrArg Host.Outcome.next (afterBuild_afterBuild s)⟩

end Sys2Proof.Machine
end

section
/-! The merging loop of BuildTree (spec/41_huffman_tree_builder.md R122): what ExtractMin takes, one round of the loop, and the
induction over its rounds. -/

namespace Sys2Proof.Machine

open Sys2Proof

/-! ### ExtractMin -/

theorem before_iff {a b : QEntry} : a.before b = true ↔
    a.weight.toNat < b.weight.toNat ∨ (a.weight.toNat = b.weight.toNat ∧ a.index < b.index) := decide_eq_true_iff

/-- ExtractMin parts the queue in two. -/
theorem extractMin_perm (q : QEntry) (qs : List QEntry) :
    ((extractMin q qs).1 :: (extractMin q qs).2).Perm (q :: qs) := by
  induction qs generalizing q with
  | nil => exact .refl _
  | cons x xs ih =>
    rw [extractMin]
    split
    · exact (List.Perm.swap _ _ _).trans ((ih x).cons q)
    · exact ((List.Perm.swap _ _ _).trans ((ih q).cons x)).trans (.swap _ _ _)

/-- What ExtractMin takes has nothing before it in the queue. -/
theorem extractMin_least (q : QEntry) (qs : List QEntry) : ∀ x ∈ q :: qs, ¬x.before (extractMin q qs).1 := by
  induction qs generalizing q with
  | nil => simp [extractMin, before_iff]
  | cons y ys ih =>
    rw [extractMin]
    split
    · rename_i hyq
      have hy := ih y y List.mem_cons_self
      refine List.forall_mem_cons.2 ⟨?_, ih y⟩
      simp only [before_iff] at hyq hy ⊢
      omega
    · rename_i hyq
      have hq := ih q q List.mem_cons_self
      refine List.forall_mem_cons.2 ⟨hq, List.forall_mem_cons.2 ⟨?_, fun x hx => ih q x (List.mem_cons_of_mem _ hx)⟩⟩
      simp only [before_iff] at hyq hq ⊢
      omega

/-! ### One round -/

/-- `a` and `b` are the two least entries of the queue `a, b, rest`, in order. -/
structure TwoLeast (a b : QEntry) (rest : List QEntry) : Prop where
  first : ¬b.before a
  second : ∀ x ∈ rest, ¬x.before b

/-- The queue entry of the node that merges `a` and `b`. -/
def mergedEntry (a b : QEntry) (nodes : List Node) : QEntry := ⟨a.weight + b.weight, nodes.length⟩

/-- The arena with the node that merges `a` and `b`. -/
def mergedNodes (a b : QEntry) (nodes : List Node) : List Node :=
  nodes ++ [.internal (a.weight + b.weight) a.index b.index]

@[simp] theorem mergedNodes_length (a b : QEntry) (nodes : List Node) :
    (mergedNodes a b nodes).length = nodes.length + 1 := by simp [mergedNodes]

theorem TwoLeast.weight_le {a b : QEntry} {rest : List QEntry} (h : TwoLeast a b rest) :
    a.weight.toNat ≤ b.weight.toNat ∧ ∀ q ∈ rest, b.weight.toNat ≤ q.weight.toNat := by
  have hle {x y : QEntry} (hxy : ¬y.before x) : x.weight.toNat ≤ y.weight.toNat := by
    rw [before_iff] at hxy
    omega
  exact ⟨hle h.first, fun q hq => hle (h.second q hq)⟩

theorem mergeLoop_round (fuel : Nat) (q x : QEntry) (qs : List QEntry) (nodes : List Node) :
    ∃ a b rest, (a :: b :: rest).Perm (q :: x :: qs) ∧ TwoLeast a b rest ∧
      mergeLoop (fuel + 1) (q :: x :: qs) nodes = mergeLoop fuel (mergedEntry a b nodes :: rest) (mergedNodes a b nodes) := by
  have hperm := extractMin_perm q (x :: qs)
  have hleast := extractMin_least q (x :: qs)
  rw [mergeLoop]
  dsimp only
  split
  · rename_i hnil
    rw [hnil] at hperm
    simpa using hperm.length_eq
  · rename_i y ys hcons
    rw [hcons] at hperm
    have hrest := extractMin_perm y ys
    have hall := (hrest.cons (extractMin q (x :: qs)).1).trans hperm
    exact ⟨_, _, _, hall,
      ⟨hleast _ (hall.subset (by simp)), fun z hz => extractMin_least y ys z (hrest.subset (List.mem_cons_of_mem _ hz))⟩, rfl⟩

/-! ### All the rounds -/

/-- What holds at the start, of the queue in any order, and is kept by each round, holds at the end, with at most one entry
left. -/
theorem mergeLoop_induction {P : List QEntry → List Node → Prop}
    (hperm : ∀ {queue queue' nodes}, queue.Perm queue' → P queue nodes → P queue' nodes)
    (hround : ∀ {a b rest nodes}, TwoLeast a b rest → P (a :: b :: rest) nodes →
      P (mergedEntry a b nodes :: rest) (mergedNodes a b nodes))
    {fuel : Nat} {queue : List QEntry} {nodes : List Node} (hfuel : queue.length ≤ fuel + 1) (h : P queue nodes) :
    ∃ last, last.length ≤ 1 ∧ P last (mergeLoop fuel queue nodes) := by
  induction fuel generalizing queue nodes with
  | zero => exact ⟨queue, hfuel, h⟩
  | succ fuel ih =>
    match queue with
    | [] => exact ⟨[], Nat.zero_le _, h⟩
    | [q] => exact ⟨[q], Nat.le_refl _, h⟩
    | q :: x :: qs =>
      obtain ⟨a, b, rest, hsame, hab, heq⟩ := mergeLoop_round fuel q x qs nodes
      have hlen := hsame.length_eq
      simp only [List.length_cons] at hlen hfuel
      rw [heq]
      exact ih (by simp only [List.length_cons]; omega) (hround hab (hperm hsame.symm h))

end Sys2Proof.Machine
end

section
/-! The arena that BuildTree makes (spec/41_huffman_tree_builder.md R122, spec/10_state.md R41): its invariant, kept by each
round of the merging loop. -/

namespace Sys2Proof.Machine

open Sys2Proof

/-! ### Weights and parents -/

/-- The weight of node `i`. -/
def weightAt (nodes : List Node) (i : Nat) : Nat := ((nodes[i]?.map Node.weight).getD 0).toNat

/-- Node `i` comes before node `j` in the (weight, index) order. -/
def Precedes (nodes : List Node) (i j : Nat) : Prop :=
  weightAt nodes i < weightAt nodes j ∨ (weightAt nodes i = weightAt nodes j ∧ i < j)

/-- Node `i` is no child of a node before `k`. -/
def NoParentBefore (nodes : List Node) (k i : Nat) : Prop :=
  ∀ k' w l r, k' < k → nodes[k']? = some (.internal w l r) → i ≠ l ∧ i ≠ r

/-- Node `k` merges the two least nodes that had no parent when it was made. -/
structure MergedAt (nodes : List Node) (k : Nat) (w : DWord) (l r : Nat) : Prop where
  node : nodes[k]? = some (.internal w l r)
  left_lt : l < k
  right_lt : r < k
  weight : w.toNat = weightAt nodes l + weightAt nodes r
  ordered : Precedes nodes l r
  left_free : NoParentBefore nodes k l
  right_free : NoParentBefore nodes k r
  least : ∀ j, j < k → j ≠ l → j ≠ r → NoParentBefore nodes k j → Precedes nodes r j

section Grown

variable {nodes : List Node}

theorem weightAt_append {i : Nat} (x : Node) (h : i < nodes.length) : weightAt (nodes ++ [x]) i = weightAt nodes i := by
  rw [weightAt, List.getElem?_append_left h, weightAt]

theorem weightAt_append_self (nodes : List Node) (x : Node) : weightAt (nodes ++ [x]) nodes.length = x.weight.toNat := by
  simp [weightAt]

theorem precedes_append {i j : Nat} (x : Node) (hi : i < nodes.length) (hj : j < nodes.length) :
    Precedes (nodes ++ [x]) i j ↔ Precedes nodes i j := by
  rw [Precedes, weightAt_append x hi, weightAt_append x hj, Precedes]

theorem noParentBefore_append {k i : Nat} (x : Node) (h : k ≤ nodes.length) :
    NoParentBefore (nodes ++ [x]) k i ↔ NoParentBefore nodes k i := by
  unfold NoParentBefore
  refine forall_congr' fun k' => ?_
  by_cases hk : k' < k
  · rw [List.getElem?_append_left (hk.trans_le h)]
  · simp [hk]

/-- A new internal node gives a parent to its two children only. -/
theorem noParentBefore_append_internal {w : DWord} {l r i : Nat} :
    NoParentBefore (nodes ++ [.internal w l r]) (nodes.length + 1) i ↔
      NoParentBefore nodes nodes.length i ∧ i ≠ l ∧ i ≠ r := by
  rw [← noParentBefore_append (Node.internal w l r) (Nat.le_refl _)]
  constructor
  · intro h
    exact ⟨fun k' w l r hk => h k' w l r (by omega), h nodes.length w l r (Nat.lt_succ_self _) (by simp)⟩
  · rintro ⟨hold, hnew⟩ k' w' l' r' hk hnode
    rcases Nat.lt_succ_iff_lt_or_eq.1 hk with hk | rfl
    · exact hold k' w' l' r' hk hnode
    · obtain ⟨-, rfl, rfl⟩ : w = w' ∧ l = l' ∧ r = r' := by simpa using hnode
      exact hnew

theorem MergedAt.append {k l r : Nat} {w : DWord} (h : MergedAt nodes k w l r) (x : Node) (hk : k < nodes.length) :
    MergedAt (nodes ++ [x]) k w l r where
  node := (List.getElem?_append_left hk).trans h.node
  left_lt := h.left_lt
  right_lt := h.right_lt
  weight := by rw [weightAt_append x (h.left_lt.trans hk), weightAt_append x (h.right_lt.trans hk), h.weight]
  ordered := (precedes_append x (h.left_lt.trans hk) (h.right_lt.trans hk)).2 h.ordered
  left_free := (noParentBefore_append x hk.le).2 h.left_free
  right_free := (noParentBefore_append x hk.le).2 h.right_free
  least j hj hl hr hfree := (precedes_append x (h.right_lt.trans hk) (hj.trans hk)).2
    (h.least j hj hl hr ((noParentBefore_append x hk.le).1 hfree))

end Grown

/-! ### The invariant of the merging loop -/

/-- The arena and the queue between two rounds, from the leaves `ls` on. -/
structure Arena (ls : List Node) (queue : List QEntry) (nodes : List Node) : Prop where
  leaves : ls <+: nodes
  count : nodes.length + queue.length = 2 * ls.length
  nodup : (queue.map QEntry.index).Nodup
  /-- the queue holds the nodes without a parent -/
  roots : ∀ i, i ∈ queue.map QEntry.index ↔ i < nodes.length ∧ NoParentBefore nodes nodes.length i
  older : ∀ (k : Nat) (w : DWord) (l r : Nat), nodes[k]? = some (.internal w l r) → l < k ∧ r < k
  weights : ∀ q ∈ queue, weightAt nodes q.index = q.weight.toNat
  /-- the weights never wrap -/
  total : (queue.map (fun q => q.weight.toNat)).sum < 2 ^ 64
  merged : ∀ k, ls.length ≤ k → k < nodes.length → ∃ w l r, MergedAt nodes k w l r
  /-- the sum of any two entries of the queue is no less than an internal node -/
  bound : ∀ k, ls.length ≤ k → k < nodes.length → ∀ q ∈ queue, weightAt nodes k ≤ 2 * q.weight.toNat
  rising : ∀ j k, ls.length ≤ j → j ≤ k → k < nodes.length → weightAt nodes j ≤ weightAt nodes k

theorem Arena.perm {ls nodes : List Node} {queue queue' : List QEntry} (hp : queue.Perm queue')
    (h : Arena ls queue nodes) : Arena ls queue' nodes where
  leaves := h.leaves
  count := hp.length_eq ▸ h.count
  nodup := (hp.map _).nodup_iff.1 h.nodup
  roots i := (hp.map _).mem_iff.symm.trans (h.roots i)
  older := h.older
  weights q hq := h.weights q (hp.mem_iff.2 hq)
  total := (hp.map fun q => q.weight.toNat).sum_eq ▸ h.total
  merged := h.merged
  bound k hk hk' q hq := h.bound k hk hk' q (hp.mem_iff.2 hq)
  rising := h.rising

theorem Arena.index_lt {ls nodes : List Node} {queue : List QEntry} (h : Arena ls queue nodes) {q : QEntry}
    (hq : q ∈ queue) : q.index < nodes.length := ((h.roots q.index).1 (List.mem_map_of_mem hq)).1

theorem Arena.leaves_le {ls nodes : List Node} {queue : List QEntry} (h : Arena ls queue nodes) :
    ls.length ≤ nodes.length := h.leaves.length_le

section Round

variable {ls nodes rest} {a b : QEntry} (h : Arena ls (a :: b :: rest) nodes)

include h

theorem Arena.first_lt : a.index < nodes.length := h.index_lt (by simp)

theorem Arena.second_lt : b.index < nodes.length := h.index_lt (by simp)

/-- The sum of the two weights does not wrap. -/
theorem Arena.merged_weight : (a.weight + b.weight).toNat = a.weight.toNat + b.weight.toNat := by
  have htotal := h.total
  simp only [List.map_cons, List.sum_cons] at htotal
  rw [BitVec.toNat_add, Nat.mod_eq_of_lt (by omega)]

/-- No two entries of the queue are the same node. -/
theorem Arena.distinct : a.index ≠ b.index ∧ ∀ i ∈ rest.map QEntry.index, i ≠ a.index ∧ i ≠ b.index := by
  obtain ⟨ha, hbr⟩ := List.nodup_cons.1 h.nodup
  obtain ⟨hb, -⟩ := List.nodup_cons.1 hbr
  refine ⟨fun he => ha (he ▸ List.mem_cons_self), fun i hi => ⟨?_, ?_⟩⟩
  · rintro rfl
    exact ha (List.mem_cons_of_mem _ hi)
  · rintro rfl
    exact hb hi

/-- After the round the queue holds the nodes without a parent: the new node, and those that were not merged. -/
theorem Arena.merge_roots (i : Nat) : i ∈ (mergedEntry a b nodes :: rest).map QEntry.index ↔
    i < (mergedNodes a b nodes).length ∧ NoParentBefore (mergedNodes a b nodes) (mergedNodes a b nodes).length i := by
  obtain ⟨-, hrest⟩ := h.distinct
  have hroots := h.roots i
  simp only [List.map_cons, List.mem_cons] at hroots ⊢
  rw [mergedNodes_length, mergedNodes, noParentBefore_append_internal]
  constructor
  · rintro (rfl | hi)
    · have hnew : NoParentBefore nodes nodes.length nodes.length := fun k w l r hk hnode => by
        have := h.older k w l r hnode
        omega
      exact ⟨Nat.lt_succ_self _, hnew, h.first_lt.ne', h.second_lt.ne'⟩
    · obtain ⟨hlt, hfree⟩ := hroots.1 (.inr (.inr hi))
      exact ⟨by omega, hfree, hrest i hi⟩
  · rintro ⟨hlt, hfree, hia, hib⟩
    rcases Nat.lt_succ_iff_lt_or_eq.1 hlt with hlt | rfl
    · rcases hroots.2 ⟨hlt, hfree⟩ with rfl | rfl | hi
      · exact absurd rfl hia
      · exact absurd rfl hib
      · exact .inr hi
    · exact .inl rfl

theorem Arena.merge_nodup : ((mergedEntry a b nodes :: rest).map QEntry.index).Nodup := by
  have hold := (List.nodup_cons.1 (List.nodup_cons.1 h.nodup).2).2
  refine List.nodup_cons.2 ⟨fun hmem => ?_, hold⟩
  obtain ⟨q, hq, he⟩ := List.mem_map.1 hmem
  exact (h.index_lt (q := q) (by simp [hq])).ne he

theorem Arena.merge_older {k l r : Nat} {w : DWord} (hnode : (mergedNodes a b nodes)[k]? = some (.internal w l r)) :
    l < k ∧ r < k := by
  have hk := (List.getElem?_eq_some_iff.1 hnode).1
  rw [mergedNodes_length] at hk
  rcases Nat.lt_succ_iff_lt_or_eq.1 hk with hk | rfl
  · exact h.older k w l r ((List.getElem?_append_left hk).symm.trans hnode)
  · obtain ⟨-, rfl, rfl⟩ : a.weight + b.weight = w ∧ a.index = l ∧ b.index = r := by simpa [mergedNodes] using hnode
    exact ⟨h.first_lt, h.second_lt⟩

/-- The new node weighs what the two merged weigh, so no less than any internal node before it. -/
theorem Arena.weightAt_le_merged {k : Nat} (hk : ls.length ≤ k) (hk' : k < nodes.length) :
    weightAt nodes k ≤ a.weight.toNat + b.weight.toNat := by
  have ha := h.bound k hk hk' a (by simp)
  have hb := h.bound k hk hk' b (by simp)
  omega

variable (hab : TwoLeast a b rest)

include hab

/-- The new node merges the two least of the nodes without a parent. -/
theorem Arena.mergedAt : MergedAt (mergedNodes a b nodes) nodes.length (a.weight + b.weight) a.index b.index := by
  obtain ⟨hne, hrest⟩ := h.distinct
  have hprec : ∀ q ∈ a :: b :: rest, ∀ r ∈ a :: b :: rest, q.index ≠ r.index → ¬r.before q →
      Precedes (mergedNodes a b nodes) q.index r.index := fun q hq r hr hqr hbefore => by
    rw [mergedNodes, precedes_append _ (h.index_lt hq) (h.index_lt hr), Precedes, h.weights q hq, h.weights r hr]
    rw [before_iff] at hbefore
    omega
  have hfree : ∀ q ∈ a :: b :: rest, NoParentBefore (mergedNodes a b nodes) nodes.length q.index := fun q hq =>
    (noParentBefore_append _ (Nat.le_refl _)).2 ((h.roots q.index).1 (List.mem_map_of_mem hq)).2
  have ha : a ∈ a :: b :: rest := by simp
  have hb : b ∈ a :: b :: rest := by simp
  refine ⟨by simp [mergedNodes], h.first_lt, h.second_lt, ?_, hprec a ha b hb hne hab.first, hfree a ha, hfree b hb,
    fun j hj hja hjb hjfree => ?_⟩
  · rw [mergedNodes, weightAt_append _ h.first_lt, weightAt_append _ h.second_lt, h.weights a ha, h.weights b hb,
      h.merged_weight]
  · have hj : j ∈ (a :: b :: rest).map QEntry.index := (h.roots j).2 ⟨hj, (noParentBefore_append _ (Nat.le_refl _)).1 hjfree⟩
    simp only [List.map_cons, List.mem_cons, hja, hjb, false_or] at hj
    obtain ⟨q, hq, rfl⟩ := List.mem_map.1 hj
    exact hprec b hb q (by simp [hq]) (Ne.symm hjb) (hab.second q hq)

/-- A round keeps the invariant. -/
theorem Arena.merge : Arena ls (mergedEntry a b nodes :: rest) (mergedNodes a b nodes) := by
  have hentry : (mergedEntry a b nodes).weight.toNat = a.weight.toNat + b.weight.toNat := h.merged_weight
  have hnew : weightAt (mergedNodes a b nodes) nodes.length = a.weight.toNat + b.weight.toNat :=
    (weightAt_append_self nodes _).trans h.merged_weight
  have hold : ∀ i, i < nodes.length → weightAt (mergedNodes a b nodes) i = weightAt nodes i := fun i => weightAt_append _
  have hcases : ∀ k, k < (mergedNodes a b nodes).length → k < nodes.length ∨ k = nodes.length := fun k hk =>
    Nat.lt_succ_iff_lt_or_eq.1 (hk.trans_eq (mergedNodes_length a b nodes))
  refine
    { leaves := h.leaves.trans (List.prefix_append _ _)
      count := ?count
      nodup := h.merge_nodup
      roots := h.merge_roots
      older := fun k w l r => h.merge_older
      weights := List.forall_mem_cons.2 ⟨hnew.trans hentry.symm, fun q hq => ?weights⟩
      total := ?total
      merged := fun k hk hk' => ?merged
      bound := fun k hk hk' => ?bound
      rising := fun j k hj hjk hk => ?rising }
  case count =>
    have hcount := h.count
    simp only [mergedNodes_length, List.length_cons] at hcount ⊢
    omega
  case weights =>
    have hq' : q ∈ a :: b :: rest := by simp [hq]
    rw [hold _ (h.index_lt hq'), h.weights q hq']
  case total =>
    have htotal := h.total
    simp only [List.map_cons, List.sum_cons, hentry] at htotal ⊢
    omega
  case merged =>
    rcases hcases k hk' with hk' | rfl
    · obtain ⟨w, l, r, hm⟩ := h.merged k hk hk'
      exact ⟨w, l, r, hm.append _ hk'⟩
    · exact ⟨_, _, _, h.mergedAt hab⟩
  case bound =>
    rw [List.forall_mem_cons, hentry]
    rcases hcases k hk' with hk' | rfl
    · rw [hold k hk']
      exact ⟨by have := h.weightAt_le_merged hk hk'; omega, fun q hq => h.bound k hk hk' q (by simp [hq])⟩
    · obtain ⟨hle, hrest⟩ := hab.weight_le
      rw [hnew]
      exact ⟨by omega, fun q hq => by have := hrest q hq; omega⟩
  case rising =>
    rcases hcases k hk with hk | rfl
    · rw [hold j (hjk.trans_lt hk), hold k hk]
      exact h.rising j k hj hjk hk
    · rcases Nat.lt_or_eq_of_le hjk with hj' | rfl
      · rw [hold j hj', hnew]
        exact h.weightAt_le_merged hj hj'
      · exact Nat.le_refl _

end Round

end Sys2Proof.Machine
end

section
/-! The arena of BuildTree from its leaves to its root (spec/41_huffman_tree_builder.md R122), with the codes below each node of
the queue (R123), and its shape at the end. -/

namespace Sys2Proof.Machine

open Sys2Proof

/-! ### The start of the merging loop -/

theorem leaves_getElem? (freq : Vector Word 256) (k : Nat) :
    (leaves freq)[k]? = (symbols freq)[k]?.map (fun b => .leaf ((entry freq b).setWidth 64) b) := List.getElem?_map

@[simp] theorem leaves_length (freq : Vector Word 256) : (leaves freq).length = symbolCount freq := List.length_map _

theorem leaves_ne_internal {freq : Vector Word 256} {k l r : Nat} {w : DWord} :
    (leaves freq)[k]? ≠ some (.internal w l r) := by simp [leaves_getElem?]

@[simp] theorem startQueue_length (nodes : List Node) : (startQueue nodes).length = nodes.length := by simp [startQueue]

theorem startQueue_index (nodes : List Node) : (startQueue nodes).map QEntry.index = List.range nodes.length := by
  simp [startQueue, Function.comp_def, List.range_eq_range']

theorem mem_startQueue {nodes : List Node} {q : QEntry} :
    q ∈ startQueue nodes ↔ ∃ x, nodes[q.index]? = some x ∧ x.weight = q.weight := by
  obtain ⟨w, i⟩ := q
  simp [startQueue, List.mem_zipIdx_iff_getElem?]

theorem leaf_weight_lt {freq : Vector Word 256} {k : Nat} {x : Node} (h : (leaves freq)[k]? = some x) :
    x.weight.toNat < 2 ^ 32 := by
  rw [leaves_getElem?] at h
  obtain ⟨b, -, rfl⟩ := Option.map_eq_some_iff.1 h
  have hlt := (entry freq b).isLt
  rw [Node.weight, BitVec.toNat_setWidth_of_le (by decide)]
  exact hlt

/-- The weights of 256 leaves, each below 2^32, do not wrap (spec/00_scope.md R19). -/
theorem startQueue_total (freq : Vector Word 256) :
    ((startQueue (leaves freq)).map (fun q => q.weight.toNat)).sum < 2 ^ 64 := by
  have hle := List.sum_le_card_nsmul ((startQueue (leaves freq)).map (fun q => q.weight.toNat)) (2 ^ 32) fun x hx => by
    obtain ⟨q, hq, rfl⟩ := List.mem_map.1 hx
    obtain ⟨x, hx, hw⟩ := mem_startQueue.1 hq
    exact hw ▸ (leaf_weight_lt hx).le
  have hcount := symbolCount_le freq
  simp only [List.length_map, startQueue_length, leaves_length, smul_eq_mul] at hle
  omega

theorem arena_start (freq : Vector Word 256) : Arena (leaves freq) (startQueue (leaves freq)) (leaves freq) where
  leaves := List.prefix_refl _
  count := by rw [startQueue_length, Nat.two_mul]
  nodup := by rw [startQueue_index]; exact List.nodup_range
  roots i := by
    rw [startQueue_index, List.mem_range]
    exact ⟨fun hi => ⟨hi, fun _ _ _ _ _ h => absurd h leaves_ne_internal⟩, And.left⟩
  older _ _ _ _ h := absurd h leaves_ne_internal
  weights q hq := by
    obtain ⟨x, hx, hw⟩ := mem_startQueue.1 hq
    rw [weightAt, hx, ← hw]
    rfl
  total := startQueue_total freq
  merged k hk hk' := by omega
  bound k hk hk' := by omega
  rising j k hj hjk hk := by omega

/-! ### The codes below a node (R123) -/

/-- The codes with one more bit at their front. -/
def extendCodes (bit : Bool) (cs : List (Byte × List Bool)) : List (Byte × List Bool) := cs.map (fun p => (p.1, bit :: p.2))

/-- `cs` lists the symbols of the leaves below node `i`, each with the path that leads from the node to it. -/
inductive Below (nodes : List Node) : Nat → List (Byte × List Bool) → Prop
  | leaf {i : Nat} {w : DWord} {b : Byte} (h : nodes[i]? = some (.leaf w b)) : Below nodes i [(b, [])]
  | internal {i l r : Nat} {w : DWord} {cl cr : List (Byte × List Bool)} (h : nodes[i]? = some (.internal w l r))
      (hl : Below nodes l cl) (hr : Below nodes r cr) : Below nodes i (extendCodes false cl ++ extendCodes true cr)

theorem extendCodes_fst (bit : Bool) (cs : List (Byte × List Bool)) :
    (extendCodes bit cs).map Prod.fst = cs.map Prod.fst := by simp [extendCodes]

@[simp] theorem extendCodes_length (bit : Bool) (cs : List (Byte × List Bool)) : (extendCodes bit cs).length = cs.length :=
  List.length_map _

theorem Below.lt {nodes : List Node} {i : Nat} {cs : List (Byte × List Bool)} (h : Below nodes i cs) : i < nodes.length := by
  cases h with
  | leaf h => exact (List.getElem?_eq_some_iff.1 h).1
  | internal h _ _ => exact (List.getElem?_eq_some_iff.1 h).1

/-- A larger arena has the same codes below an old node. -/
theorem Below.append {nodes : List Node} {i : Nat} {cs : List (Byte × List Bool)} (h : Below nodes i cs) (x : Node) :
    Below (nodes ++ [x]) i cs := by
  have hold {j : Nat} {y : Node} (hj : nodes[j]? = some y) : (nodes ++ [x])[j]? = some y :=
    (List.getElem?_append_left (List.getElem?_eq_some_iff.1 hj).1).trans hj
  induction h with
  | leaf h => exact .leaf (hold h)
  | internal h _ _ ihl ihr => exact .internal (hold h) ihl ihr

/-! ### The forest of the queue -/

/-- The trees below the nodes of the queue have the symbols `bs` at their leaves, each once. -/
def Forest (bs : List Byte) (queue : List QEntry) (nodes : List Node) : Prop :=
  ∃ codes : Nat → List (Byte × List Bool), (∀ q ∈ queue, Below nodes q.index (codes q.index)) ∧
    (queue.flatMap (fun q => (codes q.index).map Prod.fst)).Perm bs

theorem Forest.perm {bs : List Byte} {nodes : List Node} {queue queue' : List QEntry} (hp : queue.Perm queue')
    (h : Forest bs queue nodes) : Forest bs queue' nodes := by
  obtain ⟨codes, hbelow, hsyms⟩ := h
  exact ⟨codes, fun q hq => hbelow q (hp.mem_iff.2 hq), (hp.flatMap_right _).symm.trans hsyms⟩

/-- A round makes one tree of two. -/
theorem Forest.merge {bs : List Byte} {nodes : List Node} {a b : QEntry} {rest : List QEntry}
    (h : Forest bs (a :: b :: rest) nodes) : Forest bs (mergedEntry a b nodes :: rest) (mergedNodes a b nodes) := by
  obtain ⟨codes, hbelow, hsyms⟩ := h
  obtain ⟨ha, hb, hrest⟩ : Below nodes a.index (codes a.index) ∧ Below nodes b.index (codes b.index) ∧
      ∀ q ∈ rest, Below nodes q.index (codes q.index) := by simpa using hbelow
  have hold : ∀ q ∈ rest, Function.update codes nodes.length (extendCodes false (codes a.index) ++
      extendCodes true (codes b.index)) q.index = codes q.index := fun q hq =>
    Function.update_of_ne (hrest q hq).lt.ne _ _
  refine ⟨Function.update codes nodes.length (extendCodes false (codes a.index) ++ extendCodes true (codes b.index)),
    List.forall_mem_cons.2 ⟨?_, fun q hq => ?_⟩, ?_⟩
  · rw [mergedEntry, Function.update_self]
    exact .internal (w := a.weight + b.weight) (by simp [mergedNodes]) (ha.append _) (hb.append _)
  · rw [hold q hq]
    exact (hrest q hq).append _
  · rw [List.flatMap_cons, List.flatMap_congr fun q hq => congrArg (List.map Prod.fst) (hold q hq)]
    simpa [mergedEntry, extendCodes_fst] using hsyms

/-- At the start each leaf is a tree of its own. -/
theorem forest_start (freq : Vector Word 256) : Forest (symbols freq) (startQueue (leaves freq)) (leaves freq) := by
  refine ⟨fun i => [((symbols freq).getD i 0, [])], fun q hq => ?_, ?_⟩
  · obtain ⟨x, hx, -⟩ := mem_startQueue.1 hq
    obtain ⟨b, hb, rfl⟩ := Option.map_eq_some_iff.1 (leaves_getElem? freq q.index ▸ hx)
    dsimp only
    have hsym : (symbols freq).getD q.index 0 = b := by rw [List.getD_eq_getElem?_getD, hb, Option.getD_some]
    rw [hsym]
    exact .leaf hx
  · have hsyms : (startQueue (leaves freq)).flatMap (fun q => [(symbols freq).getD q.index 0]) = symbols freq := by
      have hmap : (startQueue (leaves freq)).map (fun q => (symbols freq).getD q.index 0) =
          ((startQueue (leaves freq)).map QEntry.index).map (fun i => (symbols freq).getD i 0) := by rw [List.map_map]; rfl
      rw [← List.map_eq_flatMap, hmap, startQueue_index, leaves_length, symbolCount]
      exact List.ext_getElem (by simp) fun i h h' => by simp [List.getElem?_eq_getElem h']
    exact .of_eq hsyms

/-! ### The end of the merging loop -/

/-- BuildTree's arena meets the invariant, with at most one tree left. -/
theorem buildNodes_arena (freq : Vector Word 256) : ∃ queue, queue.length ≤ 1 ∧
    Arena (leaves freq) queue (buildNodes freq) ∧ Forest (symbols freq) queue (buildNodes freq) :=
  mergeLoop_induction (P := fun queue nodes => Arena (leaves freq) queue nodes ∧ Forest (symbols freq) queue nodes)
    (fun hp ⟨ha, hf⟩ => ⟨ha.perm hp, hf.perm hp⟩) (fun hab ⟨ha, hf⟩ => ⟨ha.merge hab, hf.merge⟩)
    (by rw [startQueue_length]; exact Nat.le_succ _) ⟨arena_start freq, forest_start freq⟩

/-- The one tree left has the last node as its root. -/
theorem Arena.queue_end {ls nodes : List Node} {queue : List QEntry} (h : Arena ls queue nodes) (hq : queue.length ≤ 1)
    (hne : nodes ≠ []) : ∃ q, queue = [q] ∧ q.index = nodes.length - 1 := by
  have hpos := List.length_pos_iff.2 hne
  have hroot : nodes.length - 1 ∈ queue.map QEntry.index :=
    (h.roots _).2 ⟨by omega, fun k w l r hk hnode => by have := h.older k w l r hnode; omega⟩
  obtain ⟨q, hmem, he⟩ := List.mem_map.1 hroot
  match queue, hq, hmem with
  | [p], _, hmem => exact ⟨p, rfl, List.mem_singleton.1 hmem ▸ he⟩

/-- The arena has 2n - 1 nodes. -/
theorem Arena.length_end {ls nodes : List Node} {queue : List QEntry} (h : Arena ls queue nodes) (hq : queue.length ≤ 1) :
    nodes.length = 2 * ls.length - 1 := by
  have hcount := h.count
  by_cases hne : nodes = []
  · have hle := h.leaves_le
    rw [hne, List.length_nil] at hle ⊢
    omega
  · obtain ⟨q, rfl, -⟩ := h.queue_end hq hne
    rw [List.length_singleton] at hcount
    omega

/-- Settles O43: the invariant of the merging loop, at its end. -/
theorem treeShape : Obligations.TreeShape := by
  intro freq
  obtain ⟨queue, hq, h, -⟩ := buildNodes_arena freq
  have hn : (allBytes.filter (fun b => entry freq b ≠ 0)).length = (leaves freq).length := by
    rw [← symbols_eq_filter, leaves_length, symbolCount]
  dsimp only
  rw [hn]
  refine ⟨h.length_end hq, fun k b hb => ?_, fun k hk hk' => ?_, h.rising⟩
  · rw [← symbols_eq_filter] at hb
    have hleaf := (leaves_getElem? freq k).trans (congrArg _ hb)
    obtain ⟨rest, hrest⟩ := h.leaves
    rw [← hrest, List.getElem?_append_left (List.getElem?_eq_some_iff.1 hleaf).1]
    exact hleaf
  · obtain ⟨w, l, r, hm⟩ := h.merged k hk hk'
    refine ⟨w, l, r, hm.node, hm.left_lt, hm.right_lt, hm.weight, hm.ordered, fun k' w' l' r' hlt hnode => ?_, hm.least⟩
    obtain ⟨hll, hlr⟩ := hm.left_free k' w' l' r' hlt hnode
    exact ⟨hll, hlr, hm.right_free k' w' l' r' hlt hnode⟩

end Sys2Proof.Machine
end

section
/-! The code table of HT_BUILD (spec/41_huffman_tree_builder.md R123, R126): the codes below a node, the table they make, and
TREE_STATUS (spec/10_state.md R37). -/

namespace Sys2Proof.Machine

open Sys2Proof

/-! ### The codes below a node -/

theorem mem_extendCodes {bit : Bool} {cs : List (Byte × List Bool)} {p : Byte × List Bool} :
    p ∈ extendCodes bit cs ↔ ∃ q ∈ cs, (q.1, bit :: q.2) = p := List.mem_map

theorem length_le_of_mem_extendCodes {bit : Bool} {cs : List (Byte × List Bool)} {n : Nat} (h : ∀ q ∈ cs, q.2.length < n)
    {p : Byte × List Bool} (hp : p ∈ extendCodes bit cs) : p.2.length ≤ n := by
  obtain ⟨q, hq, rfl⟩ := mem_extendCodes.1 hp
  exact h q hq

/-- Neither code begins the other. -/
def Incomparable (p q : Byte × List Bool) : Prop := ¬p.2 <+: q.2 ∧ ¬q.2 <+: p.2

/-- No code of the list begins another. -/
def PrefixFree (cs : List (Byte × List Bool)) : Prop := cs.Pairwise Incomparable

theorem prefixFree_extendCodes {bit : Bool} {cs : List (Byte × List Bool)} (h : PrefixFree cs) :
    PrefixFree (extendCodes bit cs) :=
  List.pairwise_map.2 (h.imp fun ⟨hpq, hqp⟩ => ⟨by simpa using hpq, by simpa using hqp⟩)

/-- The sum of 2^(m - length) over the codes. -/
def kraftSum (m : Nat) (cs : List (Byte × List Bool)) : Nat := (cs.map (fun p => 2 ^ (m - p.2.length))).sum

theorem kraftSum_append (m : Nat) (cs ds : List (Byte × List Bool)) :
    kraftSum m (cs ++ ds) = kraftSum m cs + kraftSum m ds := by simp [kraftSum]

theorem kraftSum_extendCodes (m : Nat) (bit : Bool) (cs : List (Byte × List Bool)) :
    kraftSum (m + 1) (extendCodes bit cs) = kraftSum m cs := by simp [kraftSum, extendCodes, Function.comp_def]

section BelowNode

variable {nodes : List Node} {i : Nat} {cs : List (Byte × List Bool)} (h : Below nodes i cs)

include h

theorem Below.length_pos : 0 < cs.length := by
  induction h with
  | leaf _ => exact Nat.one_pos
  | internal _ _ _ ihl _ => simp only [List.length_append, extendCodes_length]; omega

/-- A path passes over at least one leaf with each edge. -/
theorem Below.length_lt : ∀ p ∈ cs, p.2.length < cs.length := by
  induction h with
  | leaf _ => simp
  | internal _ hl hr ihl ihr =>
    have hl := hl.length_pos
    have hr := hr.length_pos
    intro p hp
    simp only [List.length_append, extendCodes_length]
    rcases List.mem_append.1 hp with hp | hp
    · have := length_le_of_mem_extendCodes ihl hp
      omega
    · have := length_le_of_mem_extendCodes ihr hp
      omega

theorem Below.prefixFree : PrefixFree cs := by
  induction h with
  | leaf _ => exact List.pairwise_singleton _ _
  | internal _ _ _ ihl ihr =>
    refine List.pairwise_append.2 ⟨prefixFree_extendCodes ihl, prefixFree_extendCodes ihr, fun p hp q hq => ?_⟩
    obtain ⟨p, -, rfl⟩ := mem_extendCodes.1 hp
    obtain ⟨q, -, rfl⟩ := mem_extendCodes.1 hq
    simp [Incomparable]

/-- Each half of a tree takes half of the sum. -/
theorem Below.kraftSum_eq {m : Nat} (hm : cs.length ≤ m + 1) : kraftSum m cs = 2 ^ m := by
  induction h generalizing m with
  | leaf _ => simp [kraftSum]
  | internal _ hl hr ihl ihr =>
    have hl := hl.length_pos
    have hr := hr.length_pos
    simp only [List.length_append, extendCodes_length] at hm
    obtain ⟨m, rfl⟩ : ∃ k, m = k + 1 := ⟨m - 1, by omega⟩
    rw [kraftSum_append, kraftSum_extendCodes, kraftSum_extendCodes, ihl (by omega), ihr (by omega), pow_succ, Nat.mul_two]

/-- Walk lists the codes below its node, each after the node's own path (R123). -/
theorem Below.walkCodes_eq {fuel : Nat} (hfuel : cs.length ≤ fuel) (p : List Bool) :
    walkCodes nodes fuel i p = cs.map (fun c => (c.1, p ++ c.2)) := by
  induction h generalizing fuel p with
  | leaf h =>
    obtain ⟨fuel, rfl⟩ : ∃ k, fuel = k + 1 := ⟨fuel - 1, (Nat.succ_pred_eq_of_pos hfuel).symm⟩
    simp [walkCodes, h]
  | internal h hl hr ihl ihr =>
    have hl := hl.length_pos
    have hr := hr.length_pos
    simp only [List.length_append, extendCodes_length] at hfuel
    obtain ⟨fuel, rfl⟩ : ∃ k, fuel = k + 1 := ⟨fuel - 1, by omega⟩
    simp [walkCodes, h, ihl (fuel := fuel) (by omega), ihr (fuel := fuel) (by omega), extendCodes, Function.comp_def]

end BelowNode

/-! ### The codes of BuildTree's arena -/

/-- `cs` lists a code for each of the symbols `bs`, with the properties of R126. -/
structure IsCode (bs : List Byte) (cs : List (Byte × List Bool)) : Prop where
  symbols : (cs.map Prod.fst).Perm bs
  coded : ∀ p ∈ cs, p.2 ≠ []
  prefixFree : PrefixFree cs
  short : ∀ p ∈ cs, p.2.length ≤ max 1 (bs.length - 1)
  kraft : 2 ≤ bs.length → ∀ m, bs.length ≤ m + 1 → kraftSum m cs = 2 ^ m

/-- Below an internal root stand its codes. -/
theorem Below.isCode {nodes : List Node} {i l r : Nat} {w : DWord} {cl cr : List (Byte × List Bool)} {bs : List Byte}
    (h : nodes[i]? = some (.internal w l r)) (hl : Below nodes l cl) (hr : Below nodes r cr)
    (hsyms : ((extendCodes false cl ++ extendCodes true cr).map Prod.fst).Perm bs) :
    IsCode bs (extendCodes false cl ++ extendCodes true cr) := by
  have hroot := Below.internal h hl hr
  have hlen := List.length_map Prod.fst ▸ hsyms.length_eq
  refine ⟨hsyms, fun p hp => ?_, hroot.prefixFree, fun p hp => ?_, fun _ m hm => hroot.kraftSum_eq (hlen ▸ hm)⟩
  · rcases List.mem_append.1 hp with hp | hp <;> obtain ⟨q, -, rfl⟩ := mem_extendCodes.1 hp <;> exact List.cons_ne_nil _ _
  · have := hroot.length_lt p hp
    omega

theorem codePairs_of_leaf {nodes : List Node} {r : Nat} {w : DWord} {b : Byte} (h : nodes[r]? = some (.leaf w b)) :
    codePairs nodes (some r) = [(b, [false])] := by simp [codePairs, h]

theorem codePairs_of_internal {nodes : List Node} {i l r : Nat} {w : DWord} (h : nodes[i]? = some (.internal w l r)) :
    codePairs nodes (some i) = walkCodes nodes nodes.length i [] := by simp [codePairs, h]

/-- Codes(BuildTree(F)) has the properties of R126 for the symbols of F; for one symbol it is the code "0" (R123). -/
theorem codePairs_isCode (freq : Vector Word 256) :
    IsCode (symbols freq) (codePairs (buildNodes freq) (rootOf (buildNodes freq))) := by
  obtain ⟨queue, hq, ha, codes, hbelow, hsyms⟩ := buildNodes_arena freq
  have hle : symbolCount freq ≤ (buildNodes freq).length := leaves_length freq ▸ ha.leaves_le
  by_cases hne : buildNodes freq = []
  · have hnil : symbols freq = [] := List.length_eq_zero_iff.1 (Nat.le_zero.1 (hle.trans_eq (hne ▸ rfl)))
    rw [hne, hnil]
    exact ⟨.refl _, nofun, .nil, nofun, fun h => absurd h (by decide)⟩
  · obtain ⟨q, rfl, hlast⟩ := ha.queue_end hq hne
    have hroot : rootOf (buildNodes freq) = some q.index := by rw [rootOf, if_neg hne, hlast]
    have hcodes := hbelow q List.mem_cons_self
    rw [List.flatMap_singleton] at hsyms
    rw [hroot]
    generalize codes q.index = cs at hcodes hsyms
    cases hcodes with
    | leaf hleaf =>
      rw [codePairs_of_leaf hleaf]
      have hone := hsyms.length_eq
      refine ⟨hsyms, by simp, List.pairwise_singleton _ _, by simp, fun htwo => ?_⟩
      simp only [List.map_cons, List.map_nil, List.length_singleton] at hone
      omega
    | internal hnode hl hr =>
      have hlen := List.length_map Prod.fst ▸ hsyms.length_eq
      rw [codePairs_of_internal hnode, (Below.internal hnode hl hr).walkCodes_eq (hlen.trans_le hle)]
      simpa using Below.isCode hnode hl hr hsyms

/-! ### The table of the codes -/

section Table

variable {bs : List Byte} {cs : List (Byte × List Bool)} (h : IsCode bs cs) (hbs : bs.Nodup)

include h hbs

theorem IsCode.nodup : (cs.map Prod.fst).Nodup := h.symbols.nodup_iff.2 hbs

theorem IsCode.entry_eq {p : Byte × List Bool} (hp : p ∈ cs) : entry (tableOf [] cs) p.1 = p.2 :=
  entry_tableOf_of_mem (h.nodup hbs) [] hp

/-- A symbol has a code in the table exactly when it is one of the symbols coded. -/
theorem IsCode.entry_ne_nil_iff (b : Byte) : entry (tableOf [] cs) b ≠ [] ↔ b ∈ bs := by
  rw [← h.symbols.mem_iff]
  refine ⟨fun hne => by_contra fun hb => hne (entry_tableOf_of_not_mem [] hb), fun hb => ?_⟩
  obtain ⟨p, hp, rfl⟩ := List.mem_map.1 hb
  exact h.entry_eq hbs hp ▸ h.coded p hp

theorem IsCode.entry_mem {b : Byte} (hne : entry (tableOf [] cs) b ≠ []) : (b, entry (tableOf [] cs) b) ∈ cs := by
  obtain ⟨p, hp, rfl⟩ := List.mem_map.1 (h.symbols.mem_iff.2 ((h.entry_ne_nil_iff hbs b).1 hne))
  rw [h.entry_eq hbs hp]
  exact hp

theorem IsCode.not_isPrefix {b c : Byte} (hbc : b ≠ c) (hb : entry (tableOf [] cs) b ≠ [])
    (hc : entry (tableOf [] cs) c ≠ []) : ¬entry (tableOf [] cs) b <+: entry (tableOf [] cs) c := by
  have hsymm : Std.Symm Incomparable := ⟨fun _ _ => And.symm⟩
  exact (h.prefixFree.forall (h.entry_mem hbs hb) (h.entry_mem hbs hc) fun he => hbc (congrArg Prod.fst he)).1

theorem IsCode.length_le (b : Byte) : (entry (tableOf [] cs) b).length ≤ max 1 (bs.length - 1) := by
  by_cases hne : entry (tableOf [] cs) b = []
  · simp [hne]
  · exact h.short _ (h.entry_mem hbs hne)

/-- The sum over the symbols that have a code is the sum over the codes. -/
theorem IsCode.sum_entries (m : Nat) :
    ((allBytes.filter (fun b => entry (tableOf [] cs) b ≠ [])).map (fun b => 2 ^ (m - (entry (tableOf [] cs) b).length))).sum =
      kraftSum m cs := by
  have hperm : (allBytes.filter (fun b => entry (tableOf [] cs) b ≠ [])).Perm (cs.map Prod.fst) := by
    refine (List.perm_ext_iff_of_nodup (allBytes_nodup.filter _) (h.nodup hbs)).2 fun b => ?_
    rw [h.symbols.mem_iff, ← h.entry_ne_nil_iff hbs b]
    simp [mem_allBytes]
  rw [(hperm.map _).sum_eq, List.map_map, kraftSum]
  exact congrArg List.sum (List.map_congr_left fun p hp => by rw [Function.comp_apply, h.entry_eq hbs hp])

end Table

/-! ### TREE_STATUS (R37) -/

/-- The codes of a table are its entries. -/
theorem mem_toList_iff_entry {α : Type} {t : Vector α 256} {x : α} : x ∈ t.toList ↔ ∃ b, entry t b = x := by
  rw [Vector.mem_toList_iff, Vector.mem_iff_getElem]
  constructor
  · rintro ⟨i, hi, rfl⟩
    exact ⟨BitVec.ofNat 8 i, by simp [entry, Nat.mod_eq_of_lt hi]⟩
  · rintro ⟨b, rfl⟩
    exact ⟨b.toNat, b.isLt, rfl⟩

/-- MAXLEN is the largest CODELEN. -/
theorem maxLen_eq_max (code : Vector (List Bool) 256) :
    (code.toList.map (fun c => (codeLen c).toNat)).max? = some (maxLen code) := by
  have hne : code.toList.map (fun c => (codeLen c).toNat) ≠ [] := by
    rw [← List.length_pos_iff]
    simp
  obtain ⟨x, xs, hcons⟩ := List.exists_cons_of_ne_nil hne
  rw [maxLen, ← List.foldl_map (g := max), hcons, List.max?_cons', List.foldl_cons, Nat.zero_max]

theorem codeLen_le_maxLen (code : Vector (List Bool) 256) (b : Byte) : (codeLen (entry code b)).toNat ≤ maxLen code :=
  (List.max?_eq_some_iff.1 (maxLen_eq_max code)).2 _ (List.mem_map_of_mem (mem_toList_iff_entry.2 ⟨b, rfl⟩))

theorem exists_codeLen_eq_maxLen (code : Vector (List Bool) 256) : ∃ b, (codeLen (entry code b)).toNat = maxLen code := by
  obtain ⟨c, hc, he⟩ := List.mem_map.1 (List.max?_eq_some_iff.1 (maxLen_eq_max code)).1
  obtain ⟨b, rfl⟩ := mem_toList_iff_entry.1 hc
  exact ⟨b, he⟩

/-- The fields of TREE_STATUS while the tree is valid. -/
theorem treeStatusWord_fields {s : State} (h : s.treeValid = true) :
    (treeStatusWord s).getLsbD 0 = true ∧ (treeStatusWord s).extractLsb' 1 7 = 0 ∧
      ((treeStatusWord s).extractLsb' 8 8).toNat = maxLen s.code ∧ (treeStatusWord s).extractLsb' 16 16 = 0 := by
  obtain ⟨b, hb⟩ := exists_codeLen_eq_maxLen s.code
  have hlt : maxLen s.code < 256 := hb ▸ (codeLen (entry s.code b)).isLt
  have hword : (treeStatusWord s).toNat = 1 + 256 * maxLen s.code := by
    rw [treeStatusWord, h, BitVec.toNat_ofNat, Bool.toNat_true]
    omega
  have hfield : ∀ start len, ((treeStatusWord s).extractLsb' start len).toNat =
      (1 + 256 * maxLen s.code) / 2 ^ start % 2 ^ len := fun start len => by
    rw [BitVec.extractLsb'_toNat, hword, Nat.shiftRight_eq_div_pow]
  refine ⟨?_, BitVec.eq_of_toNat_eq ?_, ?_, BitVec.eq_of_toNat_eq ?_⟩
  · rw [BitVec.getLsbD, hword, Nat.testBit_zero]
    exact decide_eq_true (by omega)
  · refine (hfield 1 7).trans ?_
    simp only [BitVec.ofNat_eq_ofNat, BitVec.toNat_ofNat]
    omega
  · rw [hfield]
    omega
  · refine (hfield 16 16).trans ?_
    simp only [BitVec.ofNat_eq_ofNat, BitVec.toNat_ofNat]
    omega

/-! ### After HT_BUILD -/

theorem afterBuild_code (s : State) :
    (afterBuild s).code = tableOf [] (codePairs (buildNodes s.freq) (rootOf (buildNodes s.freq))) := rfl

/-- CODELEN holds the length of each code, as none has more than 255 bits (R44). -/
theorem codeLen_afterBuild (s : State) (b : Byte) :
    (entry (afterBuild s).code b).length ≤ 255 ∧
      (codeLen (entry (afterBuild s).code b)).toNat = (entry (afterBuild s).code b).length := by
  have hle := (codePairs_isCode s.freq).length_le (symbols_nodup s.freq) b
  have hcount : (symbols s.freq).length ≤ 256 := symbolCount_le s.freq
  rw [← afterBuild_code] at hle
  have h255 : (entry (afterBuild s).code b).length ≤ 255 := by omega
  exact ⟨h255, by rw [codeLen, BitVec.toNat_ofNat, Nat.mod_eq_of_lt (by omega)]⟩

/-- Settles O44: the codes below the root have the properties of R126, and they are the entries of their table. -/
theorem codesFormAPrefixFreeTable : Obligations.CodesFormAPrefixFreeTable := by
  intro s t h
  obtain rfl : t = afterBuild s := of_next h
  have hcode := codePairs_isCode s.freq
  have hnodup := symbols_nodup s.freq
  obtain ⟨hvalid, hlow, hmax, hhigh⟩ := treeStatusWord_fields (s := afterBuild s) rfl
  refine ⟨fun b => (hcode.entry_ne_nil_iff hnodup b).trans mem_symbols, fun b c => hcode.not_isPrefix hnodup,
    fun b => ⟨hcode.length_le hnodup b, (codeLen_afterBuild s b).1⟩, fun b => (codeLen_afterBuild s b).2, hvalid, hlow,
    fun b => ?_, ?_, hhigh⟩
  · have hle := codeLen_le_maxLen (afterBuild s).code b
    rwa [(codeLen_afterBuild s b).2, ← hmax] at hle
  · obtain ⟨b, hb⟩ := exists_codeLen_eq_maxLen (afterBuild s).code
    exact ⟨b, by rw [← (codeLen_afterBuild s b).2, hb]; exact hmax.symm⟩

/-- Settles O45: two or more symbols have an internal root, and each half of a tree takes half of the sum. -/
theorem codeLengthsSumToOne : Obligations.CodeLengthsSumToOne := by
  intro s t h htwo
  obtain rfl : t = afterBuild s := of_next h
  have hcode := codePairs_isCode s.freq
  exact (hcode.sum_entries (symbols_nodup s.freq) 255).trans (hcode.kraft htwo 255 (symbolCount_le s.freq))

end Sys2Proof.Machine
end

section
/-! The Huffman encoder (spec/42_huffman_encoder.md): its loop over bytes whose codes fit, its whole effect (R140, R141), its run
errors at the first byte that has one (R187), and the input of one symbol (R142). -/

namespace Sys2Proof.Machine

open Sys2Proof

/-! ### The loop (R140) -/

/-- The loop takes a first part of its input, with codes that fit, as one run of AppendBit. -/
theorem encodeLoop_append {xs : List Byte} {s : State} (ys : List Byte) (hcoded : ∀ x ∈ xs, entry s.code x ≠ [])
    (hroom : s.wpos.toNat + (xs.flatMap (entry s.code)).length ≤ 8 * s.wcap.toNat) :
    encodeLoop (xs ++ ys) s = encodeLoop ys (appendBits s (xs.flatMap (entry s.code))) := by
  induction xs generalizing s with
  | nil => rfl
  | cons x xs ih =>
    obtain ⟨hx, hxs⟩ := List.forall_mem_cons.1 hcoded
    rw [List.flatMap_cons, List.length_append] at hroom
    have hfits : s.wpos.toNat + (entry s.code x).length ≤ 8 * s.wcap.toNat := by omega
    have hpos := appendBits_wpos_toNat hfits
    have hrest := ih (s := appendBits s (entry s.code x)) (by simpa using hxs)
      (by rw [hpos, appendBits_code, appendBits_wcap]; omega)
    rw [List.cons_append, encodeLoop, if_neg hx, if_neg (Nat.not_lt.2 hfits), hrest, List.flatMap_cons, appendBits_append,
      appendBits_code]

theorem encodeLoop_of_uncoded {b : Byte} {s : State} (ys : List Byte) (hb : entry s.code b = []) :
    encodeLoop (b :: ys) s = .error .nosym := by rw [encodeLoop, if_pos hb]

theorem encodeLoop_of_full {b : Byte} {s : State} (ys : List Byte) (hb : entry s.code b ≠ [])
    (hfull : 8 * s.wcap.toNat < s.wpos.toNat + (entry s.code b).length) :
    encodeLoop (b :: ys) s = .error .capacity := by rw [encodeLoop, if_neg hb, if_pos hfull]

/-! ### The start checks -/

/-- HE_ENCODE's start checks pass (R140). -/
structure EncodeStarts (s : State) : Prop where
  src : srcOK s = true
  dst : dstOK s = true
  apart : srcDstOverlap s = false
  tree : s.treeValid = true
  input : emptyInput s = false

theorem EncodeStarts.exec_of_ok {s t : State} (h : EncodeStarts s)
    (hl : encodeLoop (srcBytes s) (openWriter s.dstAddr s.dstCap s) = .ok t) :
    exec .heEncode s = .next (complete .none (flushWriter t)) := by
  simp [exec, execHeEncode, h.src, h.dst, h.apart, h.tree, h.input, hl, finish]

theorem EncodeStarts.exec_of_error {s : State} {c : ErrCode} (h : EncodeStarts s)
    (hl : encodeLoop (srcBytes s) (openWriter s.dstAddr s.dstCap s) = .error c) :
    exec .heEncode s = .next (complete c (havocEncode s)) := by
  simp [exec, execHeEncode, h.src, h.dst, h.apart, h.tree, h.input, hl, raise]

theorem emptyInput_of_srcLen_ne_zero {s : State} (h : s.srcLen ≠ 0) : emptyInput s = false :=
  Bool.eq_false_iff.2 fun he => h ((emptyInput_iff s).1 he).1

/-- Where SRC has a first byte, the input is not empty. -/
theorem srcLen_ne_zero_of_srcBytes_ne_nil {s : State} (h : srcBytes s ≠ []) : s.srcLen ≠ 0 := fun he =>
  h (by rw [srcBytes, he]; rfl)

/-! ### The whole effect (R140, R141) -/

/-- A run of AppendBit on a stream just opened, with room for its bits. -/
theorem openWriter_appendBits {base cap : Word} {s : State} {bits : List Bool}
    (hfit : base.toNat + cap.toNat ≤ s.params.dmemSize) (hroom : bits.length ≤ 8 * cap.toNat) :
    Appended (openWriter base cap s) bits (appendBits (openWriter base cap s) bits) := by
  have hroom' : (openWriter base cap s).wpos.toNat + bits.length ≤ 8 * (openWriter base cap s).wcap.toNat := by
    simpa using hroom
  refine ⟨appendBits_params _ _, appendBits_wbase _ _, appendBits_wcap _ _, ?_,
    appendBits_streamHolds hroom' hfit (openWriter_streamHolds base cap s), ?_⟩
  · rw [appendBits_wpos_toNat hroom', appendBits_wcap]
    exact hroom'
  · simpa using appendBits_sameOutside hroom'

/-- The flush leaves the stream open (R103). -/
theorem Appended.flush_holds {s t : State} {bits : List Bool} (h : Appended s bits t)
    (hfit : s.wbase.toNat + s.wcap.toNat ≤ s.params.dmemSize) : StreamHolds (flushWriter t) bits := by
  obtain ⟨hpos, -, hbuf⟩ := h.holds
  refine ⟨hpos, fun i hi => ?_, hbuf⟩
  rw [flushWriter_wbase, h.wbase]
  exact h.flush_read hfit (by unfold ceil8; omega)

/-- Where OUT_LEN takes the length, the flush writes DMEM, BITCNT and OUT_LEN only. -/
theorem flushWriter_frame {s : State} (h : ceil8 s.wpos.toNat < 2 ^ 32) :
    flushWriter s =
      { s with dmem := (flushWriter s).dmem, bitcnt := s.wpos, outLen := (flushWriter s).outLen } := by
  rw [← (flushWriter_outLen_of_fits h).2]
  rfl

/-- HE_ENCODE that ends without error writes DMEM, the writer, BITCNT and OUT_LEN only. -/
theorem encodeLoop_flush_frame {xs : List Byte} {s u : State}
    (h : encodeLoop xs (openWriter s.dstAddr s.dstCap s) = .ok u) (hlen : ceil8 u.wpos.toNat < 2 ^ 32) :
    complete .none (flushWriter u) = complete .none { s with
      dmem := (flushWriter u).dmem, wbase := s.dstAddr, wcap := s.dstCap, wpos := u.wpos, pbuf := u.pbuf,
      bitcnt := u.wpos, outLen := (flushWriter u).outLen } := by
  obtain ⟨m, p, b, rfl⟩ := encodeLoop_frame h
  exact congrArg (complete .none) (flushWriter_frame hlen)

/-- Settles O49: the loop is one run of AppendBit on the opened stream, and the flush completes Pack of its bits. -/
theorem heEncodeWritesThePackedCodes : Obligations.HeEncodeWritesThePackedCodes := by
  intro s bits hs hd ho hv he hcoded hbits hroom
  have hstart : EncodeStarts s := ⟨hs, hd, ho, hv, Bool.eq_false_iff.2 (mt (emptyInput_iff s).1 he)⟩
  have hfit : s.dstAddr.toNat + s.dstCap.toNat ≤ s.params.dmemSize := of_decide_eq_true hd
  have happ := openWriter_appendBits hfit hroom
  have hlen := (ceil8_wpos_le_wcap happ.room).trans_lt (BitVec.isLt _)
  have hloop : encodeLoop (srcBytes s) (openWriter s.dstAddr s.dstCap s) =
      .ok (appendBits (openWriter s.dstAddr s.dstCap s) bits) := by
    subst hbits
    simpa [encodeLoop] using encodeLoop_append (s := openWriter s.dstAddr s.dstCap s) [] hcoded (by simpa using hroom)
  exact ⟨_, hstart.exec_of_ok hloop, encodeLoop_flush_frame hloop hlen, happ.flush_holds hfit, happ.flush_outLen,
    readBytes_eq_pack_iff.2 fun _ => happ.flush_read hfit, happ.flush_outside⟩

/-! ### The run errors (R187) -/

/-- Settles O50: the loop reaches the byte with the codes before it appended, and stops there. -/
theorem heEncodeStopsAtTheFirstBadByte : Obligations.HeEncodeStopsAtTheFirstBadByte := by
  intro s xs ys b hs hd ho hv hsrc hcoded hroom
  have hlen : s.srcLen ≠ 0 := srcLen_ne_zero_of_srcBytes_ne_nil (by simp [hsrc])
  have hstart : EncodeStarts s := ⟨hs, hd, ho, hv, emptyInput_of_srcLen_ne_zero hlen⟩
  have hroom' : (openWriter s.dstAddr s.dstCap s).wpos.toNat + (xs.flatMap (entry s.code)).length ≤ 8 * s.dstCap.toNat := by
    simpa using hroom
  have hpos := appendBits_wpos_toNat hroom'
  have hloop := encodeLoop_append (s := openWriter s.dstAddr s.dstCap s) (b :: ys) hcoded hroom'
  rw [← hsrc] at hloop
  refine ⟨fun hb => ?_, fun hb hfull => ?_⟩
  · exact ⟨_, hstart.exec_of_error (hloop.trans (encodeLoop_of_uncoded ys (by simpa using hb))), rfl⟩
  · have hfull' := encodeLoop_of_full (s := appendBits (openWriter s.dstAddr s.dstCap s) (xs.flatMap (entry s.code)))
      ys (by simpa using hb) (by rw [hpos]; simpa using hfull)
    exact ⟨_, hstart.exec_of_error (hloop.trans hfull'), rfl⟩

/-! ### The tree of one symbol (R122, R123) -/

theorem srcBytes_eq_replicate {s : State} {b : Byte} (h : ∀ i, i < s.srcLen.toNat → srcByte s i = b) :
    srcBytes s = List.replicate s.srcLen.toNat b := by
  refine List.eq_replicate_iff.2 ⟨readBytes_length _ _ _, fun x hx => ?_⟩
  rw [srcBytes, readBytes_eq_map] at hx
  obtain ⟨i, hi, rfl⟩ := List.mem_map.1 hx
  exact h i (List.mem_range.1 hi)

/-- After a count of SRC the symbols are its bytes. -/
theorem mem_symbols_countBytes_srcBytes {s : State} {b : Byte} :
    b ∈ symbols (countBytes (srcBytes s)) ↔ b ∈ srcBytes s := by
  rw [mem_symbols, ← BitVec.toNat_ne_iff_ne, entry_countBytes_srcBytes]
  exact Nat.pos_iff_ne_zero.symm.trans List.count_pos_iff

/-- The copies of one byte have that one symbol. -/
theorem symbols_countBytes_of_replicate {s : State} {b : Byte} (hlen : s.srcLen ≠ 0)
    (h : srcBytes s = List.replicate s.srcLen.toNat b) : symbols (countBytes (srcBytes s)) = [b] := by
  refine List.perm_singleton.1 ((List.perm_ext_iff_of_nodup (symbols_nodup _) (List.nodup_singleton b)).2 fun x => ?_)
  have hpos : s.srcLen.toNat ≠ 0 := BitVec.toNat_ne_iff_ne.2 hlen
  rw [mem_symbols_countBytes_srcBytes, h, List.mem_replicate, List.mem_singleton, and_iff_right hpos]

/-- One symbol makes an arena of its leaf alone. -/
theorem buildNodes_of_one_symbol {freq : Vector Word 256} {b : Byte} (h : symbols freq = [b]) :
    buildNodes freq = [.leaf ((entry freq b).setWidth 64) b] := by
  simp [buildNodes, leaves, h, startQueue, mergeLoop]

/-- One symbol has the code "0". -/
theorem entry_codesOf_of_one_symbol {freq : Vector Word 256} {b : Byte} (h : symbols freq = [b]) :
    entry (codesOf (buildNodes freq) (rootOf (buildNodes freq))) b = [false] := by
  have hpairs : codePairs (buildNodes freq) (rootOf (buildNodes freq)) = [(b, [false])] := by
    rw [buildNodes_of_one_symbol h]
    exact codePairs_of_leaf rfl
  rw [codesOf, hpairs]
  exact entry_tableOf_of_mem (ps := [(b, [false])]) (List.nodup_singleton b) [] (List.mem_singleton_self _)

/-! ### Zero bits -/

theorem packByte_replicate_false (n i : Nat) : packByte (List.replicate n false) i = 0 := by
  simp [packByte]

theorem pack_replicate_false (n : Nat) : pack (List.replicate n false) = List.replicate (ceil8 n) 0 := by
  refine List.eq_replicate_iff.2 ⟨by simp [pack], fun x hx => ?_⟩
  obtain ⟨i, -, rfl⟩ := List.mem_map.1 hx
  exact packByte_replicate_false n i

/-! ### The input of one symbol (R142) -/

/-- The state in which HT_COUNT leaves the machine when it counts. -/
def afterCount (s : State) : State :=
  complete .none (setFreq (countBytes (srcBytes s)) (BitVec.ofNat 32 (symbolCount (countBytes (srcBytes s)))) s)

theorem exec_htCount_of_input {s : State} (hs : srcOK s = true) (hlen : s.srcLen ≠ 0) :
    exec .htCount s = .next (afterCount s) := exec_htCount_of_srcOK hs (emptyInput_of_srcLen_ne_zero hlen)

section OneSymbol

variable {s : State} {b : Byte} (hlen : s.srcLen ≠ 0) (hsrc : srcBytes s = List.replicate s.srcLen.toNat b)

include hlen hsrc

theorem one_symbol_tree_length : (afterBuild (afterCount s)).tree.length = 1 :=
  congrArg List.length (buildNodes_of_one_symbol (symbols_countBytes_of_replicate hlen hsrc))

theorem one_symbol_code : entry (afterBuild (afterCount s)).code b = [false] :=
  entry_codesOf_of_one_symbol (symbols_countBytes_of_replicate hlen hsrc)

/-- Each byte of SRC has a code, and together the codes are SRC_LEN zero bits. -/
theorem one_symbol_bits : (∀ x ∈ srcBytes (afterBuild (afterCount s)), entry (afterBuild (afterCount s)).code x ≠ []) ∧
    List.replicate s.srcLen.toNat false =
      (srcBytes (afterBuild (afterCount s))).flatMap (entry (afterBuild (afterCount s)).code) := by
  have hcode := one_symbol_code hlen hsrc
  have hsrc' : srcBytes (afterBuild (afterCount s)) = List.replicate s.srcLen.toNat b := hsrc
  rw [hsrc']
  refine ⟨fun x hx => ?_, ?_⟩
  · rw [List.eq_of_mem_replicate hx, hcode]
    exact List.cons_ne_nil _ _
  · rw [List.flatMap_replicate, hcode, List.flatten_replicate_singleton]

end OneSymbol

/-- Settles O51: the count leaves one symbol, its code is "0", and Pack of zero bits is zero bytes. -/
theorem oneSymbolInputEncodesToZeros : Obligations.OneSymbolInputEncodesToZeros := by
  intro s b hs hd ho hlen hroom hsame
  have hsrc := srcBytes_eq_replicate hsame
  obtain ⟨hcoded, hbits⟩ := one_symbol_bits hlen hsrc
  obtain ⟨v, hexec, hv, ⟨hpos, -, -⟩, -, hpack, -⟩ := heEncodeWritesThePackedCodes (afterBuild (afterCount s)) _ hs hd ho
    rfl (fun he => hlen he.1) hcoded hbits (by rwa [List.length_replicate])
  rw [List.length_replicate] at hpos hpack
  have herr : v.status.errcode = .none := (congrArg (fun x => x.status.errcode) hv).trans rfl
  have htree : v.tree = (afterBuild (afterCount s)).tree := (congrArg State.tree hv).trans rfl
  have hcode : v.code = (afterBuild (afterCount s)).code := (congrArg State.code hv).trans rfl
  have hcnt : v.bitcnt = v.wpos := congrArg State.bitcnt hv
  exact ⟨_, _, v, exec_htCount_of_input hs hlen, exec_htBuild _, hexec, herr, htree ▸ one_symbol_tree_length hlen hsrc,
    hcode ▸ one_symbol_code hlen hsrc, hcnt ▸ hpos, hpack.trans (pack_replicate_false _)⟩

end Sys2Proof.Machine
end

section
/-! The walk of the Huffman decoder (spec/43_huffman_decoder.md R150): over whole codes it emits their symbols, inside a code it
ends with FORMAT, and what it emits is nothing but whole codes. -/

namespace Sys2Proof.Machine

open Sys2Proof

/-! ### One node further -/

/-- The walk that has just come to node `i`: on at an internal node, while a leaf's symbol is emitted and the walk starts again at
the root. -/
def arriveAt (nodes : List Node) (root i : Nat) (bits : List Bool) (room : Nat) : WalkEnd :=
  match nodes[i]?, room with
  | none, _ => .noNode i
  | some (.internal _ _ _), room => walkTree nodes root bits i room
  | some (.leaf _ _), 0 => .error .capacity
  | some (.leaf _ sym), room + 1 => (walkTree nodes root bits root room).emit sym

section Node

variable {nodes : List Node} {root i l r : Nat} {w : DWord} {b : Byte}

theorem arriveAt_leaf_succ (h : nodes[i]? = some (.leaf w b)) (bits : List Bool) (room : Nat) :
    arriveAt nodes root i bits (room + 1) = (walkTree nodes root bits root room).emit b := by simp [arriveAt, h]

theorem arriveAt_leaf_zero (h : nodes[i]? = some (.leaf w b)) (bits : List Bool) :
    arriveAt nodes root i bits 0 = .error .capacity := by simp [arriveAt, h]

theorem arriveAt_internal (h : nodes[i]? = some (.internal w l r)) (bits : List Bool) (room : Nat) :
    arriveAt nodes root i bits room = walkTree nodes root bits i room := by simp [arriveAt, h]

theorem arriveAt_internal_nil (h : nodes[i]? = some (.internal w l r)) (hi : i ≠ root) (room : Nat) :
    arriveAt nodes root i [] room = .error .format := by rw [arriveAt_internal h, walkTree, if_neg hi]

/-- A bit leads from an internal node to its child. -/
theorem arriveAt_internal_cons (h : nodes[i]? = some (.internal w l r)) (bit : Bool) (bits : List Bool) (room : Nat) :
    arriveAt nodes root i (bit :: bits) room = arriveAt nodes root (if bit then r else l) bits room := by
  rw [arriveAt_internal h, walkTree, h]
  cases hnext : nodes[if bit then r else l]? with
  | none => simp [arriveAt, hnext]
  | some x =>
    cases x with
    | internal => simp [arriveAt, hnext]
    | leaf => cases room <;> simp [arriveAt, hnext]

end Node

/-! ### Below a node -/

/-- A code of an internal node is a bit and a code of the child that the bit leads to. -/
theorem mem_children {cl cr : List (Byte × List Bool)} {b : Byte} {p : List Bool} :
    (b, p) ∈ extendCodes false cl ++ extendCodes true cr ↔ ∃ bit q, p = bit :: q ∧ (b, q) ∈ if bit then cr else cl := by
  simp [mem_extendCodes, eq_comm, and_comm]

section BelowNode

variable {nodes : List Node} {root i : Nat} {cs : List (Byte × List Bool)} (h : Below nodes i cs)

include h

theorem Below.walk_emits {b : Byte} {p : List Bool} (hp : (b, p) ∈ cs) (bits : List Bool) (room : Nat) :
    arriveAt nodes root i (p ++ bits) (room + 1) = (walkTree nodes root bits root room).emit b := by
  induction h generalizing p with
  | leaf h =>
    obtain ⟨rfl, rfl⟩ : b = _ ∧ p = [] := by simpa using hp
    exact arriveAt_leaf_succ h bits room
  | internal h _ _ ihl ihr =>
    obtain ⟨bit, q, rfl, hq⟩ := mem_children.1 hp
    rw [List.cons_append, arriveAt_internal_cons h]
    cases bit with
    | false => exact ihl hq
    | true => exact ihr hq

theorem Below.walk_full {b : Byte} {p : List Bool} (hp : (b, p) ∈ cs) (bits : List Bool) :
    arriveAt nodes root i (p ++ bits) 0 = .error .capacity := by
  induction h generalizing p with
  | leaf h =>
    obtain ⟨rfl, rfl⟩ : b = _ ∧ p = [] := by simpa using hp
    exact arriveAt_leaf_zero h bits
  | internal h _ _ ihl ihr =>
    obtain ⟨bit, q, rfl, hq⟩ := mem_children.1 hp
    rw [List.cons_append, arriveAt_internal_cons h]
    cases bit with
    | false => exact ihl hq
    | true => exact ihr hq

variable (hold : ∀ (k : Nat) (w : DWord) (l r : Nat), nodes[k]? = some (.internal w l r) → l < k ∧ r < k) (hle : i ≤ root)

include hold hle

/-- Children are older than their parents, so a walk that stops inside a code has left the root and not come back. -/
theorem Below.walk_cut {b : Byte} {p q : List Bool} (hpq : (b, p ++ q) ∈ cs) (hq : q ≠ []) (hp : i = root → p ≠ [])
    (room : Nat) : arriveAt nodes root i p room = .error .format := by
  induction h generalizing p with
  | leaf h =>
    obtain ⟨-, -, rfl⟩ : b = _ ∧ p = [] ∧ q = [] := by simpa using hpq
    exact absurd rfl hq
  | internal h _ _ ihl ihr =>
    cases p with
    | nil => exact arriveAt_internal_nil h (fun he => hp he rfl) room
    | cons bit p =>
      obtain ⟨_, _, he, hpq⟩ := mem_children.1 hpq
      obtain ⟨rfl, rfl⟩ := List.cons.inj he
      obtain ⟨hl, hr⟩ := hold _ _ _ _ h
      rw [arriveAt_internal_cons h]
      cases bit with
      | false => exact ihl (by omega) hpq (by omega)
      | true => exact ihr (by omega) hpq (by omega)

/-- A walk that ends well has passed a whole code. -/
theorem Below.walk_out {bits : List Bool} {room : Nat} {out : List Byte} (hbits : i = root → bits ≠ [])
    (hwalk : arriveAt nodes root i bits room = .out out) : ∃ b p, (b, p) ∈ cs ∧ p <+: bits := by
  induction h generalizing bits with
  | leaf h => exact ⟨_, [], List.mem_singleton_self _, List.nil_prefix⟩
  | @internal _ _ _ _ cl cr h _ _ ihl ihr =>
    cases bits with
    | nil =>
      rw [arriveAt_internal_nil h (fun he => hbits he rfl)] at hwalk
      cases hwalk
    | cons bit bits =>
      obtain ⟨hl, hr⟩ := hold _ _ _ _ h
      rw [arriveAt_internal_cons h] at hwalk
      have hchild : ∃ b p, (b, p) ∈ (if bit then cr else cl) ∧ p <+: bits := by
        cases bit with
        | false => exact ihl (by omega) (by omega) hwalk
        | true => exact ihr (by omega) (by omega) hwalk
      obtain ⟨b, p, hp, hpre⟩ := hchild
      exact ⟨b, bit :: p, mem_children.2 ⟨bit, p, rfl, hp⟩, List.cons_prefix_cons.2 ⟨rfl, hpre⟩⟩

end BelowNode

/-! ### The decoder of a code -/

@[simp] theorem decodeBits_nil (nodes : List Node) (root : Option Nat) (room : Nat) :
    decodeBits nodes root [] room = .out [] := by
  unfold decodeBits
  split
  · rfl
  · split <;> simp [walkLeaf, walkTree]

/-- Decoding with the tree takes the codes `cs` apart: a whole code emits its symbol where there is room and is CAPACITY where
there is none, an end inside a code is FORMAT, and only whole codes are decoded. -/
structure Decodes (nodes : List Node) (root : Option Nat) (cs : List (Byte × List Bool)) : Prop where
  emits : ∀ b p, (b, p) ∈ cs → ∀ bits room,
    decodeBits nodes root (p ++ bits) (room + 1) = (decodeBits nodes root bits room).emit b
  full : ∀ b p, (b, p) ∈ cs → ∀ bits, decodeBits nodes root (p ++ bits) 0 = .error .capacity
  cut : ∀ b p q, (b, p ++ q) ∈ cs → p ≠ [] → q ≠ [] → ∀ room, decodeBits nodes root p room = .error .format
  whole : root ≠ none → ∀ bits room out, bits ≠ [] → decodeBits nodes root bits room = .out out →
    ∃ b p, (b, p) ∈ cs ∧ p <+: bits

theorem decodes_none (nodes : List Node) : Decodes nodes none [] := ⟨nofun, nofun, nofun, fun h => absurd rfl h⟩

theorem decodeBits_of_leaf {nodes : List Node} {r : Nat} {w : DWord} {b : Byte} (h : nodes[r]? = some (.leaf w b)) :
    decodeBits nodes (some r) = walkLeaf b := by
  funext bits room
  simp [decodeBits, h]

/-- The decoder of the one code "0" (R153). -/
theorem decodes_leaf {nodes : List Node} {r : Nat} {w : DWord} {b : Byte} (h : nodes[r]? = some (.leaf w b)) :
    Decodes nodes (some r) [(b, [false])] := by
  have hdec := decodeBits_of_leaf h
  refine ⟨fun c p hp bits room => ?_, fun c p hp bits => ?_, fun c p q hpq hp hq => ?_, fun _ bits room out hne hout => ?_⟩
  · obtain ⟨rfl, rfl⟩ : c = b ∧ p = [false] := by simpa using hp
    rw [hdec]
    rfl
  · obtain ⟨rfl, rfl⟩ : c = b ∧ p = [false] := by simpa using hp
    rw [hdec]
    rfl
  · obtain ⟨-, hone⟩ : c = b ∧ p ++ q = [false] := by simpa using hpq
    have hlen := congrArg List.length hone
    have hp' := List.length_pos_iff.2 hp
    have hq' := List.length_pos_iff.2 hq
    rw [List.length_append, List.length_singleton] at hlen
    omega
  · rw [hdec] at hout
    match bits, hne with
    | true :: bits, _ => cases hout
    | false :: bits, _ => exact ⟨b, [false], List.mem_singleton_self _, bits, rfl⟩

/-- The decoder of the codes below an internal root. -/
theorem decodes_internal {nodes : List Node} {i l r : Nat} {w : DWord} {cs : List (Byte × List Bool)}
    (h : nodes[i]? = some (.internal w l r)) (hcs : Below nodes i cs)
    (hold : ∀ (k : Nat) (w : DWord) (l r : Nat), nodes[k]? = some (.internal w l r) → l < k ∧ r < k) :
    Decodes nodes (some i) cs := by
  have hwalk : ∀ bits room, decodeBits nodes (some i) bits room = walkTree nodes i bits i room := fun bits room => by
    simp [decodeBits, h]
  have harrive : ∀ bits room, decodeBits nodes (some i) bits room = arriveAt nodes i i bits room := fun bits room =>
    (hwalk bits room).trans (arriveAt_internal h bits room).symm
  refine ⟨fun b p hp bits room => ?_, fun b p hp bits => ?_, fun b p q hpq hp hq room => ?_,
    fun _ bits room out hne hout => ?_⟩
  · rw [harrive, hwalk]
    exact hcs.walk_emits hp bits room
  · rw [harrive]
    exact hcs.walk_full hp bits
  · rw [harrive]
    exact hcs.walk_cut hold (Nat.le_refl i) hpq hq (fun _ => hp) room
  · rw [harrive] at hout
    exact hcs.walk_out hold (Nat.le_refl i) (fun _ => hne) hout

/-- The tree of BuildTree decodes its codes. -/
theorem decodes_buildNodes (freq : Vector Word 256) :
    Decodes (buildNodes freq) (rootOf (buildNodes freq)) (codePairs (buildNodes freq) (rootOf (buildNodes freq))) := by
  obtain ⟨queue, hq, ha, codes, hbelow, hsyms⟩ := buildNodes_arena freq
  by_cases hne : buildNodes freq = []
  · rw [rootOf, if_pos hne]
    exact decodes_none _
  · obtain ⟨q, rfl, hlast⟩ := ha.queue_end hq hne
    have hroot : rootOf (buildNodes freq) = some q.index := by rw [rootOf, if_neg hne, hlast]
    have hcodes := hbelow q List.mem_cons_self
    rw [List.flatMap_singleton] at hsyms
    rw [hroot]
    generalize codes q.index = cs at hcodes hsyms
    cases hcodes with
    | leaf hleaf =>
      rw [codePairs_of_leaf hleaf]
      exact decodes_leaf hleaf
    | internal hnode hl hr =>
      have hle : symbolCount freq ≤ (buildNodes freq).length := leaves_length freq ▸ ha.leaves_le
      have hlen := List.length_map Prod.fst ▸ hsyms.length_eq
      have hcs := Below.internal hnode hl hr
      have hwalk := hcs.walkCodes_eq (hlen.trans_le hle) []
      rw [codePairs_of_internal hnode, hwalk]
      simpa using decodes_internal hnode hcs ha.older

/-! ### Sequences of codes -/

/-- A run error stays the outcome of the whole walk. -/
theorem foldr_emit_error (x : List Byte) (c : ErrCode) : x.foldr WalkEnd.emit (.error c) = .error c :=
  List.foldr_fixed' (fun _ => rfl) x

theorem foldr_emit_out (x out : List Byte) : x.foldr WalkEnd.emit (.out out) = .out (x ++ out) := by
  induction x with
  | nil => rfl
  | cons b x ih => rw [List.foldr_cons, ih]; rfl

section Sequence

variable {nodes : List Node} {root : Option Nat} {cs : List (Byte × List Bool)} (h : Decodes nodes root cs)
  {code : Byte → List Bool}

include h

/-- The codes of `x` emit `x` before the rest of the walk. -/
theorem Decodes.codes_append {x : List Byte} (hx : ∀ b ∈ x, (b, code b) ∈ cs) (bits : List Bool) {room : Nat}
    (hroom : x.length ≤ room) : decodeBits nodes root (x.flatMap code ++ bits) room =
      x.foldr WalkEnd.emit (decodeBits nodes root bits (room - x.length)) := by
  induction x generalizing room with
  | nil => rfl
  | cons b x ih =>
    obtain ⟨hb, hx⟩ := List.forall_mem_cons.1 hx
    obtain ⟨room, rfl⟩ : ∃ k, room = k + 1 := ⟨room - 1, by rw [List.length_cons] at hroom; omega⟩
    have hroom' : x.length ≤ room := by simpa using hroom
    rw [List.flatMap_cons, List.append_assoc, h.emits b _ hb, ih hx hroom', List.foldr_cons, List.length_cons,
      Nat.add_sub_add_right]

/-- The codes of `x` alone decode to `x`. -/
theorem Decodes.codes {x : List Byte} (hx : ∀ b ∈ x, (b, code b) ∈ cs) {room : Nat} (hroom : x.length ≤ room) :
    decodeBits nodes root (x.flatMap code) room = .out x := by
  have hwalk := h.codes_append hx [] hroom
  rwa [List.append_nil, decodeBits_nil, foldr_emit_out, List.append_nil] at hwalk

/-- A walk that ends well over some bits begins with a whole code and its symbol. -/
theorem Decodes.out_cons (hroot : root ≠ none) {bits : List Bool} (hne : bits ≠ []) {room : Nat} {x : List Byte}
    (hwalk : decodeBits nodes root bits room = .out x) : ∃ b p rest y k, (b, p) ∈ cs ∧ bits = p ++ rest ∧ x = b :: y ∧
      decodeBits nodes root rest k = .out y := by
  obtain ⟨b, p, hp, rest, rfl⟩ := h.whole hroot _ _ _ hne hwalk
  cases room with
  | zero => cases (h.full b p hp rest).symm.trans hwalk
  | succ room =>
    obtain ⟨y, hy, rfl⟩ := emit_eq_out ((h.emits b p hp rest room).symm.trans hwalk)
    exact ⟨b, p, rest, y, room, hp, rfl, rfl, hy⟩

/-- What is decoded has the decoded bits as its codes (R152). -/
theorem Decodes.out_codes (hcode : ∀ b p, (b, p) ∈ cs → code b = p) {bits : List Bool} (hroot : root = none → bits = [])
    {room : Nat} {x : List Byte} (hwalk : decodeBits nodes root bits room = .out x) :
    x.flatMap code = bits ∧ ∀ b ∈ x, (b, code b) ∈ cs := by
  induction x generalizing bits room with
  | nil =>
    refine ⟨by_contra fun hne => ?_, List.forall_mem_nil _⟩
    obtain ⟨b, p, rest, y, k, -, -, he, -⟩ := h.out_cons (mt hroot (Ne.symm hne)) (Ne.symm hne) hwalk
    cases he
  | cons b x ih =>
    have hne : bits ≠ [] := by
      rintro rfl
      rw [decodeBits_nil] at hwalk
      cases hwalk
    obtain ⟨b, p, rest, y, k, hp, rfl, he, hrest⟩ := h.out_cons (mt hroot hne) hne hwalk
    obtain ⟨rfl, rfl⟩ := List.cons.inj he
    obtain ⟨hbits, hx⟩ := ih (fun hn => absurd hn (mt hroot hne)) hrest
    obtain rfl := hcode _ _ hp
    exact ⟨by rw [List.flatMap_cons, hbits], List.forall_mem_cons.2 ⟨hp, hx⟩⟩

end Sequence

end Sys2Proof.Machine
end

section
/-! The Huffman decoder (spec/43_huffman_decoder.md): its laws with the tree of FREQ (R151, R152), its run errors (R150, R153, R187),
and the round trip with the encoder (R151). -/

namespace Sys2Proof.Machine

open Sys2Proof

/-! ### The start checks -/

/-- HD_DECODE's start checks pass (R150). -/
structure DecodeStarts (s : State) : Prop where
  ranges : RangesOk s
  tree : s.treeValid = true
  format : ¬DecodeStartFormat s

/-- With a root the check of the bit count is that SRC takes the bits. -/
theorem DecodeStarts.of_root {s : State} (hr : RangesOk s) (hv : s.treeValid = true)
    (hfit : ceil8 s.bitcnt.toNat ≤ s.srcLen.toNat) (hroot : s.root ≠ none) : DecodeStarts s :=
  ⟨hr, hv, not_or.2 ⟨Nat.not_lt.2 hfit, fun hnone => hroot hnone.1⟩⟩

/-- The state in which HD_DECODE leaves the machine when it emits `x`. -/
def afterDecode (s : State) (x : List Byte) : State :=
  complete .none { putOutput s.dstAddr.toNat x (BitVec.ofNat 32 x.length) (openReader s.srcAddr s.bitcnt s) with
    rdpos := s.bitcnt }

section Starts

variable {s : State} (h : DecodeStarts s)

include h

theorem DecodeStarts.exec_of_out {x : List Byte} (hwalk : srcWalk s = .out x) :
    exec .hdDecode s = .next (afterDecode s x) := by
  obtain ⟨⟨hs, hd, ho⟩, hv, hf⟩ := h
  obtain ⟨hlen, hroot⟩ := not_or.1 hf
  simp only [exec, execHdDecode, hs, hd, ho, hv, if_neg hlen, if_neg hroot, hwalk]
  rfl

theorem DecodeStarts.exec_of_error {c : ErrCode} (hwalk : srcWalk s = .error c) :
    exec .hdDecode s = .next (complete c (havocDecode s)) := by
  obtain ⟨⟨hs, hd, ho⟩, hv, hf⟩ := h
  obtain ⟨hlen, hroot⟩ := not_or.1 hf
  simp only [exec, execHdDecode, hs, hd, ho, hv, if_neg hlen, if_neg hroot, hwalk]
  rfl

end Starts

/-! ### What a success writes -/

theorem afterDecode_outLen {s : State} {x : List Byte} (h : x.length ≤ s.dstCap.toNat) :
    (afterDecode s x).outLen.toNat = x.length :=
  (BitVec.toNat_ofNat _ _).trans (Nat.mod_eq_of_lt (h.trans_lt s.dstCap.isLt))

theorem afterDecode_readBytes (s : State) (x : List Byte) :
    Memory.readBytes (afterDecode s x).dmem s.dstAddr.toNat x.length = x := readBytes_writeBytes _ _ _

theorem afterDecode_sameOutside (s : State) (x : List Byte) :
    SameOutside s.dmem (afterDecode s x).dmem s.dstAddr.toNat x.length := fun _ hx => read_writeBytes_outside _ _ hx

/-- HD_DECODE that ends without error has emitted what its walk gives. -/
theorem execHdDecode_success {s t : State} (h : exec .hdDecode s = .next t) (herr : t.status.errcode = .none) :
    ¬DecodeStartFormat s ∧ s.treeValid = true ∧ ∃ x, srcWalk s = .out x ∧ t = afterDecode s x := by
  rcases execHdDecode_next h with ⟨-, rfl⟩ | ⟨-, -, -, rfl⟩ | ⟨-, -, rfl⟩ | ⟨-, -, -, rfl⟩ |
    ⟨-, hv, hf, ⟨c, hwalk, rfl⟩ | ⟨x, hwalk, rfl⟩⟩
  · cases herr
  · cases herr
  · cases herr
  · cases herr
  · obtain rfl : c = .none := herr
    rcases decodeBits_error hwalk with hc | hc <;> cases hc
  · exact ⟨hf, hv, x, hwalk, rfl⟩

/-! ### The codes of a valid tree (R42, R43) -/

section Tables

variable {s : State} (h : TablesOk s) (hv : s.treeValid = true)

include h hv

theorem TablesOk.of_valid : s.tree = buildNodes s.freq ∧ s.root = rootOf s.tree ∧ s.code = codesOf s.tree s.root := by
  obtain ⟨-, hvalid, -⟩ := h
  exact hvalid hv

theorem TablesOk.decodes : Decodes s.tree s.root (codePairs s.tree s.root) := by
  obtain ⟨htree, hroot, -⟩ := h.of_valid hv
  rw [hroot, htree]
  exact decodes_buildNodes s.freq

theorem TablesOk.isCode : IsCode (symbols s.freq) (codePairs s.tree s.root) := by
  obtain ⟨htree, hroot, -⟩ := h.of_valid hv
  rw [hroot, htree]
  exact codePairs_isCode s.freq

theorem TablesOk.code_eq : s.code = tableOf [] (codePairs s.tree s.root) := by
  obtain ⟨-, -, hcode⟩ := h.of_valid hv
  exact hcode

theorem TablesOk.entry_ne_nil_iff (b : Byte) : entry s.code b ≠ [] ↔ entry s.freq b ≠ 0 := by
  rw [h.code_eq hv, (h.isCode hv).entry_ne_nil_iff (symbols_nodup s.freq), mem_symbols]

theorem TablesOk.mem_codePairs {b : Byte} (hb : entry s.code b ≠ []) :
    (b, entry s.code b) ∈ codePairs s.tree s.root := by
  rw [h.code_eq hv] at hb ⊢
  exact (h.isCode hv).entry_mem (symbols_nodup s.freq) hb

theorem TablesOk.entry_of_mem {b : Byte} {p : List Bool} (hp : (b, p) ∈ codePairs s.tree s.root) :
    entry s.code b = p := by
  rw [h.code_eq hv]
  exact (h.isCode hv).entry_eq (symbols_nodup s.freq) hp

/-- Without a root no symbol has a code. -/
theorem TablesOk.root_ne_none {b : Byte} (hb : entry s.code b ≠ []) : s.root ≠ none := fun hroot => by
  have hmem := h.mem_codePairs hv hb
  rw [hroot] at hmem
  exact List.not_mem_nil hmem

end Tables

/-! ### The laws (R151, R152) -/

/-- Settles O52: the stream over Pack of the codes is the codes, and each whole code emits its symbol. -/
theorem hdDecodeInvertsTheCodes : Obligations.HdDecodeInvertsTheCodes := by
  intro s x htab hv hs hd ho hcoded hlen hfit hpack hroom
  rw [hlen, readBytes_eq_pack_iff] at hpack
  have hbits : streamBits s.dmem s.srcAddr.toNat 0 s.bitcnt.toNat = x.flatMap (entry s.code) := by
    rw [hlen, streamBits_of_pack hpack]
  have hwalk : srcWalk s = .out x := by
    rw [srcWalk, hbits]
    exact (htab.decodes hv).codes (fun b hb => htab.mem_codePairs hv (hcoded b hb)) hroom
  have hroot : ¬(s.root = none ∧ 0 < s.bitcnt.toNat) := by
    rintro ⟨hnone, hpos⟩
    have hx : x = [] := List.eq_nil_iff_forall_not_mem.2 fun b hb => htab.root_ne_none hv (hcoded b hb) hnone
    rw [hlen, hx] at hpos
    exact absurd hpos (Nat.lt_irrefl 0)
  have hstart : DecodeStarts s := ⟨⟨hs, hd, ho⟩, hv, not_or.2 ⟨Nat.not_lt.2 hfit, hroot⟩⟩
  exact ⟨_, hstart.exec_of_out hwalk, rfl, afterDecode_outLen hroom, afterDecode_readBytes s x, afterDecode_sameOutside s x⟩

/-- Codes that are not empty are no fewer bits than symbols. -/
theorem length_le_codes {code : Byte → List Bool} {x : List Byte} (h : ∀ b ∈ x, code b ≠ []) :
    x.length ≤ (x.flatMap code).length := by
  have hone : ∀ n ∈ x.map (fun b => (code b).length), 1 ≤ n :=
    List.forall_mem_map.2 fun b hb => List.length_pos_iff.2 (h b hb)
  simpa [List.length_flatMap] using List.length_le_sum_of_one_le _ hone

/-- Settles O53: what the walk emits has the BITCNT bits as its codes, and no code is empty. -/
theorem hdDecodeConsumesExactlyTheBits : Obligations.HdDecodeConsumesExactlyTheBits := by
  intro s t htab hexec herr
  obtain ⟨hf, hv, x, hwalk, rfl⟩ := execHdDecode_success hexec herr
  have hroot : s.root = none → streamBits s.dmem s.srcAddr.toNat 0 s.bitcnt.toNat = [] := fun hnone => by
    have hzero : s.bitcnt.toNat = 0 := Nat.eq_zero_of_not_pos fun hpos => hf (.inr ⟨hnone, hpos⟩)
    rw [hzero, streamBits]
  obtain ⟨hbits, hx⟩ := (htab.decodes hv).out_codes (fun _ _ => htab.entry_of_mem hv) hroot hwalk
  have hcoded : ∀ b ∈ x, entry s.code b ≠ [] := fun b hb => (htab.isCode hv).coded _ (hx b hb)
  have hroom := decodeBits_length hwalk
  have hlen : x.length ≤ s.bitcnt.toNat := by
    have hle := length_le_codes hcoded
    rwa [hbits, streamBits_length] at hle
  exact ⟨x, afterDecode_outLen hroom, afterDecode_readBytes s x, hcoded, hbits, hlen, hroom, rfl⟩

/-! ### The run errors (R150, R153, R187) -/

theorem streamBits_eq_replicate {m : Memory} {base k : Nat} (h : ∀ j, j < k → streamBit m base j = false) :
    streamBits m base 0 k = List.replicate k false := by
  refine List.ext_getElem (by simp) fun j hj _ => ?_
  rw [streamBits_getElem, Nat.zero_add, List.getElem_replicate]
  exact h j (by simpa using hj)

/-- A one-symbol tree emits a symbol for each 0 bit, before the rest of the walk (R153). -/
theorem decodeBits_zeros {nodes : List Node} {r : Nat} {w : DWord} {b : Byte} (h : nodes[r]? = some (.leaf w b))
    (bits : List Bool) {k room : Nat} (hroom : k ≤ room) :
    decodeBits nodes (some r) (List.replicate k false ++ bits) room =
      (List.replicate k b).foldr WalkEnd.emit (decodeBits nodes (some r) bits (room - k)) := by
  have hcodes : ∀ c ∈ List.replicate k b, (c, [false]) ∈ [(b, [false])] := fun c hc => by
    rw [List.eq_of_mem_replicate hc]
    exact List.mem_singleton_self _
  have hwalk := (decodes_leaf h).codes_append (code := fun _ => [false]) hcodes bits (room := room) (by simpa using hroom)
  rwa [List.flatMap_replicate, List.flatten_replicate_singleton, List.length_replicate] at hwalk

/-- A 1 bit is no code of a one-symbol tree (R153). -/
theorem decodeBits_one {nodes : List Node} {r : Nat} {w : DWord} {b : Byte} (h : nodes[r]? = some (.leaf w b))
    (bits : List Bool) (room : Nat) : decodeBits nodes (some r) (true :: bits) room = .error .format := by
  rw [decodeBits_of_leaf h]
  rfl

theorem srcWalk_of_zeros {s : State} {w : DWord} {b : Byte} {r k n : Nat} (hroot : s.root = some r)
    (hleaf : s.tree[r]? = some (.leaf w b)) (hn : s.bitcnt.toNat = k + n) (hroom : k ≤ s.dstCap.toNat)
    (hzeros : ∀ j, j < k → streamBit s.dmem s.srcAddr.toNat j = false) :
    srcWalk s = (List.replicate k b).foldr WalkEnd.emit
      (decodeBits s.tree (some r) (streamBits s.dmem s.srcAddr.toNat k n) (s.dstCap.toNat - k)) := by
  rw [srcWalk, hroot, hn, streamBits_add, streamBits_eq_replicate hzeros, Nat.zero_add, decodeBits_zeros hleaf _ hroom]

theorem srcWalk_of_codes {s : State} {x : List Byte} {left : List Bool} (h : TablesOk s) (hv : s.treeValid = true)
    (hcoded : ∀ b ∈ x, entry s.code b ≠ [])
    (hbits : streamBits s.dmem s.srcAddr.toNat 0 s.bitcnt.toNat = x.flatMap (entry s.code) ++ left)
    (hroom : x.length ≤ s.dstCap.toNat) :
    srcWalk s = x.foldr WalkEnd.emit (decodeBits s.tree s.root left (s.dstCap.toNat - x.length)) := by
  rw [srcWalk, hbits]
  exact (h.decodes hv).codes_append (fun b hb => h.mem_codePairs hv (hcoded b hb)) left hroom

/-- Settles O54: the walk takes the first symbols as whole codes and then meets the bit, the code or the end that stops it. -/
theorem oneSymbolTreeRejectsOnes : Obligations.OneSymbolTreeRejectsOnes := by
  refine ⟨fun s w b r k hv hroot hleaf hs hd ho hfit hroom hk hzeros => ?_,
    fun s x left htab hv hs hd ho hfit hcoded hbits =>
      ⟨fun b more hfull hb hleft => ?_, fun b more hroom hleft hmore hcut => ?_⟩⟩
  · have hstart : DecodeStarts s := .of_root ⟨hs, hd, ho⟩ hv hfit (by simp [hroot])
    obtain ⟨n, hn⟩ := Nat.exists_eq_add_of_le hk
    have hwalk := srcWalk_of_zeros hroot hleaf hn hroom hzeros
    refine ⟨fun hlt hone => ?_, fun he => ?_⟩
    · obtain ⟨m, rfl⟩ : ∃ m, n = m + 1 := ⟨n - 1, by omega⟩
      rw [streamBits, hone, decodeBits_one hleaf, foldr_emit_error] at hwalk
      exact ⟨_, hstart.exec_of_error hwalk, rfl⟩
    · obtain rfl : n = 0 := by omega
      rw [streamBits, decodeBits_nil, foldr_emit_out, List.append_nil] at hwalk
      have hread := afterDecode_readBytes s (List.replicate k b)
      have hlen := afterDecode_outLen (s := s) (x := List.replicate k b) (by rwa [List.length_replicate])
      rw [List.length_replicate] at hread hlen
      rw [← he]
      exact ⟨_, hstart.exec_of_out hwalk, rfl, hlen, hread⟩
  · have hwalk := srcWalk_of_codes htab hv hcoded hbits hfull.le
    rw [hfull, Nat.sub_self, hleft, (htab.decodes hv).full b _ (htab.mem_codePairs hv hb), foldr_emit_error] at hwalk
    have hstart : DecodeStarts s := .of_root ⟨hs, hd, ho⟩ hv hfit (htab.root_ne_none hv hb)
    exact ⟨_, hstart.exec_of_error hwalk, rfl⟩
  · have hb : entry s.code b ≠ [] := hcut ▸ List.append_ne_nil_of_left_ne_nil hleft more
    have hmem : (b, left ++ more) ∈ codePairs s.tree s.root := hcut ▸ htab.mem_codePairs hv hb
    have hwalk := srcWalk_of_codes htab hv hcoded hbits hroom
    rw [(htab.decodes hv).cut b left more hmem hleft hmore, foldr_emit_error] at hwalk
    have hstart : DecodeStarts s := .of_root ⟨hs, hd, ho⟩ hv hfit (htab.root_ne_none hv hb)
    exact ⟨_, hstart.exec_of_error hwalk, rfl⟩

/-! ### The round trip (R151) -/

/-- The codes of an input that encodes fit the writer. -/
theorem encodeLoop_ok_room {xs : List Byte} {s u : State} (h : encodeLoop xs s = .ok u)
    (hroom : s.wpos.toNat ≤ 8 * s.wcap.toNat) :
    s.wpos.toNat + (xs.flatMap (entry s.code)).length ≤ 8 * s.wcap.toNat := by
  induction xs generalizing s with
  | nil => exact hroom
  | cons x xs ih =>
    obtain ⟨hfits, hrest⟩ := encodeLoop_cons_ok h
    have hpos := appendBits_wpos_toNat hfits
    have hlen := ih hrest (by rwa [hpos, appendBits_wcap])
    rw [hpos, appendBits_wcap, appendBits_code] at hlen
    rw [List.flatMap_cons, List.length_append]
    omega

theorem execHtCount_success {s t : State} (h : exec .htCount s = .next t) (herr : t.status.errcode = .none) :
    t = afterCount s := by
  rcases execHtCount_next h with ⟨-, rfl⟩ | ⟨-, -, rfl⟩ | ⟨-, -, rfl⟩
  · cases herr
  · cases herr
  · rfl

/-- HE_ENCODE that ends without error has passed its start checks, and the codes of SRC fit DST. -/
theorem execHeEncode_success {s t : State} (h : exec .heEncode s = .next t) (herr : t.status.errcode = .none) :
    EncodeStarts s ∧ ((srcBytes s).flatMap (entry s.code)).length ≤ 8 * s.dstCap.toNat := by
  rcases execHeEncode_next h with ⟨-, rfl⟩ | ⟨-, -, -, rfl⟩ | ⟨-, -, rfl⟩ | ⟨-, -, -, rfl⟩ |
    ⟨⟨hs, hd, ho⟩, hv, he, ⟨c, hl, rfl⟩ | ⟨u, hl, rfl⟩⟩
  · cases herr
  · cases herr
  · cases herr
  · cases herr
  · obtain rfl : c = .none := herr
    rcases encodeLoop_error hl with hc | hc <;> cases hc
  · refine ⟨⟨hs, hd, ho, hv, he⟩, ?_⟩
    simpa using encodeLoop_ok_room hl (Nat.zero_le _)

/-- A count drops the tree whatever it was, and a build makes the one of FREQ. -/
theorem afterBuild_afterCount_tablesOk (s : State) : TablesOk (afterBuild (afterCount s)) :=
  have hcount : TablesOk (afterCount s) := setFreq_tablesOk s rfl
  completion_tablesOk (exec_completion (exec_htBuild _)) hcount

/-- After a count and a build of SRC each of its bytes has a code. -/
theorem coded_afterBuild_afterCount {s : State} {b : Byte} (hb : b ∈ srcBytes s) :
    entry (afterBuild (afterCount s)).code b ≠ [] :=
  ((afterBuild_afterCount_tablesOk s).entry_ne_nil_iff rfl b).2 (mem_symbols.1 (mem_symbols_countBytes_srcBytes.2 hb))

/-- Settles O55: the encoder leaves Pack of the codes of SRC with the tree they come from, and the decoder inverts them. -/
theorem huffmanRoundTrip : Obligations.HuffmanRoundTrip := by
  intro s a b c d cap hcount hcountErr hbuild hencode hencodeErr hrange hapart hcap
  obtain rfl := execHtCount_success hcount hcountErr
  obtain rfl : b = afterBuild (afterCount s) := of_next hbuild
  obtain ⟨⟨hs, hd, ho, hv, he⟩, hroom⟩ := execHeEncode_success hencode hencodeErr
  have hcoded : ∀ x ∈ srcBytes s, entry (afterBuild (afterCount s)).code x ≠ [] := fun x => coded_afterBuild_afterCount
  have htab : TablesOk c := completion_tablesOk (exec_completion hencode) (afterBuild_afterCount_tablesOk s)
  obtain ⟨c', hencode', hc, ⟨hpos, -, -⟩, hlen, hpack, -⟩ := heEncodeWritesThePackedCodes (afterBuild (afterCount s)) _
    hs hd ho hv (mt (emptyInput_iff _).2 (Bool.eq_false_iff.1 he)) hcoded rfl hroom
  obtain rfl : c = c' := of_next (hencode'.symm.trans hencode)
  have hparams : c.params = s.params := (congrArg State.params hc).trans rfl
  have hvalid : c.treeValid = true := (congrArg State.treeValid hc).trans rfl
  have hcode : c.code = (afterBuild (afterCount s)).code := (congrArg State.code hc).trans rfl
  have hcnt : c.bitcnt = c.wpos := congrArg State.bitcnt hc
  rw [← hcode] at hcoded hpos hlen hpack
  have hbits : c.bitcnt.toNat = ((srcBytes s).flatMap (entry c.code)).length := hcnt ▸ hpos
  have hsrc : s.dstAddr.toNat + c.outLen.toNat ≤ c.params.dmemSize := by
    have hfit : s.dstAddr.toNat + s.dstCap.toNat ≤ s.params.dmemSize := of_decide_eq_true hd
    have hle : c.wpos.toNat ≤ 8 * s.dstCap.toNat := by rwa [hpos, hcode]
    rw [hparams, hlen, ← hpos, ceil8]
    omega
  obtain ⟨t, hexec, ht, hout, hread, -⟩ := hdDecodeInvertsTheCodes
    { c with srcAddr := s.dstAddr, srcLen := c.outLen, dstAddr := d, dstCap := cap } (srcBytes s) htab hvalid
    (decide_eq_true hsrc) (hparams ▸ hrange) hapart hcoded hbits (hbits ▸ hlen.ge) (hbits ▸ hpack)
    ((readBytes_length _ _ _).trans_le hcap)
  rw [srcBytes, readBytes_length] at hout hread
  exact ⟨t, hexec, (congrArg (fun x => x.status.errcode) ht).trans rfl, BitVec.eq_of_toNat_eq hout, hread⟩

end Sys2Proof.Machine
end

section
/-! LongestMatch (spec/44_lz77_matcher.md R161), the greedy tokenizer (R160, R162, R164) and the replay of its tokens (R163), for
every input. -/

namespace Sys2Proof.Machine

open Sys2Proof

/-! ### The match at one offset (R161) -/

/-- The inner loop counts the bytes that agree: it reaches `len` exactly where no byte before `len` stops it. -/
theorem le_matchFrom_iff {byte : Nat → Byte} {pos off fuel l len : Nat} :
    len ≤ matchFrom byte pos off fuel l ↔
      len ≤ l + fuel ∧ ∀ j, l ≤ j → j < len → byte (pos - off + j) = byte (pos + j) := by
  induction fuel generalizing l with
  | zero => exact ⟨fun h => ⟨h, fun j hl hj => absurd (hl.trans_lt hj) (Nat.not_lt.2 h)⟩, And.left⟩
  | succ fuel ih =>
    rw [matchFrom]
    split
    · rename_i hbyte
      rw [ih, Nat.add_right_comm l 1 fuel]
      refine and_congr_right fun _ => ⟨fun h j hl hj => ?_, fun h j hl => h j (Nat.le_of_succ_le hl)⟩
      rcases hl.eq_or_lt with rfl | hl
      · exact hbyte
      · exact h j hl hj
    · rename_i hbyte
      refine ⟨fun h => ⟨by omega, fun j hl hj => absurd (hl.trans_lt hj) (Nat.not_lt.2 h)⟩, fun ⟨_, h⟩ => ?_⟩
      exact Nat.not_lt.1 fun hlt => hbyte (h l le_rfl hlt)

/-- The matches at an offset are those no longer than the match length. -/
theorem isMatch_iff_le_matchLen {byte : Nat → Byte} {n k pos off len : Nat} (hpos : pos ≤ n) :
    IsMatch byte n k pos off len ↔ len ≤ matchLen byte n k pos off := by
  have hbound : len ≤ 0 + min k (n - pos) ↔ len ≤ k ∧ pos + len ≤ n := by omega
  rw [matchLen, le_matchFrom_iff, hbound, IsMatch, and_assoc]
  simp

/-! ### The longest match over the window (R161) -/

/-- `best` is the result of R161 over the offsets 1 .. w: the match at its offset, if any, as long as the match at every other
offset and longer than those at nearer ones. -/
structure IsLongest (byte : Nat → Byte) (n k pos w : Nat) (best : Nat × Nat) : Prop where
  attained : best = (0, 0) ∨ 1 ≤ best.1 ∧ best.1 ≤ w ∧ 0 < best.2 ∧ matchLen byte n k pos best.1 = best.2
  longest : ∀ off, 1 ≤ off → off ≤ w → matchLen byte n k pos off ≤ best.2
  nearest : ∀ off, 1 ≤ off → off < best.1 → matchLen byte n k pos off < best.2

theorem longestUpTo_isLongest (byte : Nat → Byte) (n k pos w : Nat) :
    IsLongest byte n k pos w (longestUpTo byte n k pos w) := by
  induction w with
  | zero => exact ⟨.inl rfl, fun off h1 h0 => by omega, fun off _ h => absurd h (Nat.not_lt_zero _)⟩
  | succ w ih =>
    obtain ⟨hattained, hlongest, hnearest⟩ := ih
    simp only [longestUpTo]
    split
    · rename_i hlonger
      have hbelow : ∀ off, 1 ≤ off → off ≤ w → matchLen byte n k pos off < matchLen byte n k pos (w + 1) :=
        fun off h1 hw => (hlongest off h1 hw).trans_lt hlonger
      refine ⟨.inr ⟨by simp, le_rfl, Nat.zero_lt_of_lt hlonger, rfl⟩, fun off h1 hw => ?_,
        fun off h1 hw => hbelow off h1 (Nat.le_of_lt_succ hw)⟩
      rcases hw.eq_or_lt with rfl | hw
      · exact le_rfl
      · exact (hbelow off h1 (Nat.le_of_lt_succ hw)).le
    · rename_i hlonger
      refine ⟨hattained.imp_right fun ⟨h1, hw, h⟩ => ⟨h1, hw.trans (Nat.le_succ w), h⟩, fun off h1 hw => ?_, hnearest⟩
      rcases hw.eq_or_lt with rfl | hw
      · exact Nat.not_lt.1 hlonger
      · exact hlongest off h1 (Nat.le_of_lt_succ hw)

theorem longestMatch_isLongest (byte : Nat → Byte) (n w k pos : Nat) :
    IsLongest byte n k pos (min w pos) (longestMatch byte n w k pos) := longestUpTo_isLongest _ _ _ _ _

/-- The result of R161 is a match also where it is empty, as the empty match is one at every offset. -/
theorem longestMatch_isMatch {byte : Nat → Byte} {n w k pos : Nat} (hpos : pos ≤ n) :
    IsMatch byte n k pos (longestMatch byte n w k pos).1 (longestMatch byte n w k pos).2 := by
  rw [isMatch_iff_le_matchLen hpos]
  rcases (longestMatch_isLongest byte n w k pos).attained with h0 | ⟨-, -, -, heq⟩
  · simp [h0]
  · exact heq.ge

theorem longestMatch_off_le (byte : Nat → Byte) (n w k pos : Nat) : (longestMatch byte n w k pos).1 ≤ min w pos := by
  rcases (longestMatch_isLongest byte n w k pos).attained with h0 | ⟨-, hw, -⟩
  · simp [h0]
  · exact hw

theorem longestMatch_off_pos_iff (byte : Nat → Byte) (n w k pos : Nat) :
    1 ≤ (longestMatch byte n w k pos).1 ↔ 1 ≤ (longestMatch byte n w k pos).2 := by
  rcases (longestMatch_isLongest byte n w k pos).attained with h0 | ⟨h1, -, hlen, -⟩
  · simp [h0]
  · exact iff_of_true h1 hlen

/-- Settles O58: the matches at an offset are those up to its match length, and the outer loop keeps the first offset at which the
greatest match length occurs. -/
theorem longestMatchIsLongestAndNearest : Obligations.LongestMatchIsLongestAndNearest := by
  intro byte n w k pos hpos
  have hbest := longestMatch_isLongest byte n w k pos
  have hoff := longestMatch_off_pos_iff byte n w k pos
  refine ⟨fun hlen => ⟨hoff.2 hlen, longestMatch_off_le byte n w k pos, longestMatch_isMatch hpos.le⟩, fun h0 => by omega,
    fun off len h1 hw hmatch => ?_⟩
  have hlen := (isMatch_iff_le_matchLen hpos.le).1 hmatch
  refine ⟨hlen.trans (hbest.longest off h1 hw), fun _ heq => Nat.not_lt.1 fun hnear => ?_⟩
  exact absurd (hbest.nearest off h1 hnear) (Nat.not_lt.2 (heq ▸ hlen))

/-! ### The greedy tokens (R160, R162, R164) -/

/-- The token at input position `pos`: the longest match there, and the byte after it where there is one. -/
def tokenAt (byte : Nat → Byte) (n w k pos : Nat) : Token :=
  let best := longestMatch byte n w k pos
  ⟨best.1, best.2, if pos + best.2 < n then some (byte (pos + best.2)) else none⟩

/-- The tokens of the input from position `pos` on, each the one at its position and the next after it (R164). -/
inductive Greedy (byte : Nat → Byte) (n w k : Nat) : Nat → List Token → Prop
  | done {pos : Nat} (hpos : n ≤ pos) : Greedy byte n w k pos []
  | token {pos : Nat} {ts : List Token} (hpos : pos < n)
      (hrest : Greedy byte n w k (pos + (tokenAt byte n w k pos).len + 1) ts) :
      Greedy byte n w k pos (tokenAt byte n w k pos :: ts)

theorem tokenizeFrom_greedy {byte : Nat → Byte} {n w k fuel pos : Nat} (hfuel : n ≤ pos + fuel) :
    Greedy byte n w k pos (tokenizeFrom byte n w k fuel pos) := by
  induction fuel generalizing pos with
  | zero => exact .done hfuel
  | succ fuel ih =>
    rw [tokenizeFrom]
    split
    · rename_i hpos; exact .done hpos
    · rename_i hpos; exact .token (Nat.lt_of_not_le hpos) (ih (by omega))

theorem tokenize_greedy (byte : Nat → Byte) (n w k : Nat) : Greedy byte n w k 0 (tokenize byte n w k) :=
  tokenizeFrom_greedy (Nat.le_add_left n 0)

theorem tokenAt_len_le {byte : Nat → Byte} {n w k pos : Nat} (hpos : pos ≤ n) :
    (tokenAt byte n w k pos).len ≤ min k (n - pos) := by
  obtain ⟨hk, hn, -⟩ : IsMatch byte n k pos _ (tokenAt byte n w k pos).len := longestMatch_isMatch hpos
  omega

theorem tokenAt_lit_of_lt {byte : Nat → Byte} {n w k pos : Nat} (h : pos + (tokenAt byte n w k pos).len < n) :
    (tokenAt byte n w k pos).lit = some (byte (pos + (tokenAt byte n w k pos).len)) := if_pos h

theorem tokenAt_lit_of_le {byte : Nat → Byte} {n w k pos : Nat} (h : n ≤ pos + (tokenAt byte n w k pos).len) :
    (tokenAt byte n w k pos).lit = none := if_neg (Nat.not_lt.2 h)

/-- A token has no literal exactly where its match ends with the input, and else the byte after the match (R162). -/
theorem tokenAt_lit_spec {byte : Nat → Byte} {n w k pos : Nat} (hpos : pos ≤ n) :
    ((tokenAt byte n w k pos).lit = none ↔ pos + (tokenAt byte n w k pos).len = n) ∧
      ∀ c, (tokenAt byte n w k pos).lit = some c → c = byte (pos + (tokenAt byte n w k pos).len) := by
  have hlen := tokenAt_len_le (byte := byte) (w := w) (k := k) hpos
  rcases Nat.lt_or_ge (pos + (tokenAt byte n w k pos).len) n with hlt | hge
  · rw [tokenAt_lit_of_lt hlt]
    exact ⟨iff_of_false nofun hlt.ne, fun c hc => (Option.some.inj hc).symm⟩
  · rw [tokenAt_lit_of_le hge]
    exact ⟨iff_of_true rfl (by omega), nofun⟩

section Tokens

variable {byte : Nat → Byte} {n w k pos : Nat} {ts : List Token} (h : Greedy byte n w k pos ts)

include h

theorem Greedy.length_le : ts.length ≤ n - pos := by
  induction h with
  | done => exact Nat.zero_le _
  | token => rw [List.length_cons]; omega

/-- Match and literal bytes cover the rest of the input exactly once. -/
theorem Greedy.sum_covered : (ts.map (fun t => t.len + t.lit.toList.length)).sum = n - pos := by
  induction h with
  | done hpos => exact (Nat.sub_eq_zero_of_le hpos).symm
  | @token pos ts hpos _ ih =>
    have hlen := tokenAt_len_le (byte := byte) (w := w) (k := k) hpos.le
    rw [List.map_cons, List.sum_cons, ih]
    rcases Nat.lt_or_ge (pos + (tokenAt byte n w k pos).len) n with hlt | hge
    · simp only [tokenAt_lit_of_lt hlt, Option.toList_some, List.length_singleton]; omega
    · simp only [tokenAt_lit_of_le hge, Option.toList_none, List.length_nil]; omega

theorem Greedy.getElem? {i : Nat} {tok : Token} (hi : ts[i]? = some tok) :
    pos + tokenPos ts i < n ∧ tok = tokenAt byte n w k (pos + tokenPos ts i) := by
  induction h generalizing i with
  | done => cases hi
  | @token pos ts hpos _ ih =>
    cases i with
    | zero => exact ⟨hpos, (Option.some.inj hi).symm⟩
    | succ i =>
      have hstep : pos + tokenPos (tokenAt byte n w k pos :: ts) (i + 1) =
          pos + (tokenAt byte n w k pos).len + 1 + tokenPos ts i := by
        simp only [tokenPos, List.take_succ_cons, List.map_cons, List.sum_cons, ← Nat.add_assoc]
      rw [hstep]
      exact ih hi

end Tokens

/-- Settles O57: the tokens are the greedy ones from position 0, and each is the longest match at its position. -/
theorem tokenInvariants : Obligations.TokenInvariants := by
  intro byte n w k
  have hgreedy := tokenize_greedy byte n w k
  refine ⟨hgreedy.length_le, hgreedy.sum_covered, fun i tok hi => ?_⟩
  obtain ⟨hpos, rfl⟩ := hgreedy.getElem? hi
  rw [Nat.zero_add] at hpos ⊢
  exact ⟨hpos, rfl, longestMatch_off_pos_iff _ _ _ _ _, longestMatch_off_le _ _ _ _ _, tokenAt_len_le hpos.le,
    tokenAt_lit_spec hpos.le⟩

/-! ### The replay (R163) -/

/-- The first `p` bytes of the input. -/
def firstBytes (byte : Nat → Byte) (p : Nat) : List Byte := (List.range p).map byte

theorem firstBytes_succ (byte : Nat → Byte) (p : Nat) : firstBytes byte (p + 1) = firstBytes byte p ++ [byte p] := by
  simp [firstBytes, List.range_succ]

/-- The copy byte by byte from the output so far writes the bytes of a match, also where it runs into what it writes. -/
theorem copyBack_firstBytes {byte : Nat → Byte} {off len p : Nat} (h1 : 1 ≤ off) (hp : off ≤ p)
    (hbyte : ∀ j, j < len → byte (p - off + j) = byte (p + j)) :
    copyBack off len (firstBytes byte p) = firstBytes byte (p + len) := by
  induction len generalizing p with
  | zero => rfl
  | succ len ih =>
    have hback : (firstBytes byte p).getD ((firstBytes byte p).length - off) 0 = byte p := by
      have hlt : p - off < p := by omega
      simpa [firstBytes, hlt] using hbyte 0 len.succ_pos
    have hrest : ∀ j, j < len → byte (p + 1 - off + j) = byte (p + 1 + j) := fun j hj => by
      have hnext := hbyte (j + 1) (Nat.succ_lt_succ hj)
      rwa [show p - off + (j + 1) = p + 1 - off + j by omega, show p + (j + 1) = p + 1 + j by omega] at hnext
    rw [copyBack, hback, ← firstBytes_succ, ih (hp.trans p.le_succ) hrest, Nat.succ_add_eq_add_succ]

theorem copyBack_tokenAt {byte : Nat → Byte} {n w k pos : Nat} (hpos : pos ≤ n) :
    copyBack (tokenAt byte n w k pos).off (tokenAt byte n w k pos).len (firstBytes byte pos) =
      firstBytes byte (pos + (tokenAt byte n w k pos).len) := by
  obtain ⟨-, -, hbyte⟩ : IsMatch byte n k pos (tokenAt byte n w k pos).off (tokenAt byte n w k pos).len :=
    longestMatch_isMatch hpos
  have hoff : 1 ≤ (tokenAt byte n w k pos).off ↔ 1 ≤ (tokenAt byte n w k pos).len := longestMatch_off_pos_iff _ _ _ _ _
  have hwindow : (tokenAt byte n w k pos).off ≤ min w pos := longestMatch_off_le _ _ _ _ _
  rcases Nat.eq_zero_or_pos (tokenAt byte n w k pos).len with h0 | hlen
  · rw [h0]; rfl
  · exact copyBack_firstBytes (hoff.2 hlen) (hwindow.trans (min_le_right _ _)) hbyte

/-- A token takes the output from the bytes before its position to those before the next, or to the end of the input. -/
theorem copyBack_tokenAt_lit {byte : Nat → Byte} {n w k pos : Nat} (hpos : pos ≤ n) :
    copyBack (tokenAt byte n w k pos).off (tokenAt byte n w k pos).len (firstBytes byte pos) ++
        (tokenAt byte n w k pos).lit.toList =
      firstBytes byte (min (pos + (tokenAt byte n w k pos).len + 1) n) := by
  have hlen := tokenAt_len_le (byte := byte) (w := w) (k := k) hpos
  rw [copyBack_tokenAt hpos]
  rcases Nat.lt_or_ge (pos + (tokenAt byte n w k pos).len) n with hlt | hge
  · rw [tokenAt_lit_of_lt hlt, Nat.min_eq_left hlt, firstBytes_succ, Option.toList_some]
  · rw [tokenAt_lit_of_le hge, Option.toList_none, List.append_nil, Nat.min_eq_right (by omega)]
    congr 1
    omega

/-- The last token may end with the input, one byte before the position after it, so the output is bounded by the input. -/
theorem Greedy.replay_eq {byte : Nat → Byte} {n w k pos : Nat} {ts : List Token} (h : Greedy byte n w k pos ts) :
    replay ts (firstBytes byte (min pos n)) = firstBytes byte n := by
  induction h with
  | done hpos => rw [Nat.min_eq_right hpos, replay]
  | token hpos _ ih => rw [Nat.min_eq_left hpos.le, replay, copyBack_tokenAt_lit hpos.le, ih]

theorem replay_tokenize (byte : Nat → Byte) (n w k : Nat) : replay (tokenize byte n w k) [] = firstBytes byte n := by
  have h := (tokenize_greedy byte n w k).replay_eq
  rwa [Nat.zero_min] at h

end Sys2Proof.Machine
end

section
/-! LZ_MATCH (spec/44_lz77_matcher.md R160): the token records it writes (spec/20_memory.md R65), and their replay (R163). -/

namespace Sys2Proof.Machine

open Sys2Proof

/-! ### The records in memory (R65) -/

/-- The four fields of a record, where its two numbers fit 32 bits. -/
theorem fields_of_readBytes_eq_record {m : Memory} {a : Nat} {tok : Token} (hoff : tok.off < 2 ^ 32) (hlen : tok.len < 2 ^ 32)
    (h : Memory.readBytes m a 10 = tok.record) :
    memRead m a 4 = tok.off ∧ memRead m (a + 4) 4 = tok.len ∧
      Memory.read m (a + 8) = (if tok.lit.isSome then 1 else 0) ∧ Memory.read m (a + 9) = tok.lit.getD 0 := by
  have hsplit : Memory.readBytes m a 10 = Memory.readBytes m a 4 ++ Memory.readBytes m (a + 4) 4 ++
      [Memory.read m (a + 8), Memory.read m (a + 9)] := by
    rw [show 10 = 4 + 4 + 2 from rfl, readBytes_append, readBytes_append]
    rfl
  have hrec : tok.record = leBytes 4 tok.off ++ leBytes 4 tok.len ++
      [if tok.lit.isSome then 1 else 0, tok.lit.getD 0] := by
    unfold Token.record
    cases tok.lit <;> rfl
  rw [hsplit, hrec] at h
  obtain ⟨hnumbers, hlit⟩ := List.append_inj h (by simp)
  obtain ⟨hoffBytes, hlenBytes⟩ := List.append_inj hnumbers (by simp)
  obtain ⟨hflag, hbyte⟩ := List.cons.inj hlit
  exact ⟨(readBytes_eq_leBytes_iff hoff).1 hoffBytes, (readBytes_eq_leBytes_iff hlen).1 hlenBytes, hflag,
    (List.cons.inj hbyte).1⟩

/-- Of the records of tokens in memory, the i-th stands 10 · i bytes on. -/
theorem readBytes_eq_record_of_getElem? {m : Memory} {a i : Nat} {ts : List Token} {tok : Token}
    (h : Memory.readBytes m a (10 * ts.length) = ts.flatMap Token.record) (hi : ts[i]? = some tok) :
    Memory.readBytes m (a + 10 * i) 10 = tok.record := by
  induction ts generalizing a i with
  | nil => cases hi
  | cons t ts ih =>
    rw [List.length_cons, Nat.mul_succ, Nat.add_comm, readBytes_append, List.flatMap_cons] at h
    obtain ⟨hfirst, hrest⟩ := List.append_inj h (by simp)
    cases i with
    | zero => rw [← Option.some.inj hi]; exact hfirst
    | succ i =>
      have hnext := ih hrest hi
      rwa [show a + 10 + 10 * i = a + 10 * (i + 1) by omega] at hnext

/-! ### The two ends of LZ_MATCH (R160) -/

/-- LZ_MATCH's start checks pass (R160). -/
structure MatchStarts (s : State) : Prop where
  ranges : RangesOk s
  window : s.lzWindow.toNat ≤ s.params.windowMax
  lookahead : s.lzLookahead.toNat ≤ s.params.lookaheadMax

/-- The state in which LZ_MATCH leaves the machine when the records fit. -/
def afterMatch (s : State) : State :=
  complete .none { putOutput s.dstAddr.toNat ((srcTokens s).flatMap Token.record)
    (BitVec.ofNat 32 (10 * (srcTokens s).length)) s with tokcnt := BitVec.ofNat 32 (srcTokens s).length }

theorem MatchStarts.exec_of_room {s : State} (h : MatchStarts s) (hroom : 10 * (srcTokens s).length ≤ s.dstCap.toNat) :
    exec .lzMatch s = .next (afterMatch s) := by
  obtain ⟨⟨hs, hd, ho⟩, hw, hk⟩ := h
  have hparams : ¬(s.params.windowMax < s.lzWindow.toNat ∨ s.params.lookaheadMax < s.lzLookahead.toNat) := by omega
  simp only [exec, execLzMatch, hs, hd, ho, if_neg hparams, if_neg (Nat.not_lt.2 hroom)]
  rfl

theorem MatchStarts.exec_of_full {s : State} (h : MatchStarts s) (hfull : s.dstCap.toNat < 10 * (srcTokens s).length) :
    exec .lzMatch s = .next (complete .capacity (havocMatch s)) := by
  obtain ⟨⟨hs, hd, ho⟩, hw, hk⟩ := h
  have hparams : ¬(s.params.windowMax < s.lzWindow.toNat ∨ s.params.lookaheadMax < s.lzLookahead.toNat) := by omega
  simp only [exec, execLzMatch, hs, hd, ho, if_neg hparams, if_pos hfull]
  rfl

/-- LZ_MATCH that ends without error has found room for the records. -/
theorem execLzMatch_success {s t : State} (h : exec .lzMatch s = .next t) (herr : t.status.errcode = .none) :
    10 * (srcTokens s).length ≤ s.dstCap.toNat ∧ t = afterMatch s := by
  rcases execLzMatch_next h with ⟨-, rfl⟩ | ⟨-, -, -, rfl⟩ | ⟨-, -, rfl⟩ | ⟨-, -, -, ⟨-, rfl⟩ | ⟨hroom, rfl⟩⟩
  · cases herr
  · cases herr
  · cases herr
  · cases herr
  · exact ⟨hroom, rfl⟩

/-! ### What a success writes -/

theorem afterMatch_tokcnt {s : State} (h : 10 * (srcTokens s).length ≤ s.dstCap.toNat) :
    (afterMatch s).tokcnt.toNat = (srcTokens s).length := by
  have hcap := s.dstCap.isLt
  exact (BitVec.toNat_ofNat _ _).trans (Nat.mod_eq_of_lt (by omega))

theorem afterMatch_outLen {s : State} (h : 10 * (srcTokens s).length ≤ s.dstCap.toNat) :
    (afterMatch s).outLen.toNat = 10 * (srcTokens s).length :=
  (BitVec.toNat_ofNat _ _).trans (Nat.mod_eq_of_lt (h.trans_lt s.dstCap.isLt))

theorem afterMatch_readBytes (s : State) :
    Memory.readBytes (afterMatch s).dmem s.dstAddr.toNat (10 * (srcTokens s).length) =
      (srcTokens s).flatMap Token.record := by
  rw [← flatMap_record_length]
  exact readBytes_writeBytes _ _ _

theorem afterMatch_sameOutside (s : State) :
    SameOutside s.dmem (afterMatch s).dmem s.dstAddr.toNat (10 * (srcTokens s).length) := fun _ hx =>
  read_writeBytes_outside _ _ (by rwa [flatMap_record_length])

/-- Offset and length of a token are bounded by LZ_WINDOW and by SRC_LEN, so a record's fields hold them (R65). -/
theorem srcTokens_fit {s : State} {i : Nat} {tok : Token} (h : (srcTokens s)[i]? = some tok) :
    tok.off < 2 ^ 32 ∧ tok.len < 2 ^ 32 := by
  obtain ⟨-, -, htok⟩ := tokenInvariants (srcByte s) s.srcLen.toNat s.lzWindow.toNat s.lzLookahead.toNat
  obtain ⟨-, -, -, hoff, hlen, -⟩ := htok i tok h
  have hw := s.lzWindow.isLt
  have hk := s.lzLookahead.isLt
  omega

/-- Settles O56: the success writes the records of the tokens and nothing else, and without room the end is CAPACITY. -/
theorem lzMatchWritesTheTokens : Obligations.LzMatchWritesTheTokens := by
  intro s toks hs hd ho hw hk htoks
  obtain rfl : toks = srcTokens s := htoks
  have hstart : MatchStarts s := ⟨⟨hs, hd, ho⟩, hw, hk⟩
  refine ⟨fun hroom => ⟨afterMatch s, hstart.exec_of_room hroom, rfl, afterMatch_tokcnt hroom, afterMatch_outLen hroom,
    fun i tok hi => ?_, afterMatch_sameOutside s⟩, fun hfull => ⟨_, hstart.exec_of_full hfull, rfl⟩⟩
  obtain ⟨hoff, hlen⟩ := srcTokens_fit hi
  exact fields_of_readBytes_eq_record hoff hlen (readBytes_eq_record_of_getElem? (afterMatch_readBytes s) hi)

/-- Settles O59: a success leaves the records of the greedy tokens of SRC, and those replay to SRC. -/
theorem replayOfTheTokensIsTheInput : Obligations.ReplayOfTheTokensIsTheInput := by
  intro s t hexec herr
  obtain ⟨hroom, rfl⟩ := execLzMatch_success hexec herr
  refine ⟨srcTokens s, afterMatch_tokcnt hroom, afterMatch_readBytes s, ?_⟩
  rw [srcBytes, readBytes_eq_map]
  exact replay_tokenize (srcByte s) _ _ _

end Sys2Proof.Machine
end

section
/-! Every command completes (spec/60_exceptions.md R180, R182): each check of a command either raises its code or goes on, and the
walk of HD_DECODE meets no index without a node in a tree that BuildTree made (spec/10_state.md R41, R42). -/

namespace Sys2Proof.Machine

open Sys2Proof

/-! ### STATUS after a command -/

/-- A command changes STATUS as completion with some code says, and nothing in it but that; BUSY reads 0 (R182). -/
theorem exec_status {i : Instr} {s t : State} (h : exec i s = .next t) :
    t.busy = false ∧ ∃ c, t.status = (complete c s).status := by
  cases exec_completion h with
  | put n => exact ⟨rfl, .none, by simp⟩
  | encoded u _ hl =>
    obtain ⟨m, p, b, rfl⟩ := encodeLoop_frame hl
    exact ⟨rfl, .none, rfl⟩
  | _ => exact ⟨rfl, _, rfl⟩

/-! ### The decoder's walk (spec/43_huffman_decoder.md R150) -/

@[simp] theorem emit_eq_noNode {b : Byte} {w : WalkEnd} {i : Nat} : w.emit b = .noNode i ↔ w = .noNode i := by
  cases w <;> simp [WalkEnd.emit]

theorem walkLeaf_ne_noNode (sym : Byte) (bits : List Bool) (room i : Nat) : walkLeaf sym bits room ≠ .noNode i := by
  induction bits generalizing room with
  | nil => nofun
  | cons bit bits ih =>
    cases bit with
    | true => nofun
    | false =>
      cases room with
      | zero => nofun
      | succ room => exact mt emit_eq_noNode.1 (ih room)

section Arena

variable {nodes : List Node}
  (hold : ∀ (k : Nat) (w : DWord) (l r : Nat), nodes[k]? = some (.internal w l r) → l < k ∧ r < k)

include hold

/-- Children are older than their parents, so every bit leads to a node; a leaf leads back to the root, and the walk never stands
at one. -/
theorem walkTree_ne_noNode {root cur l r l' r' : Nat} {w w' : DWord} (hroot : nodes[root]? = some (.internal w l r))
    (hcur : nodes[cur]? = some (.internal w' l' r')) (bits : List Bool) (room i : Nat) :
    walkTree nodes root bits cur room ≠ .noNode i := by
  induction bits generalizing cur room w' l' r' with
  | nil =>
    rw [walkTree]
    split <;> nofun
  | cons bit bits ih =>
    obtain ⟨hlen, -⟩ := List.getElem?_eq_some_iff.1 hcur
    obtain ⟨hl, hr⟩ := hold _ _ _ _ hcur
    have hnext : (if bit then r' else l') < nodes.length := by split <;> omega
    rw [walkTree, hcur]
    cases hnode : nodes[if bit then r' else l']? with
    | none => exact absurd hnext (Nat.not_lt.2 (List.getElem?_eq_none_iff.1 hnode))
    | some x =>
      cases x with
      | internal => simpa only [hnode] using ih hnode room
      | leaf =>
        cases room with
        | zero => simp [hnode]
        | succ room => simpa [hnode] using ih hroot room

/-- The decoder meets no index without a node when it starts at the arena's last node. -/
theorem decodeBits_ne_noNode (bits : List Bool) (room i : Nat) : decodeBits nodes (rootOf nodes) bits room ≠ .noNode i := by
  by_cases hne : nodes = []
  · rw [rootOf, if_pos hne]
    nofun
  · rw [rootOf, if_neg hne, decodeBits]
    cases hnode : nodes[nodes.length - 1]? with
    | none =>
      have hpos := List.length_pos_iff.2 hne
      have hend := List.getElem?_eq_none_iff.1 hnode
      omega
    | some x =>
      cases x with
      | leaf => exact walkLeaf_ne_noNode _ bits room i
      | internal => exact walkTree_ne_noNode hold hnode hnode bits room i

end Arena

/-- With the tables right, HD_DECODE's walk ends in bytes or in an error (R41, R42). -/
theorem TablesOk.srcWalk_ne_noNode {s : State} (h : TablesOk s) (hv : s.treeValid = true) (i : Nat) :
    srcWalk s ≠ .noNode i := by
  obtain ⟨htree, hroot, -⟩ := h.of_valid hv
  obtain ⟨_, -, harena, -⟩ := buildNodes_arena s.freq
  rw [srcWalk, hroot, htree]
  exact decodeBits_ne_noNode harena.older _ _ i

/-! ### Answers -/

/-- A command's answer is a next state: no fault and no refusal. -/
def Answers (r : Result) : Prop := ∃ t, r = .next t

theorem answers_raise (c : ErrCode) (s : State) : Answers (raise c s) := ⟨_, rfl⟩

theorem answers_finish (s : State) : Answers (finish s) := ⟨_, rfl⟩

/-- A check that raises a code or goes on. -/
theorem answers_check {p : Prop} {inst : Decidable p} {c : ErrCode} {s : State} {r : Result} (h : ¬p → Answers r) :
    Answers (if p then raise c s else r) := by
  split
  · exact answers_raise c s
  · rename_i hp; exact h hp

theorem execHeEncode_answers (s : State) : Answers (execHeEncode s) := by
  refine answers_check fun _ => answers_check fun _ => answers_check fun _ => answers_check fun _ => ?_
  split
  · exact answers_raise _ _
  · exact answers_finish _

/-- The one answer of HD_DECODE that is no next state is the walk's. -/
theorem execHdDecode_answers {s : State} (h : s.treeValid = true → ∀ i, srcWalk s ≠ .noNode i) :
    Answers (execHdDecode s) := by
  refine answers_check fun _ => answers_check fun _ => answers_check fun hv =>
    answers_check fun _ => answers_check fun _ => ?_
  split
  · exact answers_raise _ _
  · rename_i i hwalk; exact absurd hwalk (h (by simpa using hv) i)
  · exact answers_finish _

theorem exec_answers {i : Instr} {s : State} (h : i = .hdDecode → TablesOk s) : Answers (exec i s) := by
  cases i with
  | bpWinit => exact answers_check fun _ => answers_finish _
  | bpPut n => exact answers_check fun _ => answers_check fun _ => answers_finish _
  | bpFlush => exact answers_finish _
  | bpRinit => exact answers_check fun _ => answers_check fun _ => answers_finish _
  | bpGet n => exact answers_check fun _ => answers_check fun _ => answers_finish _
  | htCount => exact answers_check fun _ => answers_check fun _ => answers_finish _
  | htBuild => exact answers_finish _
  | htLoadmeta => exact execHtLoadmeta_completes s
  | htStoremeta => exact answers_check fun _ => answers_check fun _ => answers_finish _
  | heEncode => exact execHeEncode_answers s
  | hdDecode => exact execHdDecode_answers (h rfl).srcWalk_ne_noNode
  | lzMatch =>
    exact answers_check fun _ => answers_check fun _ => answers_check fun _ => answers_check fun _ => answers_finish _

/-- Settles O29: every check raises or goes on, the walk of HD_DECODE finds every node, and what is answered is completed. -/
theorem everyCommandCompletes : Obligations.EveryCommandCompletes := by
  intro i s htab
  obtain ⟨t, ht⟩ := exec_answers htab
  obtain ⟨hbusy, c, hstatus⟩ := exec_status ht
  exact ⟨t, ht, hbusy, congrArg Status.done hstatus⟩

end Sys2Proof.Machine
end

section
/-! How STATUS records a completion (spec/60_exceptions.md R182, spec/10_state.md R27), and what an error leaves unchanged: start
errors (R183), run errors (R184), and the order of the start checks (R187). -/

namespace Sys2Proof.Machine

open Sys2Proof

/-! ### The fields of STATUS (R27, R185) -/

theorem isError_iff (c : ErrCode) : c.isError = true ↔ c.code ≠ 0 := by cases c <;> decide

theorem getLsbD_of_toNat {w : Word} {k : Nat} {b : Bool} (h : w.toNat / 2 ^ k % 2 = b.toNat) : w.getLsbD k = b := by
  rw [BitVec.getLsbD, Nat.testBit_eq_decide_div_mod_eq, h]
  cases b <;> rfl

theorem extractLsb'_of_toNat {w : Word} {k n : Nat} {v : BitVec n} (h : w.toNat / 2 ^ k % 2 ^ n = v.toNat) :
    w.extractLsb' k n = v :=
  BitVec.eq_of_toNat_eq (by rw [BitVec.extractLsb'_toNat, Nat.shiftRight_eq_div_pow, h])

theorem extractLsb'_eq_zero {w : Word} {k n : Nat} (h : w.toNat / 2 ^ k % 2 ^ n = 0) : w.extractLsb' k n = 0 :=
  extractLsb'_of_toNat (h.trans BitVec.toNat_zero.symm)

/-- Each field stands in STATUS at the place of R27, and the bits between the fields are 0. -/
theorem statusWord_fields (s : State) :
    (statusWord s).getLsbD 0 = s.busy ∧ (statusWord s).getLsbD 1 = s.status.done ∧ (statusWord s).getLsbD 2 = s.status.err ∧
    (statusWord s).getLsbD 3 = s.status.anyerr ∧ (statusWord s).getLsbD 4 = s.status.ovr ∧
    (statusWord s).extractLsb' 5 3 = 0 ∧ (statusWord s).extractLsb' 8 4 = s.status.errcode.code ∧
    (statusWord s).extractLsb' 12 4 = 0 ∧ (statusWord s).extractLsb' 16 8 = s.status.lastop ∧
    (statusWord s).extractLsb' 24 8 = 0 := by
  have hword : (statusWord s).toNat = _ := BitVec.toNat_ofNat _ _
  have hbusy := s.busy.toNat_le
  have hdone := s.status.done.toNat_le
  have herr := s.status.err.toNat_le
  have hany := s.status.anyerr.toNat_le
  have hovr := s.status.ovr.toNat_le
  have hcode := s.status.errcode.code.isLt
  have hop := s.status.lastop.isLt
  refine ⟨getLsbD_of_toNat ?_, getLsbD_of_toNat ?_, getLsbD_of_toNat ?_, getLsbD_of_toNat ?_, getLsbD_of_toNat ?_,
    extractLsb'_eq_zero ?_, extractLsb'_of_toNat ?_, extractLsb'_eq_zero ?_, extractLsb'_of_toNat ?_,
    extractLsb'_eq_zero ?_⟩ <;> omega

/-- Settles O8: a command changes STATUS as completion with its code does, and each field of the word has its own bits. -/
theorem completionRecordsTheCode : Obligations.CompletionRecordsTheCode := by
  refine ⟨fun i s t h => ?_, statusWord_fields, rfl, rfl, rfl, rfl, rfl, rfl, rfl, rfl, rfl⟩
  obtain ⟨hbusy, c, hstatus⟩ := exec_status h
  rw [hstatus, complete_status]
  exact ⟨hbusy, rfl, isError_iff c, by rw [Bool.or_eq_true, isError_iff], rfl, rfl⟩

/-! ### Start errors (R183) -/

/-- Settles O22: the code of a run error is no start error's, and success has none, so the command stopped at a check. -/
theorem startErrorsChangeOnlyStatus : Obligations.StartErrorsChangeOnlyStatus := by
  refine ⟨fun i s t h hstart => ?_, fun w why s t hd h => ?_⟩
  · cases exec_completion h with
    | stopped i c => rfl
    | encodeFailed c hc =>
      rcases hc with rfl | rfl
      · exact hstart.elim
      · rcases hstart with hi | ⟨n, hi⟩ <;> cases hi
    | decodeFailed c hc hf =>
      rcases hc with rfl | rfl
      · exact hstart.elim (fun hi => absurd rfl hi) (fun hd => absurd hd hf)
      · rcases hstart with hi | ⟨n, hi⟩ <;> cases hi
    | matchFailed => rcases hstart with hi | ⟨n, hi⟩ <;> cases hi
    | _ => exact hstart.elim
  · obtain rfl := of_next ((runWord_illegal hd s).symm.trans h)
    exact ⟨rfl, rfl⟩

/-! ### Run errors (R184) -/

/-- Settles O23: the free values are those of the table, and DMEM outside DST stays as after every command (R71). -/
theorem runErrorsKeepTheRest : Obligations.RunErrorsKeepTheRest := by
  refine fun s t => ⟨fun h herr => ⟨?_, commandsWriteOnlyTheirRange _ s t h⟩,
    fun h _ => ⟨?_, commandsWriteOnlyTheirRange _ s t h⟩, fun h _ => ⟨?_, commandsWriteOnlyTheirRange _ s t h⟩⟩
  · cases exec_completion h with
    | encoded => rcases herr with herr | herr <;> cases herr
    | _ => rfl
  · cases exec_completion h <;> rfl
  · cases exec_completion h <;> rfl

/-! ### The order of the start checks (R187) -/

theorem rangeError_iff (s : State) : RangeError s ↔
    s.params.dmemSize < s.srcAddr.toNat + s.srcLen.toNat ∨ s.params.dmemSize < s.dstAddr.toNat + s.dstCap.toNat := by
  simp [RangeError, srcOK, dstOK, rangeOK]

/-- ADDRESS is the first check of HE_ENCODE, HD_DECODE and LZ_MATCH. -/
theorem exec_of_rangeError {i : Instr} {s : State} (hi : i = .heEncode ∨ i = .hdDecode ∨ i = .lzMatch)
    (h : RangeError s) : exec i s = .next (complete .address s) := by
  have hranges : (!srcOK s || !dstOK s) = true := by simpa [RangeError] using h
  rcases hi with rfl | rfl | rfl
  · exact if_pos hranges
  · exact if_pos hranges
  · exact if_pos hranges

section Exist

variable {s : State} (hs : srcOK s = true) (hd : dstOK s = true)

include hs hd

theorem ranges_exist : ¬(!srcOK s || !dstOK s) = true := by simp [hs, hd]

/-- VALIDATION of the overlap is their second check. -/
theorem exec_of_overlap {i : Instr} (hi : i = .heEncode ∨ i = .hdDecode ∨ i = .lzMatch) (ho : srcDstOverlap s = true) :
    exec i s = .next (complete .validation s) := by
  have hranges := ranges_exist hs hd
  rcases hi with rfl | rfl | rfl
  · exact (if_neg hranges).trans (if_pos ho)
  · exact (if_neg hranges).trans (if_pos ho)
  · exact (if_neg hranges).trans (if_pos ho)

variable (ho : srcDstOverlap s = false)

include ho

/-- STATE is the third check of the two codecs. -/
theorem exec_of_no_tree {i : Instr} (hi : i = .heEncode ∨ i = .hdDecode) (hv : s.treeValid = false) :
    exec i s = .next (complete .state s) := by
  rcases hi with rfl | rfl
  · simp [exec, execHeEncode, hs, hd, ho, hv, raise]
  · simp [exec, execHdDecode, hs, hd, ho, hv, raise]

theorem exec_heEncode_of_emptyInput (hv : s.treeValid = true) (he : emptyInput s = true) :
    exec .heEncode s = .next (complete .empty s) := by
  simp [exec, execHeEncode, hs, hd, ho, hv, he, raise]

theorem exec_hdDecode_of_startFormat (hv : s.treeValid = true) (hf : DecodeStartFormat s) :
    exec .hdDecode s = .next (complete .format s) := by
  rcases hf with hlen | hroot
  · simp [exec, execHdDecode, hs, hd, ho, hv, hlen, raise]
  · simp [exec, execHdDecode, hs, hd, ho, hv, hroot, raise]

theorem exec_lzMatch_of_limits (hp : s.params.windowMax < s.lzWindow.toNat ∨ s.params.lookaheadMax < s.lzLookahead.toNat) :
    exec .lzMatch s = .next (complete .validation s) := by
  simp [exec, execLzMatch, hs, hd, ho, hp, raise]

end Exist

/-- Settles O30: each check by its place in the order. -/
theorem startChecksInPriorityOrder : Obligations.StartChecksInPriorityOrder := fun s =>
  ⟨fun _ hi => ⟨fun h => exec_of_rangeError hi ((rangeError_iff s).2 h), fun hs hd => exec_of_overlap hs hd hi⟩,
    fun _ hi hs hd ho => exec_of_no_tree hs hd ho hi,
    fun hs hd ho hv hl he => exec_heEncode_of_emptyInput hs hd ho hv ((emptyInput_iff s).2 ⟨hl, he⟩),
    exec_hdDecode_of_startFormat, exec_lzMatch_of_limits⟩

end Sys2Proof.Machine
end

section
/-! Issue (spec/60_exceptions.md R180, R181): the word that the next step performs, a CMD write while idle and while busy, and the
bits of STATUS that only a reset clears (spec/10_state.md R27, spec/60_exceptions.md R191). -/

namespace Sys2Proof.Machine

open Sys2Proof

/-! ### A word for the next step (R180) -/

theorem withFetchWord_toNat (s : State) (w : Word) : s.withFetchWord 32 w.toNat = { latch w s with delay := 0 } := by
  rw [State.withFetchWord, Nat.mod_eq_of_lt w.isLt, BitVec.ofNat_toNat, BitVec.setWidth_eq]

/-- Settles O6: the core goes next, and the word decodes to its command. -/
theorem fetchedWordRunsNext : Obligations.FetchedWordRunsNext := by
  intro s i hwf
  have hdecode : decode (encode i) = .command i := (decodeInvertsEncode i).trans (if_pos hwf)
  rw [withFetchWord_toNat]
  exact (step_core rfl (.inl rfl)).trans (runWord_command hdecode _)

/-! ### CMD (R26, R180, R181) -/

theorem issue_lastop (w : Word) (s : State) : (issue w s).status.lastop = BitVec.ofNat 8 w.toNat :=
  BitVec.eq_of_toNat_eq ((opField_toNat w).trans (BitVec.toNat_ofNat _ _).symm)

/-- Settles O9: the write is the issue, whose STATUS has only BUSY, ANYERR, OVR and LASTOP left. -/
theorem cmdWriteIssuesTheWord : Obligations.CmdWriteIssuesTheWord := by
  intro s w hb
  have hop := issue_lastop w s
  refine ⟨issue w s, hostOp_wr_idle 0x014 w rfl hb, ?_, rfl, ?_⟩
  · rw [← hop]
    rfl
  · have hopNat : (issue w s).status.lastop.toNat = w.toNat % 2 ^ 8 := by rw [hop, BitVec.toNat_ofNat]
    rw [statusWord, hopNat]
    rfl

theorem hostOp_wr_busy {s : State} (off : BitVec 12) (v : Word) (h4 : off.toNat % 4 = 0) (hb : s.busy = true) :
    hostOp (.wr 32 off v) s = .next (writeRegBusy s (regAt off) v) := by
  simp [hostOp, regAccessOk, h4, writeReg, hb]

/-! ### The sticky bits (R27, R191) -/

/-- OVR and ANYERR stay 1. -/
def KeepsSticky (s t : State) : Prop :=
  (s.status.ovr = true → t.status.ovr = true) ∧ (s.status.anyerr = true → t.status.anyerr = true)

theorem keepsSticky_of_status {s t : State} (h : t.status = s.status) : KeepsSticky s t := by
  rw [KeepsSticky, h]
  exact ⟨id, id⟩

theorem keepsSticky_of_completed {s t : State} {c : ErrCode} (h : t.status = (complete c s).status) : KeepsSticky s t := by
  rw [KeepsSticky, h, complete_status]
  exact ⟨id, fun hany => by simp [hany]⟩

theorem runWord_keepsSticky {w : Word} {s t : State} (h : runWord w s = .next t) : KeepsSticky s t := by
  cases hd : decode w with
  | command i =>
    obtain ⟨-, c, hstatus⟩ := exec_status ((runWord_command hd s).symm.trans h)
    exact keepsSticky_of_completed hstatus
  | illegal why =>
    obtain rfl := of_next ((runWord_illegal hd s).symm.trans h)
    exact keepsSticky_of_completed rfl

/-- No register write clears the bits but SRST of CTRL. -/
theorem writeReg_keepsSticky (s : State) (r : Reg) (v : Word) :
    (r = .ctrl ∧ v.getLsbD 0 = true) ∨ KeepsSticky s (writeReg s r v) := by
  by_cases hreset : r = .ctrl ∧ v.getLsbD 0 = true
  · exact .inl hreset
  · right
    unfold writeReg
    split
    · unfold writeRegBusy
      rw [if_neg hreset]
      split
      · exact ⟨fun _ => rfl, id⟩
      · exact ⟨id, id⟩
    · cases r with
      | ctrl =>
        rw [writeRegIdle, if_neg fun hv => hreset ⟨rfl, hv⟩]
        exact ⟨id, id⟩
      | _ => exact ⟨id, id⟩

theorem regAt_eq_ctrl {off : BitVec 12} (h4 : off.toNat % 4 = 0) (h : regAt off = .ctrl) : off = 0x010 := by
  have hlow : ∀ n < 24, lowRegs.getD n .reserved = .ctrl → n = 4 := by decide
  have hlt : off.toNat < 0x060 := by
    by_contra hge
    have hw := regAt_not_writable_of_le (Nat.le_of_not_lt hge)
    rw [h] at hw
    cases hw
  rw [regAt_low (by omega)] at h
  have hidx := hlow (off.toNat / 4) (by omega) h
  refine BitVec.eq_of_toNat_eq (?_ : off.toNat = 16)
  omega

/-- The two resets are the only host operations that clear the bits. -/
theorem hostOp_keepsSticky {op : HostOp} {s t : State} (h : hostOp op s = .next t) :
    (∃ v : Word, v.getLsbD 0 = true ∧ op = .wr 32 0x010 v) ∨ op = .powerOn ∨ KeepsSticky s t := by
  have hread : ∀ off, KeepsSticky s (observeReg off s) := fun off => by
    obtain ⟨x, k, he⟩ := observeReg_frame off s
    rw [he]
    exact ⟨id, id⟩
  rcases hostOp_next h with ⟨off, v, rfl, h4, rfl⟩ | ⟨off, -, -, rfl⟩ | ⟨_, _, -, -, -, rfl⟩ | ⟨_, -, -, -, rfl⟩ |
    ⟨-, -, rfl⟩ | ⟨-, -, rfl⟩ | ⟨rfl, -⟩
  · rcases writeReg_keepsSticky s (regAt off) v with ⟨hr, hv⟩ | hkept
    · exact .inl ⟨v, hv, by rw [regAt_eq_ctrl h4 hr]⟩
    · exact .inr (.inr hkept)
  · exact .inr (.inr (hread off))
  · exact .inr (.inr ⟨id, id⟩)
  · exact .inr (.inr ⟨id, id⟩)
  · exact .inr (.inr (hread statusOffset))
  · exact .inr (.inr (hread statusOffset))
  · exact .inr (.inl rfl)

/-- Where a command is pending and no host operation is to go first, the core goes; in every other step that clears a bit the host
went, and reset. -/
theorem step_keepsSticky {s t : State} (h : step s = .next t) :
    ((s.pending = none ∨ 0 < s.delay) ∧
      ((∃ (v : Word) (ops : List HostOp), v.getLsbD 0 = true ∧ s.hostOps = .wr 32 0x010 v :: ops) ∨
        (∃ ops, s.hostOps = .powerOn :: ops))) ∨ KeepsSticky s t := by
  by_cases hhost : s.pending = none ∨ 0 < s.delay
  · rcases step_next h with ⟨w, -, -, hw⟩ | ⟨op, ops, ho, hop⟩ | ⟨-, -, rfl⟩
    · exact .inr (runWord_keepsSticky hw)
    · rcases hostOp_keepsSticky hop with ⟨v, hv, rfl⟩ | rfl | hkept
      · exact .inl ⟨hhost, .inl ⟨v, ops, hv, ho⟩⟩
      · exact .inl ⟨hhost, .inr ⟨ops, ho⟩⟩
      · exact .inr hkept
    · exact .inr ⟨id, id⟩
  · obtain ⟨hpend, hdelay⟩ := not_or.1 hhost
    obtain ⟨w, hw⟩ := Option.ne_none_iff_exists'.1 hpend
    exact .inr (runWord_keepsSticky ((step_core hw (.inl (Nat.eq_zero_of_not_pos hdelay))).symm.trans h))

/-- Settles O10: a CMD write while busy is a write of OVR, and no step but the host's reset clears a sticky bit. -/
theorem cmdWriteWhileBusySetsOvr : Obligations.CmdWriteWhileBusySetsOvr :=
  ⟨fun _ w hb => hostOp_wr_busy 0x014 w rfl hb, fun _ _ => step_keepsSticky⟩

end Sys2Proof.Machine
end

section
/-! The registers while a command is in progress (spec/70_reset_and_hazards.md R221), the soft reset (R211), and the host's WAIT for
the completion (R225, spec/30_encoding.md R87). -/

namespace Sys2Proof.Machine

open Sys2Proof

/-! ### A register read, current or unspecified (R221) -/

theorem hostOp_rd {off : BitVec 12} (h4 : off.toNat % 4 = 0) (s : State) :
    hostOp (.rd 32 off) s = .next (observeReg off s) :=
  if_pos (decide_eq_true ⟨rfl, h4⟩)

theorem observeReg_of_not_volatile {off : BitVec 12} (h : (regAt off).volatile = false) (s : State) :
    observeReg off s = see (.reg off (readReg s (regAt off))) s := by
  simp [observeReg, h]

theorem observeReg_of_volatile {s : State} {off : BitVec 12} (hb : s.busy = true) (h : (regAt off).volatile = true) :
    observeReg off s =
      { see (.reg off (Config.freeWord s.draws &&& (regAt off).freeBits)) s with draws := s.draws + 1 } := by
  simp [observeReg, hb, h]

/-! ### WAIT until the command completes (R87, R225) -/

/-- A WAIT while busy reads STATUS and stays the host's next operation. -/
theorem hostOp_wait_busy {s : State} (hb : s.busy = true) :
    hostOp .wait s = .next { see (.reg statusOffset (statusWord s)) s with hostOps := .wait :: s.hostOps } := by
  have hread : observeReg statusOffset s = see (.reg statusOffset (statusWord s)) s := observeReg_of_not_volatile rfl s
  refine (if_pos hb).trans ?_
  rw [hread]
  rfl

/-- So a step with WAIT at the front only takes one from the delay. -/
theorem step_wait_busy {s : State} {w : Word} {rest : List HostOp} (hp : s.pending = some w)
    (ho : s.hostOps = .wait :: rest) (hd : 0 < s.delay) :
    step s = .next { s with delay := s.delay - 1, seen := .reg statusOffset (statusWord s) :: s.seen } := by
  have hbusy : s.busy = true := by simp [State.busy, hp]
  have hwait := hostOp_wait_busy (s := { s with hostOps := rest, delay := s.delay - 1 }) hbusy
  rw [step_host_first hp ho hd, hwait, ho]
  rfl

/-- The host waits until the core goes next; all it leaves is its record of the STATUS reads. -/
theorem run_wait_busy {s : State} {w : Word} {rest : List HostOp} (hp : s.pending = some w)
    (ho : s.hostOps = .wait :: rest) :
    ∃ reads, core.run s.delay s = .next { s with delay := 0, seen := reads } := by
  induction hd : s.delay generalizing s with
  | zero => exact ⟨s.seen, congrArg Host.Outcome.next (by rw [← hd])⟩
  | succ d ih =>
    rw [run_succ (M := core) (step_wait_busy hp ho (by omega))]
    exact ih hp ho (by dsimp only; omega)

/-- A command leaves the host's operations as they are. -/
theorem exec_hostOps {i : Instr} {s t : State} (h : exec i s = .next t) : t.hostOps = s.hostOps := by
  cases exec_completion h with
  | put n => exact appendBits_hostOps s _
  | encoded u _ hl =>
    obtain ⟨_, _, _, rfl⟩ := encodeLoop_frame hl
    rfl
  | _ => rfl

/-- The core completes every command word, an illegal one with ILLEGAL. -/
theorem runWord_completes {s : State} (w : Word) (hs : TablesOk s) :
    ∃ t, runWord w s = .next t ∧ t.busy = false ∧ t.status.done = true ∧ t.hostOps = s.hostOps := by
  cases hd : decode w with
  | command i =>
    obtain ⟨t, ht, hbusy, hdone⟩ := everyCommandCompletes i s fun _ => hs
    exact ⟨t, (runWord_command hd s).trans ht, hbusy, hdone, exec_hostOps ht⟩
  | illegal why => exact ⟨_, runWord_illegal hd s, rfl, rfl, rfl⟩

/-- Settles O12: the WAITs use up the delay, and then the core goes and completes the word. -/
theorem polledCommandCompletes : Obligations.PolledCommandCompletes := by
  intro s w rest hp ho hs
  obtain ⟨reads, hwait⟩ := run_wait_busy hp ho
  obtain ⟨t, ht, hbusy, hdone, hops⟩ := runWord_completes (s := { s with delay := 0, seen := reads }) w hs
  refine ⟨t, ?_, hbusy, hdone, hops.trans ho⟩
  rw [run_add 1 hwait]
  exact run_succ (M := core) ((step_core (s := { s with delay := 0, seen := reads }) hp (.inl rfl)).trans ht) 0

/-! ### Registers while busy (R221) -/

/-- A register that the host can write stands at one offset. -/
theorem regAt_inj_of_writable {off off' : BitVec 12} (h4 : off.toNat % 4 = 0) (h4' : off'.toNat % 4 = 0)
    (hw : (regAt off).writable = true) (h : regAt off = regAt off') : off = off' := by
  have hlow : ∀ m < 24, ∀ n < 24, (lowRegs.getD m .reserved).writable = true →
      lowRegs.getD m .reserved = lowRegs.getD n .reserved → m = n := by decide
  have hlt : ∀ {o : BitVec 12}, (regAt o).writable = true → o.toNat < 0x060 := fun ho => by
    by_contra hge
    rw [regAt_not_writable_of_le (Nat.le_of_not_lt hge)] at ho
    cases ho
  have hoff := hlt hw
  have hoff' := hlt (h ▸ hw)
  rw [regAt_low (off := off) (by omega)] at hw h
  rw [regAt_low (off := off') (by omega)] at h
  have hidx := hlow (off.toNat / 4) (by omega) (off'.toNat / 4) (by omega) hw h
  exact BitVec.eq_of_toNat_eq (by omega)

/-- Only CMD, and CTRL with SRST = 1, are written while busy. -/
theorem writeRegBusy_ignored {r : Reg} {v : Word} (s : State) (hcmd : r ≠ .cmd) (hreset : ¬(r = .ctrl ∧ v.getLsbD 0 = true)) :
    writeRegBusy s r v = s := by
  rw [writeRegBusy, if_neg hcmd, if_neg hreset]

/-- Whether the registers at offsets below the table windows are of U6, read off the list of the registers. -/
theorem regAt_volatile_of_mem {l : List Nat} {b : Bool}
    (hl : ∀ n ∈ l, n < 0x400 ∧ (lowRegs.getD (n / 4) .reserved).volatile = b) {off : BitVec 12} (h : off.toNat ∈ l) :
    (regAt off).volatile = b := by
  obtain ⟨hlt, hv⟩ := hl _ h
  rw [regAt_low hlt]
  exact hv

/-- The two table windows are unspecified while busy. -/
theorem regAt_volatile_of_window {off : BitVec 12} (h : 0x400 ≤ off.toNat ∧ off.toNat < 0xC00) :
    (regAt off).volatile = true := by
  by_cases hfreq : off.toNat < 0x800
  · rw [regAt_freq h.1 hfreq]; rfl
  · rw [regAt_codelen (by omega) h.2]; rfl

/-- No free bit of TREE_STATUS is reserved (R37). -/
theorem treeStatus_reserved_eq_zero (x : Word) : (x &&& Reg.treeStatus.freeBits) &&& 0xFFFF00FE = 0 := by
  have hdisjoint : Reg.treeStatus.freeBits &&& 0xFFFF00FE = 0 := by decide
  rw [BitVec.and_assoc, hdisjoint]
  exact BitVec.and_zero

/-- Settles O11: a write by whether it is to CMD or resets, a read by whether the register at its offset is one of U6. -/
theorem registersWhileBusy : Obligations.RegistersWhileBusy := by
  intro s off v hb h4
  refine ⟨fun hcmd hreset => ?_, fun h => ?_, fun h => ?_⟩
  · have hne : regAt off ≠ .cmd := fun hr =>
      hcmd (regAt_inj_of_writable (off' := 0x014) h4 rfl (by rw [hr]; rfl) hr)
    have hno : ¬(regAt off = .ctrl ∧ v.getLsbD 0 = true) := fun ⟨hr, hv⟩ =>
      hreset.elim (fun ho => ho (regAt_eq_ctrl h4 hr)) fun h0 => ne_true_of_eq_false h0 hv
    rw [hostOp_wr_busy off v h4 hb, writeRegBusy_ignored s hne hno]
  · rw [hostOp_rd h4, observeReg_of_not_volatile (regAt_volatile_of_mem (by decide) h)]
  · have hv : (regAt off).volatile = true := h.elim (regAt_volatile_of_mem (by decide)) regAt_volatile_of_window
    refine ⟨_, _, (hostOp_rd h4 s).trans (congrArg _ (observeReg_of_volatile hb hv)), ?_⟩
    rintro rfl
    exact treeStatus_reserved_eq_zero _

/-! ### Soft reset (R211) -/

/-- A CTRL write with SRST = 1 is the soft reset, busy or idle. -/
theorem hostOp_wr_ctrl_reset {v : Word} (h : v.getLsbD 0 = true) (s : State) :
    hostOp (.wr 32 0x010 v) s = .next (softReset s) := by
  cases hb : s.busy with
  | true => exact (hostOp_wr_busy 0x010 v rfl hb).trans (congrArg _ ((if_neg nofun).trans (if_pos ⟨rfl, h⟩)))
  | false => exact (hostOp_wr_idle 0x010 v rfl hb).trans (congrArg _ (if_pos h))

/-- What is abandoned is at most the range's bytes that exist. -/
theorem softReset_sameOutside (s : State) :
    SameOutside s.dmem (softReset s).dmem (abandonedRange s).1 (abandonedRange s).2 := by
  intro x hx
  have hle : bytesThatExist s.params.dmemSize (abandonedRange s).1 (abandonedRange s).2 ≤ (abandonedRange s).2 :=
    Nat.min_le_left _ _
  exact read_writeBytes_outside _ _ (by rw [freeBytes_length]; omega)

/-- With no range to abandon every byte is kept. -/
theorem softReset_read {s : State} (h : abandonedRange s = (0, 0)) (x : Nat) :
    Memory.read (softReset s).dmem x = Memory.read s.dmem x := by
  have hsame := softReset_sameOutside s
  rw [h] at hsame
  exact hsame x (.inr (Nat.zero_le x))

theorem abandonedRange_of_idle {s : State} (h : s.busy = false) : abandonedRange s = (0, 0) := by
  have hp : s.pending = none := Option.isNone_iff_eq_none.1 (by simpa [State.busy] using h)
  simp [abandonedRange, hp]

theorem abandonedRange_of_illegal {s : State} {w : Word} {why : IllegalReason} (hp : s.pending = some w)
    (hd : decode w = .illegal why) : abandonedRange s = (0, 0) := by
  simp [abandonedRange, hp, hd]

/-- The bytes a command in progress could write are its destination range (R71). -/
theorem abandonedRange_of_command {s : State} {w : Word} {i : Instr} (hp : s.pending = some w)
    (hd : decode w = .command i) : abandonedRange s = destRange i s := by
  simp only [abandonedRange, hp, hd]
  cases i <;> rfl

/-- Settles O15: every register has its value of `State.reset`, and DMEM changes in the abandoned range only. -/
theorem softResetRestoresResetValues : Obligations.SoftResetRestoresResetValues := by
  intro s v hv
  refine ⟨softReset s, hostOp_wr_ctrl_reset hv s, rfl, fun hb => softReset_read (abandonedRange_of_idle hb),
    fun w hp hno => ?_, fun w i hp hd => ?_⟩
  · cases hd : decode w with
    | command i => exact absurd hd (hno i)
    | illegal why => exact softReset_read (abandonedRange_of_illegal hp hd)
  · rw [← abandonedRange_of_command hp hd]
    exact softReset_sameOutside s

end Sys2Proof.Machine
end
